-- ==== Sys2Proof/Word.lean ====
section
/-! DEFINITION. The words of IRDEC: every width here is one the spec names (R7, R10, R15, R81). -/

namespace Sys2Proof

/-- One byte of a byte-addressed host's view of the register window (R52). -/
abbrev Byte := BitVec 8

/-- A 32-bit register word, time-base value or pulse length (R7, R51, R85). -/
abbrev Word := BitVec 32

/-- A bit-count or length register, CNT_W = 16 bits wide (R10). -/
abbrev Count := BitVec 16

/-- A register word offset OFF (R50, R83). -/
abbrev Offset := BitVec 8

/-- A bit-vector register (ACC_BITS, PUB_BITS, BD_BITS). Its 2048 places are the 64 words of a register
window (R86); the capacity MAX_BITS or BD_MAX_BITS of an instance never exceeds them (R9, R11), and the
places at or above the capacity hold 0 (R18). Log entry 4. -/
abbrev BitReg := BitVec 2048

/-- A format E word, the 33 bits of an edge event (R81, R82). -/
abbrev EWord := BitVec 33

/-- A format T word, the 41 bits of a host transaction (R81, R83). -/
abbrev TWord := BitVec 41

end Sys2Proof
end

