-- ==== Sys2Proof/Config.lean ====
section
/-! DEFINITION. What an implementation of IRDEC fixes (R7 to R13), the values the spec leaves open
(IRDEC_BASE, the pulse buffer's entries that nothing has written), and the host procedures' times. -/

namespace Sys2Proof

/-- The implementation parameters of one IRDEC instance (section 3 of 00_scope.md). -/
structure Params where
  /-- MAX_BITS, the capacity in bits of the accumulator and of the published slot (R9). -/
  maxBits : Nat
  /-- MAX_PULSES, the capacity in entries of the batch classifier's pulse buffer (R11). -/
  maxPulses : Nat
  /-- HAS_BATCH, whether the batch classifier is present (R12). -/
  hasBatch : Bool
  deriving DecidableEq, Repr

/-- The default values of R9, R11 and R12: 128, 2·128 + 3 and true. -/
def Params.default : Params := ⟨128, 259, true⟩

/-- The ranges R9 and R11 give the parameters. -/
abbrev Params.Valid (p : Params) : Prop :=
  128 ≤ p.maxBits ∧ p.maxBits ≤ 2046 ∧ 2 * p.maxBits + 3 ≤ p.maxPulses ∧ p.maxPulses ≤ 4096

/-- BD_MAX_BITS, the capacity of the batch result bitstring (R11). -/
def Params.bdMaxBits (p : Params) : Nat := p.maxPulses / 2

/-- IRDEC_BASE, the byte address at which a byte-addressed host sees word offset 0: left open by R13,
so no value of it can be proved. Log entry 6. -/
opaque Config.irdecBase : Nat

/-- The entry of BD_BUF at an index that nothing has written since power-on: R30 and R270 give it no
defined value. A free value. Log entry 5. -/
opaque Config.undefinedEntry : Nat → Word

/-- TIMEOUT_MS, the host procedures' reply timeout, default 1000 (R221). -/
def Config.defaultTimeoutMs : Nat := 1000

/-- POLL_MS, the host procedures' sleep quantum, default 1 (R221). -/
def Config.defaultPollMs : Nat := 1

end Sys2Proof
end

