-- ==== Sys2Proof/Syntax.lean ====
section
/-! DEFINITION. The operations IRDEC accepts, one constructor for each row of spec/opcode_table.json,
and the form in which inputs arrive (R80 to R83, R51, R58). -/

namespace Sys2Proof

/-- LEVEL, the signal level after an edge: 1 = high, 0 = low (R82, R123). -/
inductive Level where
  | low
  | high
  deriving DecidableEq, Repr

/-- One operation of IRDEC: an edge event or a host register transaction (R2). A write carries its whole
DATA word, ignored bits included; a read has no operand but the word index of a bit window, since DATA is
ignored on a read (R83). -/
inductive Instr where
  /-- EDGE (R110). -/
  | edge (now : Word) (level : Level)
  /-- RD_CTRL (R152). -/
  | rdCtrl
  /-- WR_CTRL (R151). -/
  | wrCtrl (data : Word)
  /-- CMD_RESET_SESSION (R154). -/
  | cmdResetSession (data : Word)
  /-- CMD_CONSUME (R155). -/
  | cmdConsume (data : Word)
  /-- CMD_NOP (R153). -/
  | cmdNop (data : Word)
  /-- RD_STATUS (R156). -/
  | rdStatus
  /-- RD_PUB_COUNT (R157). -/
  | rdPubCount
  /-- RD_ACC_COUNT (R159). -/
  | rdAccCount
  /-- RD_LAST_TS (R160). -/
  | rdLastTs
  /-- RD_PARAMS (R161). -/
  | rdParams
  /-- RD_PUB_BITS, k = OFF − 0x40 (R158). -/
  | rdPubBits (k : BitVec 6)
  /-- BD_CLEAR (R181). -/
  | bdClear (data : Word)
  /-- BD_RUN (R182). -/
  | bdRun (data : Word)
  /-- BD_CLEAR_RUN (R183). -/
  | bdClearRun (data : Word)
  /-- BD_CTRL_NOP (R184). -/
  | bdCtrlNop (data : Word)
  /-- BD_PUSH (R180). -/
  | bdPush (data : Word)
  /-- RD_BD_STATUS (R191). -/
  | rdBdStatus
  /-- RD_BD_LEN (R192). -/
  | rdBdLen
  /-- RD_BD_COUNT (R193). -/
  | rdBdCount
  /-- RD_BD_DROPS (R195). -/
  | rdBdDrops
  /-- RD_BD_BITS, k = OFF − 0x80 (R194). -/
  | rdBdBits (k : BitVec 6)
  /-- RSV_RD, the catch-all read (R162). -/
  | rsvRd (off : Offset)
  /-- RSV_WR, the catch-all write (R163). -/
  | rsvWr (off : Offset) (data : Word)
  deriving DecidableEq, Repr

/-- A word at one of IRDEC's two interfaces; the interface fixes the format (R80, R81). -/
inductive InputWord where
  | e (w : EWord)
  | t (w : TWord)
  deriving DecidableEq, Repr

/-- What a host presents: a format T word, or, from a byte-addressed host, a load of `size` bytes or a
store of a list of bytes, the one at the lowest address first (R51, R52). -/
inductive HostInput where
  | word (w : TWord)
  | load (addr size : Nat)
  | store (addr : Nat) (bytes : List Byte)
  deriving DecidableEq, Repr

/-- What reaches IRDEC at one instant: at most one host transaction and at most one edge event
(R58; R245: two edges never arrive together). -/
structure Arrival where
  host : Option HostInput
  edge : Option EWord
  deriving DecidableEq, Repr

end Sys2Proof
end

