-- ==== Sys2Proof/WellFormed.lean ====
section
/-! DEFINITION. Which operations are those of some input word (R98 to R100, R104): the DATA condition of
each write row, the presence of the batch rows, and the offsets the catch-all rows are left with. -/

namespace Sys2Proof

/-- The offsets with a read row of their own (R86, R100); the batch ones only when HAS_BATCH (R104). -/
def definedRead (hasBatch : Bool) (off : Offset) : Bool :=
  off == 0x00 || (0x02 ≤ off && off ≤ 0x06) || (0x40 ≤ off && off ≤ 0x7F) ||
    (hasBatch && ((0x12 ≤ off && off ≤ 0x15) || (0x80 ≤ off && off ≤ 0xBF)))

/-- The offsets with a write row of their own (R86, R100); the batch ones only when HAS_BATCH (R104). -/
def definedWrite (hasBatch : Bool) (off : Offset) : Bool :=
  off == 0x00 || off == 0x01 || (hasBatch && (off == 0x10 || off == 0x11))

/-- DATA[1:0], the command bits of CMD and BD_CTRL (R89, R93). -/
def commandBits (data : Word) : BitVec 2 := data.setWidth 2

/-- The operation is one that some word decodes to, in an instance with or without the batch unit. -/
def Instr.wf (hasBatch : Bool) : Instr → Bool
  | .edge _ _ => true
  | .rdCtrl => true
  | .wrCtrl _ => true
  | .cmdResetSession data => data.getLsbD 0
  | .cmdConsume data => commandBits data == 0b10
  | .cmdNop data => commandBits data == 0b00
  | .rdStatus => true
  | .rdPubCount => true
  | .rdAccCount => true
  | .rdLastTs => true
  | .rdParams => true
  | .rdPubBits _ => true
  | .bdClear data => hasBatch && commandBits data == 0b01
  | .bdRun data => hasBatch && commandBits data == 0b10
  | .bdClearRun data => hasBatch && commandBits data == 0b11
  | .bdCtrlNop data => hasBatch && commandBits data == 0b00
  | .bdPush _ => hasBatch
  | .rdBdStatus => hasBatch
  | .rdBdLen => hasBatch
  | .rdBdCount => hasBatch
  | .rdBdDrops => hasBatch
  | .rdBdBits _ => hasBatch
  | .rsvRd off => !definedRead hasBatch off
  | .rsvWr off _ => !definedWrite hasBatch off

end Sys2Proof
end

