-- ==== Sys2Proof/Decode.lean ====
section
/-! DEFINITION. From words to operations and back: formats E and T (R81 to R83), the match and mask table
of R100, the byte-addressed host's accesses (R51, R52), and the encoder. -/

namespace Sys2Proof

/-- LEVEL as its bit: 1 = high (R82). -/
def Level.isHigh : Level → Bool
  | .low => false
  | .high => true

/-- The level a LEVEL bit stands for (R82). -/
def Level.ofBit (b : Bool) : Level := if b then .high else .low

/-- A format E word from its fields: LEVEL = [32], NOW = [31:0] (R81). -/
def eWord (level : Level) (now : Word) : EWord := BitVec.ofBool level.isHigh ++ now

/-- A format T word from its fields: W = [40], OFF = [39:32], DATA = [31:0] (R81). -/
def tWord (w : Bool) (off : Offset) (data : Word) : TWord := (BitVec.ofBool w ++ off) ++ data

/-- W, bit 40 (R83). -/
def tW (w : TWord) : Bool := w.getLsbD 40

/-- OFF, bits 39:32 (R83). -/
def tOff (w : TWord) : Offset := w.extractLsb' 32 8

/-- DATA, bits 31:0 (R83). -/
def tData (w : TWord) : Word := w.extractLsb' 0 32

/-- The word index k of a bit window, OFF[5:0] (R92, R97). -/
def windowIndex (off : Offset) : BitVec 6 := off.setWidth 6

/-- A row of R100's table: its match and mask, whether HAS_BATCH gates it (R104), and the operation it
selects, from OFF and DATA. -/
structure TRow where
  mnemonic : String
  pattern : TWord
  mask : TWord
  batch : Bool
  build : Offset → Word → Instr

/-- The defined operations of format T, in the order of R100's table; the two catch-all rows are not in
it. -/
def tRows : List TRow := [
  ⟨"RD_CTRL", 0x00000000000, 0x1FF00000000, false, fun _ _ => .rdCtrl⟩,
  ⟨"WR_CTRL", 0x10000000000, 0x1FF00000000, false, fun _ d => .wrCtrl d⟩,
  ⟨"CMD_RESET_SESSION", 0x10100000001, 0x1FF00000001, false, fun _ d => .cmdResetSession d⟩,
  ⟨"CMD_CONSUME", 0x10100000002, 0x1FF00000003, false, fun _ d => .cmdConsume d⟩,
  ⟨"CMD_NOP", 0x10100000000, 0x1FF00000003, false, fun _ d => .cmdNop d⟩,
  ⟨"RD_STATUS", 0x00200000000, 0x1FF00000000, false, fun _ _ => .rdStatus⟩,
  ⟨"RD_PUB_COUNT", 0x00300000000, 0x1FF00000000, false, fun _ _ => .rdPubCount⟩,
  ⟨"RD_ACC_COUNT", 0x00400000000, 0x1FF00000000, false, fun _ _ => .rdAccCount⟩,
  ⟨"RD_LAST_TS", 0x00500000000, 0x1FF00000000, false, fun _ _ => .rdLastTs⟩,
  ⟨"RD_PARAMS", 0x00600000000, 0x1FF00000000, false, fun _ _ => .rdParams⟩,
  ⟨"RD_PUB_BITS", 0x04000000000, 0x1C000000000, false, fun o _ => .rdPubBits (windowIndex o)⟩,
  ⟨"BD_CLEAR", 0x11000000001, 0x1FF00000003, true, fun _ d => .bdClear d⟩,
  ⟨"BD_RUN", 0x11000000002, 0x1FF00000003, true, fun _ d => .bdRun d⟩,
  ⟨"BD_CLEAR_RUN", 0x11000000003, 0x1FF00000003, true, fun _ d => .bdClearRun d⟩,
  ⟨"BD_CTRL_NOP", 0x11000000000, 0x1FF00000003, true, fun _ d => .bdCtrlNop d⟩,
  ⟨"BD_PUSH", 0x11100000000, 0x1FF00000000, true, fun _ d => .bdPush d⟩,
  ⟨"RD_BD_STATUS", 0x01200000000, 0x1FF00000000, true, fun _ _ => .rdBdStatus⟩,
  ⟨"RD_BD_LEN", 0x01300000000, 0x1FF00000000, true, fun _ _ => .rdBdLen⟩,
  ⟨"RD_BD_COUNT", 0x01400000000, 0x1FF00000000, true, fun _ _ => .rdBdCount⟩,
  ⟨"RD_BD_DROPS", 0x01500000000, 0x1FF00000000, true, fun _ _ => .rdBdDrops⟩,
  ⟨"RD_BD_BITS", 0x08000000000, 0x1C000000000, true, fun o _ => .rdBdBits (windowIndex o)⟩]

/-- `(word & mask) = match` (R100), for a row that the instance has (R104). -/
def TRow.selects (hasBatch : Bool) (r : TRow) (w : TWord) : Bool :=
  (hasBatch || !r.batch) && (w &&& r.mask == r.pattern)

/-- R100: the row that matches, else RSV_RD or RSV_WR. Total: every T word is one operation (R240). -/
def decodeT (hasBatch : Bool) (w : TWord) : Instr :=
  match tRows.find? (fun r => r.selects hasBatch w) with
  | some r => r.build (tOff w) (tData w)
  | none => if tW w then .rsvWr (tOff w) (tData w) else .rsvRd (tOff w)

/-- R82: the only operation of format E is EDGE. -/
def decodeE (w : EWord) : Instr :=
  .edge (w.extractLsb' 0 32) (Level.ofBit (w.getLsbD 32))

/-- The operation a word stands for, in an instance with or without the batch unit. -/
def decode (hasBatch : Bool) : InputWord → Instr
  | .e w => decodeE w
  | .t w => decodeT hasBatch w

/-- Little-endian assembly: the byte at the lowest address holds bits 7:0 (R52). -/
def leWord (b0 b1 b2 b3 : Byte) : Word := ((b3 ++ b2) ++ b1) ++ b0

/-- The bytes of a register word, lowest address first (R52). -/
def leBytes (w : Word) : List Byte :=
  [w.extractLsb' 0 8, w.extractLsb' 8 8, w.extractLsb' 16 8, w.extractLsb' 24 8]

/-- Why an access of a byte-addressed host is not a transaction of IRDEC (R51). Each is SAFE: the model
takes no step where the spec gives none. -/
inductive AccessError where
  /-- the access is not 4 bytes wide (R51) -/
  | notFourBytes
  /-- the address is not a multiple of 4 from IRDEC_BASE (R51) -/
  | misaligned
  /-- the address is outside the 256 words at IRDEC_BASE (R50, R56) -/
  | outsideWindow
  deriving DecidableEq, Repr

/-- The word offset a byte address names: k for IRDEC_BASE + 4k (R51). -/
def offsetOf (base addr : Nat) : Except AccessError Offset :=
  if addr < base ∨ base + 1024 ≤ addr then .error .outsideWindow
  else if (addr - base) % 4 ≠ 0 then .error .misaligned
  else .ok (BitVec.ofNat 8 ((addr - base) / 4))

/-- The format T word of what a host presents, or why it is none (R51, R52). -/
def transaction (base : Nat) : HostInput → Except AccessError TWord
  | .word w => .ok w
  | .load addr size =>
    if size = 4 then (offsetOf base addr).map (fun off => tWord false off 0)
    else .error .notFourBytes
  | .store addr bytes =>
    match bytes with
    | [b0, b1, b2, b3] => (offsetOf base addr).map (fun off => tWord true off (leWord b0 b1 b2 b3))
    | _ => .error .notFourBytes

/-- The operation a host's input stands for, or why it is outside the interface. -/
def decodeHost (base : Nat) (hasBatch : Bool) (h : HostInput) : Except AccessError Instr :=
  (transaction base h).map (decodeT hasBatch)

/-- The width in bits of a format's container in whole bytes, for `decodeTableWord`: format E's 33 bits
take five bytes, format T's 41 bits six. -/
def isEWidth (nbits : Nat) : Bool := decide (nbits ≤ 40)

/-- The input word whose bits are `w`, by the width of its row's format. A word has 33 or 41 bits: what
`w` holds above them is no part of it. Log entry 9. -/
def inputWordOf (nbits w : Nat) : InputWord :=
  if isEWidth nbits then .e (BitVec.ofNat 33 w) else .t (BitVec.ofNat 41 w)

/-- The operation this decoder reads from an instruction of `nbits` bits, `w`, in the default instance
(HAS_BATCH true). Always some: every word of a format decodes to an operation (R100, R240). -/
def decodeTableWord (nbits w : Nat) : Option Instr :=
  some (decode Params.default.hasBatch (inputWordOf nbits w))

/-- The offset of word k of the PUB_BITS window, 0x40 + k (R92). -/
def pubOffset (k : BitVec 6) : Offset := 0b01#2 ++ k

/-- The offset of word k of the BD_BITS window, 0x80 + k (R97). -/
def bdOffset (k : BitVec 6) : Offset := 0b10#2 ++ k

/-- The word of an operation, written from R81's formats and R86's offsets; a read has DATA = 0
(R83, R101). -/
def encode : Instr → InputWord
  | .edge now level => .e (eWord level now)
  | .rdCtrl => .t (tWord false 0x00 0)
  | .wrCtrl data => .t (tWord true 0x00 data)
  | .cmdResetSession data => .t (tWord true 0x01 data)
  | .cmdConsume data => .t (tWord true 0x01 data)
  | .cmdNop data => .t (tWord true 0x01 data)
  | .rdStatus => .t (tWord false 0x02 0)
  | .rdPubCount => .t (tWord false 0x03 0)
  | .rdAccCount => .t (tWord false 0x04 0)
  | .rdLastTs => .t (tWord false 0x05 0)
  | .rdParams => .t (tWord false 0x06 0)
  | .rdPubBits k => .t (tWord false (pubOffset k) 0)
  | .bdClear data => .t (tWord true 0x10 data)
  | .bdRun data => .t (tWord true 0x10 data)
  | .bdClearRun data => .t (tWord true 0x10 data)
  | .bdCtrlNop data => .t (tWord true 0x10 data)
  | .bdPush data => .t (tWord true 0x11 data)
  | .rdBdStatus => .t (tWord false 0x12 0)
  | .rdBdLen => .t (tWord false 0x13 0)
  | .rdBdCount => .t (tWord false 0x14 0)
  | .rdBdDrops => .t (tWord false 0x15 0)
  | .rdBdBits k => .t (tWord false (bdOffset k) 0)
  | .rsvRd off => .t (tWord false off 0)
  | .rsvWr off data => .t (tWord true off data)

end Sys2Proof
end

