-- ==== Sys2Proof/Machine/State.lean ====
section
/-! DEFINITION. The state of IRDEC (10_state.md), its reset value (R270), and why a step can stop. The
fields below the line `the model's own` are not the spec's: log entries 1, 2 and 3. -/

namespace Sys2Proof.Machine

/-- STATE, the 3-bit decode state of R23; the eighth value is the reserved code 7, which no rule writes
and on which every edge aborts (R122). -/
inductive DecodeState where
  /-- 0, Waiting -/
  | wait
  /-- 1, LeaderAwaitingGap -/
  | lag
  /-- 2, LeaderEndedAwaitingData -/
  | lead
  /-- 3, DataMarkAwaitingSpace -/
  | dmas
  /-- 4, DataLongSpace -/
  | dls
  /-- 5, DataShortSpace -/
  | dss
  /-- 6, EndOfMessage -/
  | eom
  /-- 7, reserved -/
  | reserved7
  deriving DecidableEq, Repr

/-- Everything the spec gives IRDEC. -/
structure State where
  /-- STATE (R23) -/
  decodeState : DecodeState
  /-- LAST_TS (R25) -/
  lastTs : Word
  /-- ACC_BITS (R26) -/
  accBits : BitReg
  /-- ACC_COUNT (R26) -/
  accCount : Count
  /-- PUB_BITS (R28) -/
  pubBits : BitReg
  /-- PUB_COUNT (R28) -/
  pubCount : Count
  /-- ARM (R29) -/
  armed : Bool
  /-- BD_BUF (R30): the entries written since power-on, entry i at position i. Log entry 5. -/
  bdBuf : List Word
  /-- BD_LEN (R30) -/
  bdLen : Count
  /-- BD_OVF (R31) -/
  bdOvf : Bool
  /-- BD_BITS (R32) -/
  bdBits : BitReg
  /-- BD_COUNT (R32) -/
  bdCount : Count
  /-- BD_DROPS (R32) -/
  bdDrops : Count
  /-- the model's own: the instance's parameters (R7 to R13), which no step changes. Log entry 1. -/
  params : Params
  /-- the model's own: the read response port of format R (R81, R84). Log entry 2. -/
  rdata : Option Word
  /-- the model's own: what is yet to arrive at the two interfaces, in the event order (R57). Log entry 3. -/
  inbox : List Arrival
  deriving DecidableEq, Repr

/-- The reset state of an instance with the given parameters (R270). -/
def State.resetWith (p : Params) : State where
  decodeState := .wait
  lastTs := 0
  accBits := 0
  accCount := 0
  pubBits := 0
  pubCount := 0
  armed := false
  bdBuf := []
  bdLen := 0
  bdOvf := false
  bdBits := 0
  bdCount := 0
  bdDrops := 0
  params := p
  rdata := none
  inbox := []

/-- The machine right after power-on reset, with the default parameters (R270). -/
def State.reset : State := State.resetWith Params.default

/-- The faults of IRDEC: none. R240: no edge event and no host transaction raises an exception, faults,
stalls or leaves IRDEC unable to proceed. Without a constructor, no meaning can answer with a fault. -/
inductive Fault where
  deriving DecidableEq, Repr

/-- Why a step has no meaning. -/
inductive Refusal where
  /-- Raised by an arm of exec whose instruction has no meaning yet: none is left. SAFE. -/
  | notModelled (mnemonic : String)
  /-- Raised by `step` when a byte-addressed host makes an access that is no transaction of IRDEC
  (R51: "a model refuses it (no step) rather than give it a meaning"). SAFE. -/
  | access (why : AccessError)
  deriving DecidableEq, Repr

end Sys2Proof.Machine
end

