-- ==== Sys2Proof/Machine/Operands.lean ====
section
/-! DEFINITION. The operand forms: an edge's elapsed time (R111), the windows it is tested against (R14,
R130), and the words read from bit vectors and narrow fields (R18, R85). -/

namespace Sys2Proof.Machine

/-- e = (NOW − LAST_TS) mod 2^32, as an unsigned number (R111). -/
def elapsed (now lastTs : Word) : Nat := (now - lastTs).toNat

/-- 6000 < e < 12000 (R14, row 1). -/
def leaderMarkWindow (e : Nat) : Bool := 6000 < e && e < 12000

/-- 2500 < e < 7500 (R14, row 2). -/
def leaderGapWindow (e : Nat) : Bool := 2500 < e && e < 7500

/-- 200 < e < 800 (R14, rows 3, 6 and 8). -/
def dataMarkWindow (e : Nat) : Bool := 200 < e && e < 800

/-- 200 < e < 1000 (R14, row 4). -/
def shortSpaceWindow (e : Nat) : Bool := 200 < e && e < 1000

/-- 1000 ≤ e < 2000 (R14, row 5). -/
def longSpaceWindow (e : Nat) : Bool := 1000 ≤ e && e < 2000

/-- 800 ≤ e < 1800 (R14, rows 7 and 9). -/
def endMarkWindow (e : Nat) : Bool := 800 ≤ e && e < 1800

/-- A count register read zero-extended (R85). -/
def zextCount (c : Count) : Word := c.setWidth 32

/-- A one-bit register read zero-extended (R85). -/
def zextBit (b : Bool) : Word := (BitVec.ofBool b).setWidth 32

/-- Word k of a bit window over a vector of the given capacity: bits 32k+31 down to 32k, positions at or
above the capacity read 0 (R92, R97, R158, R194). -/
def windowWord (capacity : Nat) (bits : BitReg) (k : Nat) : Word :=
  if 32 * k < capacity then (bits.setWidth capacity).extractLsb' (32 * k) 32 else 0

/-- `v` with bit `n` set to `b` (R127). -/
def setBit (v : BitReg) (n : Nat) (b : Bool) : BitReg :=
  if b then v ||| BitVec.twoPow 2048 n else v &&& ~~~(BitVec.twoPow 2048 n)

/-- The number whose bit i is b(i). -/
def packNat : List Bool → Nat
  | [] => 0
  | b :: bs => (if b then 1 else 0) + 2 * packNat bs

/-- The packing of a Bitstring: bit i of the vector is b(i), and 0 from the length on (R18). -/
def pack (b : List Bool) : BitReg := BitVec.ofNat 2048 (packNat b)

end Sys2Proof.Machine
end

