-- ==== Sys2Proof/Machine/Flags.lean ====
section
/-! DEFINITION. The status flags of R33 and the words they are read in: STATUS (R88, R156), BD_STATUS (R95)
and the constant PARAMS (R91, R161). IRDEC has no arithmetic flags. -/

namespace Sys2Proof.Machine

/-- The STATE code of R23. -/
def DecodeState.code : DecodeState → BitVec 3
  | .wait => 0
  | .lag => 1
  | .lead => 2
  | .dmas => 3
  | .dls => 4
  | .dss => 5
  | .eom => 6
  | .reserved7 => 7

/-- STATUS.EOM: 1 exactly when STATE = 6 (R24, R88). -/
def State.eomFlag (s : State) : Bool := s.decodeState == .eom

/-- STATUS: [2:0] STATE, [3] EOM, [4] ARMED, the rest 0 (R88, R156). -/
def State.statusWord (s : State) : Word :=
  ((0#27 ++ BitVec.ofBool s.armed) ++ BitVec.ofBool s.eomFlag) ++ s.decodeState.code

/-- BD_STATUS: [0] OVF, the rest 0 (R95, R191). -/
def State.bdStatusWord (s : State) : Word := zextBit s.bdOvf

/-- PARAMS: [15:0] MAX_BITS, [31:16] MAX_PULSES when HAS_BATCH, else 0 (R91, R161). -/
def paramsWord (p : Params) : Word :=
  BitVec.ofNat 16 (if p.hasBatch then p.maxPulses else 0) ++ BitVec.ofNat 16 p.maxBits

end Sys2Proof.Machine
end

