-- ==== Sys2Proof/Machine/Ops.lean ====
section
/-! DEFINITION. The named operations over the state that the meanings share. IRDEC takes no exception and
returns from none (R246, R247): its local recovery from a malformed transmission is `abort`. -/

namespace Sys2Proof.Machine

/-- `RDATA <- v`: the answer of a read transaction (R84). No read writes anything else (R55). -/
def State.respond (s : State) (v : Word) : State := { s with rdata := some v }

/-- `x[ARM] <- b` (R151). -/
def State.setArm (s : State) (b : Bool) : State := { s with armed := b }

/-- `x[LAST_TS] <- now` (R111). -/
def State.setLastTs (s : State) (now : Word) : State := { s with lastTs := now }

/-- `x[STATE] <- q`. -/
def State.goto (s : State) (q : DecodeState) : State := { s with decodeState := q }

/-- `ClearAcc()`: the accumulator and its count become 0 (R26). -/
def State.clearAcc (s : State) : State := { s with accBits := 0, accCount := 0 }

/-- `Abort()` = `ClearAcc(); x[STATE] <- WAIT` (R122). -/
def State.abort (s : State) : State := s.clearAcc.goto .wait

/-- The accumulator takes bit `b` at index ACC_COUNT (R127). -/
def State.append (s : State) (b : Bool) : State :=
  { s with accBits := setBit s.accBits s.accCount.toNat b, accCount := s.accCount + 1 }

/-- The published slot takes a copy of the accumulator (R28, R127 case b). -/
def State.publish (s : State) : State :=
  { s with pubBits := s.accBits, pubCount := s.accCount }

/-- `AppendThen(b, next)` for next = DMAS (R127 case a, R128). -/
def State.appendThenMark (s : State) (b : Bool) : State :=
  if s.accCount.toNat = s.params.maxBits then s.abort else (s.append b).goto .dmas

/-- `AppendThen(b, next)` for next = EOM (R127 case b, R128). -/
def State.appendThenEnd (s : State) (b : Bool) : State :=
  if s.accCount.toNat = s.params.maxBits then s.abort else (s.append b).publish.goto .eom

/-- The effect of RESET_SESSION and of a CONSUME from EOM: WAIT with a clear accumulator (R154, R155,
R271). -/
def State.resetSession (s : State) : State := s.clearAcc.goto .wait

/-- BD_BUF with entry n set to v, the entries in between that nothing has written left undefined. The
first argument counts the entries passed. -/
def setEntryFrom : Nat → List Word → Nat → Word → List Word
  | _, _ :: ws, 0, v => v :: ws
  | i, w :: ws, n + 1, v => w :: setEntryFrom (i + 1) ws n v
  | _, [], 0, v => [v]
  | i, [], n + 1, v => Config.undefinedEntry i :: setEntryFrom (i + 1) [] n v

/-- `x[BD_BUF](n) <- v` (R180). -/
def setEntry (buf : List Word) (n : Nat) (v : Word) : List Word := setEntryFrom 0 buf n v

/-- `x[BD_BUF](i)`: an entry that nothing has written has no defined value (R30). -/
def entry (buf : List Word) (i : Nat) : Word := buf.getD i (Config.undefinedEntry i)

/-- `[x[BD_BUF](0), ..., x[BD_BUF](n-1)]`, as numbers (R30, R182). -/
def pulseTrain (buf : List Word) (n : Nat) : List Nat :=
  (List.range n).map (fun i => (entry buf i).toNat)

/-- `x[BD_BUF](x[BD_LEN]) <- v; x[BD_LEN] <- x[BD_LEN] + 1` (R180). -/
def State.pushEntry (s : State) (v : Word) : State :=
  { s with bdBuf := setEntry s.bdBuf s.bdLen.toNat v, bdLen := s.bdLen + 1 }

/-- `x[BD_OVF] <- 1`: a push found the buffer full (R180). -/
def State.overflow (s : State) : State := { s with bdOvf := true }

/-- The batch registers become 0; BD_BUF's entries become unobservable (R181). -/
def State.clearBatch (s : State) : State :=
  { s with bdLen := 0, bdOvf := false, bdBits := 0, bdCount := 0, bdDrops := 0 }

/-- The result registers take a result (R182). -/
def State.setResult (s : State) (bits : List Bool) (drops : Nat) : State :=
  { s with
    bdBits := pack bits
    bdCount := BitVec.ofNat 16 bits.length
    bdDrops := BitVec.ofNat 16 drops }

/-- The next input has been accepted: it is no longer to arrive, and the response port is free for the
answer of this event. -/
def State.accept (s : State) (rest : List Arrival) : State :=
  { s with inbox := rest, rdata := none }

/-- What is left of an arrival once its host transaction is taken: its edge, if it has one, is next
(R58). -/
def afterHost (edge : Option EWord) (rest : List Arrival) : List Arrival :=
  match edge with
  | none => rest
  | some w => ⟨none, some w⟩ :: rest

/-- The next event of the event order (R57). -/
inductive Event where
  /-- nothing arrives -/
  | idle
  | host (h : HostInput)
  | edge (w : EWord)
  deriving DecidableEq, Repr

/-- The next event and what remains to arrive after it. A host transaction that arrives together with an
edge comes first (R58). -/
def nextEvent : List Arrival → Event × List Arrival
  | [] => (.idle, [])
  | ⟨none, none⟩ :: rest => (.idle, rest)
  | ⟨some h, e⟩ :: rest => (.host h, afterHost e rest)
  | ⟨none, some w⟩ :: rest => (.edge w, rest)

/-- The arrival that delivers one input word by itself. -/
def arrivalOf : InputWord → Arrival
  | .e w => ⟨none, some w⟩
  | .t w => ⟨some (.word w), none⟩

end Sys2Proof.Machine
end

