-- ==== Sys2Proof/Machine/BatchClassifier.lean ====
section
/-! DEFINITION. The batch classifier: `FromPulseTrain` (R185 to R188) and the operations around it
(43_batch_classifier.md). A pulse train is a list of naturals (R17); no length is negative (R197). -/

namespace Sys2Proof.Machine

/-- The result of `FromPulseTrain`; its count is the number of its bits (R188). -/
structure BatchResult where
  bits : List Bool
  drops : Nat
  deriving DecidableEq, Repr

/-- count = len(bits) (R188). -/
def BatchResult.count (r : BatchResult) : Nat := r.bits.length

/-- `Repair(L)` (R185): at most one repair, whose tests read the list as it was. -/
def repair (l : List Nat) : List Nat :=
  if 40 < l.length then
    if l.getD 0 0 < 1500 ∧ l.getD 1 0 < 1500 then 9000 :: 6000 :: l
    else if 5000 < l.getD 0 0 ∧ l.getD 0 0 < 7000 ∧ l.getD 1 0 < 1500 then 9000 :: l
    else l
  else l

/-- `HeaderOK(L')` (R186). -/
def headerOk (l : List Nat) : Bool :=
  2 ≤ l.length && (8000 < l.getD 0 0 && l.getD 0 0 < 10000) && (5000 < l.getD 1 0 && l.getD 1 0 < 7000)

/-- `Extract(R)` from position j on (R187): the gaps stand at the odd positions; a gap of 2000 or more is
dropped and counted; marks are not examined. -/
def extractFrom : Nat → List Nat → BatchResult
  | _, [] => ⟨[], 0⟩
  | j, g :: rest =>
    let r := extractFrom (j + 1) rest
    if j % 2 = 1 then
      if g < 900 then ⟨false :: r.bits, r.drops⟩
      else if g < 2000 then ⟨true :: r.bits, r.drops⟩
      else ⟨r.bits, r.drops + 1⟩
    else r

/-- `FromPulseTrain(L)` (R188). MalformedHeader is the result (0, [], 0). -/
def fromPulseTrain (l : List Nat) : BatchResult :=
  let l' := repair l
  if headerOk l' then extractFrom 0 (l'.drop 2) else ⟨[], 0⟩

/-- The pulse train the host has pushed (R30). -/
def State.train (s : State) : List Nat := pulseTrain s.bdBuf s.bdLen.toNat

/-- The result registers take FromPulseTrain of the pushed train (R182). -/
def State.runBatch (s : State) : State :=
  let r := fromPulseTrain s.train
  s.setResult r.bits r.drops

/-- BD_PUSH (R180): into a full buffer the value is discarded and OVF set. -/
def execBdPush (data : Word) (s : State) : Host.Outcome State Fault Refusal :=
  .next (if s.bdLen.toNat < s.params.maxPulses then s.pushEntry data else s.overflow)

/-- BD_CLEAR (R181). -/
def execBdClear (_data : Word) (s : State) : Host.Outcome State Fault Refusal := .next s.clearBatch

/-- BD_RUN (R182). -/
def execBdRun (_data : Word) (s : State) : Host.Outcome State Fault Refusal := .next s.runBatch

/-- BD_CLEAR_RUN (R183): BD_CLEAR, then BD_RUN, as one operation. -/
def execBdClearRun (_data : Word) (s : State) : Host.Outcome State Fault Refusal :=
  .next s.clearBatch.runBatch

/-- BD_CTRL_NOP (R184). -/
def execBdCtrlNop (_data : Word) (s : State) : Host.Outcome State Fault Refusal := .next s

/-- RD_BD_STATUS (R191). -/
def execRdBdStatus (s : State) : Host.Outcome State Fault Refusal := .next (s.respond s.bdStatusWord)

/-- RD_BD_LEN (R192). -/
def execRdBdLen (s : State) : Host.Outcome State Fault Refusal :=
  .next (s.respond (zextCount s.bdLen))

/-- RD_BD_COUNT (R193). -/
def execRdBdCount (s : State) : Host.Outcome State Fault Refusal :=
  .next (s.respond (zextCount s.bdCount))

/-- RD_BD_DROPS (R195). -/
def execRdBdDrops (s : State) : Host.Outcome State Fault Refusal :=
  .next (s.respond (zextCount s.bdDrops))

/-- RD_BD_BITS (R194). -/
def execRdBdBits (k : BitVec 6) (s : State) : Host.Outcome State Fault Refusal :=
  .next (s.respond (windowWord s.params.bdMaxBits s.bdBits k.toNat))

end Sys2Proof.Machine
end

