-- ==== Sys2Proof/Machine/EdgeDecoder.lean ====
section
/-! DEFINITION. EDGE and the streaming decoder's transition table (41_edge_decoder.md). -/

namespace Sys2Proof.Machine

/-- The ten rows of the transition table. -/
inductive TableRow where
  | row1 | row2 | row3 | row4 | row5 | row6 | row7 | row8 | row9 | row10
  deriving DecidableEq, Repr

/-- The row an armed edge takes in a state (R112, R129). LEVEL is tested by row 1 only (R123). -/
def edgeRow (q : DecodeState) (e : Nat) (level : Level) : TableRow :=
  if (q = .wait ∨ q = .eom) ∧ leaderMarkWindow e ∧ level = .high then .row1
  else if q = .lag ∧ leaderGapWindow e then .row2
  else if q = .lead ∧ dataMarkWindow e then .row3
  else if q = .dmas ∧ shortSpaceWindow e then .row4
  else if q = .dmas ∧ longSpaceWindow e then .row5
  else if q = .dls ∧ dataMarkWindow e then .row6
  else if q = .dls ∧ endMarkWindow e then .row7
  else if q = .dss ∧ dataMarkWindow e then .row8
  else if q = .dss ∧ endMarkWindow e then .row9
  else .row10

/-- The effect of a row (R113 to R122). -/
def applyRow (r : TableRow) (s : State) : State :=
  match r with
  | .row1 => s.clearAcc.goto .lag
  | .row2 => s.goto .lead
  | .row3 => s.goto .dmas
  | .row4 => s.goto .dss
  | .row5 => s.goto .dls
  | .row6 => s.appendThenMark true
  | .row7 => s.appendThenEnd true
  | .row8 => s.appendThenMark false
  | .row9 => s.appendThenEnd false
  | .row10 => s.abort

/-- `DecodeStep(e, lvl)` (R129). -/
def decodeStep (e : Nat) (level : Level) (s : State) : State :=
  applyRow (edgeRow s.decodeState e level) s

/-- EDGE (R110): a disarmed edge changes nothing; an armed one sets LAST_TS and takes one row. -/
def execEdge (now : Word) (level : Level) (s : State) : Host.Outcome State Fault Refusal :=
  if s.armed then .next (decodeStep (elapsed now s.lastTs) level (s.setLastTs now)) else .next s

end Sys2Proof.Machine
end

