-- ==== Sys2Proof/Machine/HostInterface.lean ====
section
/-! DEFINITION. The host register operations of the streaming decoder and the two catch-all operations
(42_host_interface.md). -/

namespace Sys2Proof.Machine

/-- RD_CTRL (R152). -/
def execRdCtrl (s : State) : Host.Outcome State Fault Refusal := .next (s.respond (zextBit s.armed))

/-- WR_CTRL (R151): ARM takes DATA[0]. -/
def execWrCtrl (data : Word) (s : State) : Host.Outcome State Fault Refusal :=
  .next (s.setArm (data.getLsbD 0))

/-- CMD_RESET_SESSION (R154), whatever the rest of DATA. -/
def execCmdResetSession (_data : Word) (s : State) : Host.Outcome State Fault Refusal :=
  .next s.resetSession

/-- CMD_CONSUME (R155): acts only in EndOfMessage. -/
def execCmdConsume (_data : Word) (s : State) : Host.Outcome State Fault Refusal :=
  .next (if s.decodeState = .eom then s.resetSession else s)

/-- CMD_NOP (R153). -/
def execCmdNop (_data : Word) (s : State) : Host.Outcome State Fault Refusal := .next s

/-- RD_STATUS (R156). -/
def execRdStatus (s : State) : Host.Outcome State Fault Refusal := .next (s.respond s.statusWord)

/-- RD_PUB_COUNT (R157). -/
def execRdPubCount (s : State) : Host.Outcome State Fault Refusal :=
  .next (s.respond (zextCount s.pubCount))

/-- RD_ACC_COUNT (R159). -/
def execRdAccCount (s : State) : Host.Outcome State Fault Refusal :=
  .next (s.respond (zextCount s.accCount))

/-- RD_LAST_TS (R160). -/
def execRdLastTs (s : State) : Host.Outcome State Fault Refusal := .next (s.respond s.lastTs)

/-- RD_PARAMS (R161). -/
def execRdParams (s : State) : Host.Outcome State Fault Refusal :=
  .next (s.respond (paramsWord s.params))

/-- RD_PUB_BITS (R158). -/
def execRdPubBits (k : BitVec 6) (s : State) : Host.Outcome State Fault Refusal :=
  .next (s.respond (windowWord s.params.maxBits s.pubBits k.toNat))

/-- RSV_RD (R162): a reserved offset or a write-only register reads 0. -/
def execRsvRd (_off : Offset) (s : State) : Host.Outcome State Fault Refusal := .next (s.respond 0)

/-- RSV_WR (R163): a write to a reserved offset or a read-only register is ignored. -/
def execRsvWr (_off : Offset) (_data : Word) (s : State) : Host.Outcome State Fault Refusal := .next s

end Sys2Proof.Machine
end

