-- ==== Sys2Proof/Machine/Dispatch.lean ====
section
/-! DEFINITION. One arm per operation of the opcode table, each a call of its meaning. -/

namespace Sys2Proof.Machine

def exec (i : Instr) (s : State) : Host.Outcome State Fault Refusal :=
  match i with
  | .edge now level => Sys2Proof.Machine.execEdge now level s
  | .rdCtrl => Sys2Proof.Machine.execRdCtrl s
  | .wrCtrl data => Sys2Proof.Machine.execWrCtrl data s
  | .cmdResetSession data => Sys2Proof.Machine.execCmdResetSession data s
  | .cmdConsume data => Sys2Proof.Machine.execCmdConsume data s
  | .cmdNop data => Sys2Proof.Machine.execCmdNop data s
  | .rdStatus => Sys2Proof.Machine.execRdStatus s
  | .rdPubCount => Sys2Proof.Machine.execRdPubCount s
  | .rdAccCount => Sys2Proof.Machine.execRdAccCount s
  | .rdLastTs => Sys2Proof.Machine.execRdLastTs s
  | .rdParams => Sys2Proof.Machine.execRdParams s
  | .rdPubBits k => Sys2Proof.Machine.execRdPubBits k s
  | .bdClear data => Sys2Proof.Machine.execBdClear data s
  | .bdRun data => Sys2Proof.Machine.execBdRun data s
  | .bdClearRun data => Sys2Proof.Machine.execBdClearRun data s
  | .bdCtrlNop data => Sys2Proof.Machine.execBdCtrlNop data s
  | .bdPush data => Sys2Proof.Machine.execBdPush data s
  | .rdBdStatus => Sys2Proof.Machine.execRdBdStatus s
  | .rdBdLen => Sys2Proof.Machine.execRdBdLen s
  | .rdBdCount => Sys2Proof.Machine.execRdBdCount s
  | .rdBdDrops => Sys2Proof.Machine.execRdBdDrops s
  | .rdBdBits k => Sys2Proof.Machine.execRdBdBits k s
  | .rsvRd off => Sys2Proof.Machine.execRsvRd off s
  | .rsvWr off data => Sys2Proof.Machine.execRsvWr off data s

end Sys2Proof.Machine
end

