-- ==== Sys2Proof/Machine/Step.lean ====
section
/-! DEFINITION. One step: the next event of the event order is applied whole (R53, R57). -/

namespace Sys2Proof.Machine

/-- One step. With nothing to arrive IRDEC waits; a byte-addressed access that is no transaction is
refused (R51). -/
def step (s : State) : Host.Outcome State Fault Refusal :=
  match nextEvent s.inbox with
  | (.idle, rest) => .next (s.accept rest)
  | (.edge w, rest) => exec (decodeE w) (s.accept rest)
  | (.host h, rest) =>
    match decodeHost Config.irdecBase s.params.hasBatch h with
    | .ok i => exec i (s.accept rest)
    | .error why => .refused (.access why)

/-- `s` with one input word, of `nbits` bits `w`, as the next thing to arrive. Log entry 3. -/
def State.withFetchWord (s : State) (nbits w : Nat) : State :=
  { s with inbox := arrivalOf (inputWordOf nbits w) :: s.inbox }

end Sys2Proof.Machine
end

