-- ==== Sys2Proof/Machine/ReferenceEncoder.lean ====
section
/-! DEFINITION. The reference encoder and the stimulus convention (44_reference_encoder.md): not hardware of
IRDEC (R5), but what the round-trip and determinism rules R131, R189 and R190 are stated through. -/

namespace Sys2Proof.Machine

/-- LEADER_MARK (R14, R210). -/
def leaderMark : Nat := 9500

/-- LEADER_GAP (R14, R210). -/
def leaderGap : Nat := 6000

/-- DATA_MARK (R14, R210). -/
def dataMark : Nat := 600

/-- SHORT_GAP (R14, R210). -/
def shortGap : Nat := 600

/-- LONG_GAP (R14, R210). -/
def longGap : Nat := 1200

/-- END_MARK (R14, R210). -/
def endMark : Nat := 1200

/-- The data mark and gap of every bit in order (R210). -/
def dataPulses : List Bool → List Nat
  | [] => []
  | b :: bs => dataMark :: (if b then longGap else shortGap) :: dataPulses bs

/-- `ToPulseTrain(b)` (R210). -/
def toPulseTrain (b : List Bool) : List Nat :=
  leaderMark :: leaderGap :: (dataPulses b ++ [endMark])

/-- The encoder's error: the index of a symbol that is neither 0 nor 1 (R211). -/
structure InvalidBitError where
  index : Nat
  deriving DecidableEq, Repr

/-- The bit a symbol stands for (R211). -/
def bitOf (c : Char) : Option Bool :=
  if c = '0' then some false else if c = '1' then some true else none

/-- The Bitstring of a sequence of symbols, the first of which stands at index i, or the first bad index
(R211). -/
def parseBits : Nat → List Char → Except InvalidBitError (List Bool)
  | _, [] => .ok []
  | i, c :: cs =>
    match bitOf c with
    | none => .error ⟨i⟩
    | some b => (parseBits (i + 1) cs).map (b :: ·)

/-- The encoder on untyped symbols: an error produces no train (R211). -/
def encodeSymbols (cs : List Char) : Except InvalidBitError (List Nat) :=
  (parseBits 0 cs).map toPulseTrain

/-- The total duration of a train, the time the transmitter blocks (R212). -/
def duration (train : List Nat) : Nat := train.sum

/-- The edges that end the pulses of a train, the first of which is pulse i and starts at time t: LEVEL is
1 after a mark (even i) and 0 after a gap (R213). -/
def feedFrom : Nat → Nat → List Nat → List Instr
  | _, _, [] => []
  | t, i, d :: ds =>
    .edge (BitVec.ofNat 32 (t + d)) (if i % 2 = 0 then .high else .low) :: feedFrom (t + d) (i + 1) ds

/-- `FEED t0, T` (R102, R213): len(T) + 1 edge events, the first the start of the first mark. -/
def feed (t0 : Nat) (train : List Nat) : List Instr :=
  .edge (BitVec.ofNat 32 t0) .low :: feedFrom t0 0 train

/-- Operations applied one after another, each with the response port free, each to the state the one
before it left (R57). -/
def runInstrs : List Instr → State → Host.Outcome State Fault Refusal
  | [], s => .next s
  | i :: is, s =>
    match exec i { s with rdata := none } with
    | .next t => runInstrs is t
    | .fault r => .fault r
    | .refused r => .refused r

end Sys2Proof.Machine
end

