-- ==== Sys2Proof/Machine/Exchange.lean ====
section
/-! DEFINITION. The host's reference procedures (45_exchange_reference.md): not hardware of IRDEC (R5), but
how its operations are used. The transmitter, the wall clock and the edges that arrive are external: they
are a script, plain data that a statement quantifies over (R220, R250). Log entry 10. -/

namespace Sys2Proof.Machine

/-- The state after one operation. No operation stops (R240), so the other outcomes do not arise. -/
def applyOp (i : Instr) (s : State) : State :=
  match exec i { s with rdata := none } with
  | .next t => t
  | .fault _ => s
  | .refused _ => s

/-- The state after a list of operations in order (R57). -/
def applyAll (is : List Instr) (s : State) : State := is.foldl (fun s i => applyOp i s) s

/-- Edges as operations. -/
def edgeOps (edges : List (Word × Level)) : List Instr := edges.map (fun p => .edge p.1 p.2)

/-- The state after edges that arrive in order (R57). -/
def State.afterEdges (s : State) (edges : List (Word × Level)) : State := applyAll (edgeOps edges) s

/-- DISARM = WR CTRL, 0 (R102). -/
def disarmOp : Instr := .wrCtrl 0

/-- ARM = WR CTRL, 1 (R102). -/
def armOp : Instr := .wrCtrl 1

/-- RESET_SESSION = WR CMD, 1 (R102). -/
def resetSessionOp : Instr := .cmdResetSession 1

/-- CONSUME = WR CMD, 2 (R102). -/
def consumeOp : Instr := .cmdConsume 2

/-- POLL = RD STATUS: the state after it and the EOM bit of the answer (R102, R88). -/
def poll (s : State) : State × Bool :=
  let t := applyOp .rdStatus s
  (t, (t.rdata.getD 0).getLsbD 3)

/-! ### The transmitter -/

/-- What the transmitter answers to one call (R220). -/
inductive TransmitAnswer where
  | success
  | failure
  deriving DecidableEq, Repr

/-- What the oracle does with one call: its answer, under no law, and the edges that arrive while the
receiver is disarmed for it, the transmission's own light among them (R220). -/
structure Transmission where
  echo : List (Word × Level)
  answer : TransmitAnswer
  deriving DecidableEq, Repr

/-- One call of the transmitter as the outside sees it: the pulse lengths handed over, in order, and the
answer (R220). -/
structure TransmitCall where
  pulses : List Nat
  answer : TransmitAnswer
  deriving DecidableEq, Repr

/-- `transmit(pulse_lengths)` (R220): it blocks until the signal is out; the edges that arrive meanwhile
reach IRDEC. -/
def transmit (pulses : List Nat) (x : Transmission) (s : State) : TransmitCall × State :=
  (⟨pulses, x.answer⟩, s.afterEdges x.echo)

/-! ### One attempt -/

/-- The parameters of the host procedures: TIMEOUT_MS and POLL_MS, in milliseconds (R221). -/
structure HostTiming where
  timeoutMs : Nat
  pollMs : Nat
  deriving DecidableEq, Repr

/-- The defaults of R221. -/
def HostTiming.default : HostTiming := ⟨Config.defaultTimeoutMs, Config.defaultPollMs⟩

/-- What happens around one poll: the edges that arrive before it, those that arrive after it and before
whatever the host does next (CONSUME, its return, its sleep: R57, R155, R164), and the milliseconds of wall
clock that pass up to the timeout test, the sleeps of POLL_MS apart. -/
structure PollSlot where
  before : List (Word × Level)
  after : List (Word × Level)
  delay : Nat
  deriving DecidableEq, Repr

/-- What happens around one attempt: the edges that arrive before its DISARM, the transmission, and the polls
after ARM. -/
structure AttemptScript where
  before : List (Word × Level)
  transmission : Transmission
  polls : List PollSlot
  deriving DecidableEq, Repr

/-- Step 4 of R221, `clock` milliseconds after t_start: poll; on EOM, CONSUME and report true; else at the
timeout report false; else sleep POLL_MS and poll again. `none` when the script ends before the loop does. -/
def awaitReply (time : HostTiming) : Nat → List PollSlot → State → Option (Bool × State)
  | _, [], _ => none
  | clock, slot :: rest, s =>
    let p := poll (s.afterEdges slot.before)
    let t := p.1.afterEdges slot.after
    if p.2 then some (true, applyOp consumeOp t)
    else if time.timeoutMs ≤ clock + slot.delay then some (false, t)
    else awaitReply time (clock + slot.delay + time.pollMs) rest t

/-- How an attempt ends (R221, R223). To the caller of send_and_await all but the first are one `false`
(N11). -/
inductive AttemptOutcome where
  /-- EndOfMessage was seen and consumed -/
  | replied
  /-- the train could not be constructed (R211) -/
  | invalidMessage (e : InvalidBitError)
  /-- TransmissionFailure: the transmitter answered failure -/
  | transmissionFailure
  /-- ReceiveTimeout -/
  | receiveTimeout
  deriving DecidableEq, Repr

/-- What one attempt did: how it ended, the transmitter calls it made, the state it leaves. -/
structure AttemptResult where
  outcome : AttemptOutcome
  calls : List TransmitCall
  state : State
  deriving DecidableEq, Repr

/-- Steps 1 to 4 of R221, whole for every attempt (R222). -/
def attempt (time : HostTiming) (message : List Char) (a : AttemptScript) (s : State) :
    Option AttemptResult :=
  let s1 := applyAll [disarmOp, resetSessionOp] (s.afterEdges a.before)
  match encodeSymbols message with
  | .error e => some ⟨.invalidMessage e, [], s1⟩
  | .ok train =>
    let c := transmit train a.transmission s1
    match c.1.answer with
    | .failure => some ⟨.transmissionFailure, [c.1], c.2⟩
    | .success =>
      (awaitReply time 0 a.polls (applyOp armOp c.2)).map
        (fun p => ⟨if p.1 then .replied else .receiveTimeout, [c.1], p.2⟩)

/-! ### The procedures -/

/-- What `send_and_await` did: how its last attempt ended, every transmitter call it made, in order, the
state it leaves, and the script it has not used. -/
structure SendResult where
  outcome : AttemptOutcome
  calls : List TransmitCall
  state : State
  rest : List AttemptScript
  deriving DecidableEq, Repr

/-- What `send_and_await` reports (R221, R223). -/
def SendResult.ok (r : SendResult) : Bool := r.outcome = .replied

/-- A result with the calls of an earlier attempt before its own. -/
def SendResult.precededBy (calls : List TransmitCall) (r : SendResult) : SendResult :=
  { r with calls := calls ++ r.calls }

/-- `send_and_await(message, retries)` (R221): at most retries + 1 attempts, of which only one that times
out is followed by another (R223). `none` when the script ends first. -/
def sendAndAwait (time : HostTiming) (message : List Char) :
    Nat → List AttemptScript → State → Option SendResult
  | _, [], _ => none
  | retries, a :: rest, s =>
    match attempt time message a s with
    | none => none
    | some r =>
      if r.outcome = .receiveTimeout then
        match retries with
        | 0 => some ⟨r.outcome, r.calls, r.state, rest⟩
        | n + 1 => (sendAndAwait time message n rest r.state).map (SendResult.precededBy r.calls)
      else some ⟨r.outcome, r.calls, r.state, rest⟩

/-- What `perform_exchange` did: what it reports, the transmitter calls of each step it began, and the state
it leaves. -/
structure ExchangeResult where
  ok : Bool
  calls : List (List TransmitCall)
  state : State
  deriving DecidableEq, Repr

/-- The steps of `perform_exchange`, the first of those given with its number of retries (R224). -/
def exchangeSteps (time : HostTiming) :
    Nat → List (List Char) → List AttemptScript → State → Option ExchangeResult
  | _, [], _, s => some ⟨true, [], s⟩
  | retries, m :: ms, script, s =>
    match sendAndAwait time m retries script s with
    | none => none
    | some r =>
      if r.ok then
        (exchangeSteps time 1 ms r.rest r.state).map (fun q => { q with calls := r.calls :: q.calls })
      else some ⟨false, [r.calls], r.state⟩

/-- `perform_exchange(messages)` (R224): DISARM once, then every message in order, with 2 retries for the
first and 1 for the others, up to the first that fails. -/
def performExchange (time : HostTiming) (messages : List (List Char)) (script : List AttemptScript)
    (s : State) : Option ExchangeResult :=
  exchangeSteps time 2 messages script (applyOp disarmOp s)

/-- `transmit_only(pulses)` (R225): DISARM, transmit(pulses), ARM. The call and the transmitter's answer are
what the outside sees; the procedure itself reports nothing (N11, log entry 17). -/
def transmitOnly (pulses : List Nat) (x : Transmission) (s : State) : TransmitCall × State :=
  let c := transmit pulses x (applyOp disarmOp s)
  (c.1, applyOp armOp c.2)

end Sys2Proof.Machine
end

