-- ==== Sys2Proof/Machine/RegisterMap.lean ====
section
/-! DEFINITION. The host's view by word offset: `RegRead(off)` and `RegWrite(off, v)` of R16, written from
the register map R86 and its field rules R87 to R98, beside the operations of the opcode table. -/

namespace Sys2Proof.Machine

/-- `RegRead(off)` (R16): the contents column of R86; a write-only or reserved offset reads 0 (R98, R99),
and so does a batch offset without the batch unit (R104). -/
def State.regRead (s : State) (off : Offset) : Word :=
  let o := off.toNat
  if o = 0x00 then zextBit s.armed
  else if o = 0x02 then s.statusWord
  else if o = 0x03 then zextCount s.pubCount
  else if o = 0x04 then zextCount s.accCount
  else if o = 0x05 then s.lastTs
  else if o = 0x06 then paramsWord s.params
  else if 0x40 ≤ o ∧ o ≤ 0x7F then windowWord s.params.maxBits s.pubBits (o - 0x40)
  else if s.params.hasBatch = false then 0
  else if o = 0x12 then s.bdStatusWord
  else if o = 0x13 then zextCount s.bdLen
  else if o = 0x14 then zextCount s.bdCount
  else if o = 0x15 then zextCount s.bdDrops
  else if 0x80 ≤ o ∧ o ≤ 0xBF then windowWord s.params.bdMaxBits s.bdBits (o - 0x80)
  else 0

/-- A write to CMD by its two command bits: RESET_SESSION wins over CONSUME (R89). -/
def State.writeCmd (s : State) (v : Word) : State :=
  if v.getLsbD 0 then s.resetSession
  else if v.getLsbD 1 ∧ s.decodeState = .eom then s.resetSession
  else s

/-- A write to BD_CTRL by its two command bits: CLEAR, then RUN (R93). -/
def State.writeBdCtrl (s : State) (v : Word) : State :=
  let s1 := if v.getLsbD 0 then s.clearBatch else s
  if v.getLsbD 1 then s1.runBatch else s1

/-- A write to BD_PUSH (R94). -/
def State.writeBdPush (s : State) (v : Word) : State :=
  if s.bdLen.toNat < s.params.maxPulses then s.pushEntry v else s.overflow

/-- `RegWrite(off, v)` (R16): a write to a read-only or reserved offset is ignored (R98, R99, R104). -/
def State.regWrite (s : State) (off : Offset) (v : Word) : State :=
  let o := off.toNat
  if o = 0x00 then s.setArm (v.getLsbD 0)
  else if o = 0x01 then s.writeCmd v
  else if s.params.hasBatch = false then s
  else if o = 0x10 then s.writeBdCtrl v
  else if o = 0x11 then s.writeBdPush v
  else s

end Sys2Proof.Machine
end

