-- ==== Sys2Proof/Safety.lean ====
section
/-! DEFINITION. The terms claims are stated in: the invariants of 10_state.md, the views of the state that
the isolation rules speak of, and the transition table's conditions as R113 to R122 and R130 write them. -/

namespace Sys2Proof.Machine

/-- The invariants the spec's rules keep: R9 and R11 (ranges of the parameters), R23 (code 7 is never
held), R26 (accumulator), R28 (published slot), R30 (pulse buffer), R32 and R187 (batch result), and what
R113, R122 and R127 make of the accumulator in Waiting, in the leader and in EndOfMessage. -/
structure State.Inv (s : State) : Prop where
  params_valid : s.params.Valid
  state_named : s.decodeState ≠ .reserved7
  acc_bounded : s.accCount.toNat ≤ s.params.maxBits
  acc_packed : s.accBits.toNat < 2 ^ s.accCount.toNat
  acc_clear : s.decodeState = .wait ∨ s.decodeState = .lag ∨ s.decodeState = .lead → s.accCount = 0
  pub_bounded : s.pubCount.toNat ≤ s.params.maxBits
  pub_packed : s.pubBits.toNat < 2 ^ s.pubCount.toNat
  eom_published : s.decodeState = .eom →
    s.pubBits = s.accBits ∧ s.pubCount = s.accCount ∧ s.pubCount ≠ 0
  len_bounded : s.bdLen.toNat ≤ s.params.maxPulses
  len_written : s.bdLen.toNat ≤ s.bdBuf.length
  buf_bounded : s.bdBuf.length ≤ s.params.maxPulses
  result_bounded : s.bdCount.toNat + s.bdDrops.toNat ≤ s.params.bdMaxBits
  result_packed : s.bdBits.toNat < 2 ^ s.bdCount.toNat

/-- The batch registers hold their reset values. -/
def State.batchClear (s : State) : Prop :=
  s.bdBuf = [] ∧ s.bdLen = 0 ∧ s.bdOvf = false ∧ s.bdBits = 0 ∧ s.bdCount = 0 ∧ s.bdDrops = 0

/-- Without the batch classifier nothing writes its registers (R12, R104). -/
def State.NoBatchInv (s : State) : Prop := s.params.hasBatch = false → s.batchClear

/-- The session of R22. -/
structure Session where
  decodeState : DecodeState
  lastTs : Word
  accBits : BitReg
  accCount : Count
  deriving DecidableEq, Repr

/-- The session a state holds (R22). -/
def State.session (s : State) : Session := ⟨s.decodeState, s.lastTs, s.accBits, s.accCount⟩

/-- The state as the streaming decoder sees it: the batch registers replaced by those of `u`. Two states
agree on everything but the batch unit when they become equal so (R198). -/
def State.withBatchOf (s u : State) : State :=
  { s with
    bdBuf := u.bdBuf, bdLen := u.bdLen, bdOvf := u.bdOvf, bdBits := u.bdBits, bdCount := u.bdCount,
    bdDrops := u.bdDrops }

/-- An operation of the batch unit (R86: offsets 0x10 to 0x15 and 0x80 to 0xBF). -/
def isBatchOp : Instr → Bool
  | .bdClear _ => true
  | .bdRun _ => true
  | .bdClearRun _ => true
  | .bdCtrlNop _ => true
  | .bdPush _ => true
  | .rdBdStatus => true
  | .rdBdLen => true
  | .rdBdCount => true
  | .rdBdDrops => true
  | .rdBdBits _ => true
  | .edge _ _ => false
  | .rdCtrl => false
  | .wrCtrl _ => false
  | .cmdResetSession _ => false
  | .cmdConsume _ => false
  | .cmdNop _ => false
  | .rdStatus => false
  | .rdPubCount => false
  | .rdAccCount => false
  | .rdLastTs => false
  | .rdParams => false
  | .rdPubBits _ => false
  | .rsvRd _ => false
  | .rsvWr _ _ => false

/-- A read transaction (R55, R84). -/
def isRead : Instr → Bool
  | .rdCtrl => true
  | .rdStatus => true
  | .rdPubCount => true
  | .rdAccCount => true
  | .rdLastTs => true
  | .rdParams => true
  | .rdPubBits _ => true
  | .rdBdStatus => true
  | .rdBdLen => true
  | .rdBdCount => true
  | .rdBdDrops => true
  | .rdBdBits _ => true
  | .rsvRd _ => true
  | .edge _ _ => false
  | .wrCtrl _ => false
  | .cmdResetSession _ => false
  | .cmdConsume _ => false
  | .cmdNop _ => false
  | .bdClear _ => false
  | .bdRun _ => false
  | .bdClearRun _ => false
  | .bdCtrlNop _ => false
  | .bdPush _ => false
  | .rsvWr _ _ => false

/-- A write that R55 calls idempotent (BD_RUN on an unchanged buffer). -/
def isIdempotentWrite : Instr → Bool
  | .wrCtrl _ => true
  | .cmdResetSession _ => true
  | .cmdConsume _ => true
  | .cmdNop _ => true
  | .bdClear _ => true
  | .bdCtrlNop _ => true
  | .bdRun _ => true
  | .edge _ _ => false
  | .rdCtrl => false
  | .rdStatus => false
  | .rdPubCount => false
  | .rdAccCount => false
  | .rdLastTs => false
  | .rdParams => false
  | .rdPubBits _ => false
  | .bdClearRun _ => false
  | .bdPush _ => false
  | .rdBdStatus => false
  | .rdBdLen => false
  | .rdBdCount => false
  | .rdBdDrops => false
  | .rdBdBits _ => false
  | .rsvRd _ => false
  | .rsvWr _ _ => false

/-- An edge event. -/
def isEdge : Instr → Bool
  | .edge _ _ => true
  | .rdCtrl => false
  | .wrCtrl _ => false
  | .cmdResetSession _ => false
  | .cmdConsume _ => false
  | .cmdNop _ => false
  | .rdStatus => false
  | .rdPubCount => false
  | .rdAccCount => false
  | .rdLastTs => false
  | .rdParams => false
  | .rdPubBits _ => false
  | .bdClear _ => false
  | .bdRun _ => false
  | .bdClearRun _ => false
  | .bdCtrlNop _ => false
  | .bdPush _ => false
  | .rdBdStatus => false
  | .rdBdLen => false
  | .rdBdCount => false
  | .rdBdDrops => false
  | .rdBdBits _ => false
  | .rsvRd _ => false
  | .rsvWr _ _ => false

/-- The next event is an edge, and the receiver is armed (R29, R110). -/
def State.armedEdgeNext (s : State) : Prop :=
  s.armed = true ∧ ∃ w rest, nextEvent s.inbox = (.edge w, rest)

/-- The next event is a host transaction that decodes to the operation. -/
def State.hostOpNext (s : State) (i : Instr) : Prop :=
  ∃ h rest, nextEvent s.inbox = (.host h, rest) ∧
    decodeHost Config.irdecBase s.params.hasBatch h = .ok i

/-- The condition of each row of the transition table, rows 1 to 9 as R113 to R121 write them and row 10
as the abort ranges of R130. -/
def rowHolds : TableRow → DecodeState → Nat → Level → Prop
  | .row1, q, e, l => (q = .wait ∨ q = .eom) ∧ 6000 < e ∧ e < 12000 ∧ l = .high
  | .row2, q, e, _ => q = .lag ∧ 2500 < e ∧ e < 7500
  | .row3, q, e, _ => q = .lead ∧ 200 < e ∧ e < 800
  | .row4, q, e, _ => q = .dmas ∧ 200 < e ∧ e < 1000
  | .row5, q, e, _ => q = .dmas ∧ 1000 ≤ e ∧ e < 2000
  | .row6, q, e, _ => q = .dls ∧ 200 < e ∧ e < 800
  | .row7, q, e, _ => q = .dls ∧ 800 ≤ e ∧ e < 1800
  | .row8, q, e, _ => q = .dss ∧ 200 < e ∧ e < 800
  | .row9, q, e, _ => q = .dss ∧ 800 ≤ e ∧ e < 1800
  | .row10, q, e, l =>
    match q with
    | .wait => l = .low ∨ e ≤ 6000 ∨ 12000 ≤ e
    | .eom => l = .low ∨ e ≤ 6000 ∨ 12000 ≤ e
    | .lag => e ≤ 2500 ∨ 7500 ≤ e
    | .lead => e ≤ 200 ∨ 800 ≤ e
    | .dmas => e ≤ 200 ∨ 2000 ≤ e
    | .dls => e ≤ 200 ∨ 1800 ≤ e
    | .dss => e ≤ 200 ∨ 1800 ≤ e
    | .reserved7 => True

/-- The gaps of a pulse list: its elements at odd positions (R187). -/
def gapsOf : List Nat → List Nat
  | [] => []
  | [_] => []
  | _ :: gap :: rest => gap :: gapsOf rest

/-- What gaps decode to (R187): below 900 a 0, below 2000 a 1, and one drop for each of the others. -/
def decodeGaps (gaps : List Nat) : BatchResult :=
  ⟨gaps.filterMap (fun g => if g < 900 then some false else if g < 2000 then some true else none),
    (gaps.filter (fun g => decide (2000 ≤ g))).length⟩

/-- The state after attempts that all time out, one after another; `none` if one of them does not (R221,
R223). -/
def silentAttempts (time : HostTiming) (message : List Char) : List AttemptScript → State → Option State
  | [], s => some s
  | a :: rest, s =>
    match attempt time message a s with
    | none => none
    | some r => if r.outcome = .receiveTimeout then silentAttempts time message rest r.state else none

/-- The polls go on long enough for the wall clock to reach the timeout by the sleeps alone (R221). -/
def outlastTimeout (time : HostTiming) (polls : List PollSlot) : Prop :=
  polls ≠ [] ∧ time.timeoutMs + time.pollMs ≤ polls.length * time.pollMs

/-- NOW of an edge whose elapsed time is `e`, for e < 2^32 (R111). -/
def State.nowAfter (s : State) (e : Nat) : Word := s.lastTs + BitVec.ofNat 32 e

/-- The state with the words of a list of operations as all that is yet to arrive, one at a time. -/
def State.withInputs (s : State) (is : List Instr) : State :=
  { s with inbox := is.map (fun i => arrivalOf (encode i)) }

/-- The state with nothing yet to arrive and no answer on the response port. -/
def State.quiet (s : State) : State := { s with inbox := [], rdata := none }

end Sys2Proof.Machine
end

