-- ==== Sys2Proof/Certificates/Slice0/Obligations.lean ====
section
/-! DEFINITION. The statements for the provers, from the numbered rules of spec/. -/

open Sys2Proof Sys2Proof.Machine

/-! ### The machine: events, decoding, the register map -/

/-- R57, R58, R100: a step applies the operation that the next input decodes to, to the state whose inbox no
longer holds that input and whose response port is free. What is left of an arrival whose host transaction
was taken is its edge. The inbox and the response port are the model's own (log entries 2 and 3). -/
def Obligations.StepRunsTheNextInput : Prop :=
  (∀ (s : State) (w : TWord) (e : Option EWord) (rest : List Arrival),
    s.inbox = ⟨some (.word w), e⟩ :: rest →
      (decodeT s.params.hasBatch w).wf s.params.hasBatch = true ∧
      step s = exec (decodeT s.params.hasBatch w)
        { s with inbox := (match e with | none => rest | some x => ⟨none, some x⟩ :: rest), rdata := none }) ∧
  (∀ (s : State) (w : EWord) (rest : List Arrival), s.inbox = ⟨none, some w⟩ :: rest →
    step s = exec (decodeE w) { s with inbox := rest, rdata := none }) ∧
  (∀ s : State, s.inbox = [] → step s = .next { s with rdata := none }) ∧
  (∀ (s : State) (rest : List Arrival), s.inbox = ⟨none, none⟩ :: rest →
    step s = .next { s with inbox := rest, rdata := none })

/-- R58: a host transaction that arrives together with an edge is applied first and the edge second; a
DISARM so suppresses the edge, and a RESET_SESSION is followed by the edge's step from WAIT. -/
def Obligations.HostTransactionPrecedesSimultaneousEdge : Prop :=
  ∀ (s : State) (hw : TWord) (ew : EWord) (rest : List Arrival),
    s.inbox = ⟨some (.word hw), some ew⟩ :: rest →
    (∃ t, exec (decodeT s.params.hasBatch hw) { s with inbox := ⟨none, some ew⟩ :: rest, rdata := none } = .next t ∧
      step s = .next t ∧ step t = exec (decodeE ew) { t with inbox := rest, rdata := none }) ∧
    (∀ d : Word, decodeT s.params.hasBatch hw = .wrCtrl d → d.getLsbD 0 = false →
      Sys2Proof.core.run 2 s = .next { s with armed := false, inbox := rest, rdata := none }) ∧
    (∀ d : Word, decodeT s.params.hasBatch hw = .cmdResetSession d →
      Sys2Proof.core.run 2 s =
        exec (decodeE ew)
          { s with decodeState := .wait, accBits := 0, accCount := 0, inbox := rest, rdata := none })

/-- R57: inputs are applied one at a time, in order, each to the state the one before it left, whatever
their number; the words are those the encoder writes. -/
def Obligations.InputsApplyInOrder : Prop :=
  ∀ (is : List Instr) (s : State), (∀ i ∈ is, i.wf s.params.hasBatch = true) →
    Sys2Proof.core.run is.length (s.withInputs is) = runInstrs is { s with inbox := [] }

/-- Words of the spec's decoding vectors (30_encoding.md R81, R100) and the operations they stand for. The
widths passed are the model's containers of the formats (log entry 9). -/
def Obligations.SpecWordsDecode : Prop :=
  decodeTableWord 40 0x10000E86C = some (.edge 59500 .high) ∧
  decodeTableWord 40 0x00000C350 = some (.edge 50000 .low) ∧
  decodeTableWord 48 0x10100000003 = some (.cmdResetSession 3) ∧
  decodeTableWord 48 0x101FFFFFFFE = some (.cmdConsume 0xFFFFFFFE) ∧
  decodeTableWord 48 0x1010000000C = some (.cmdNop 0xC) ∧
  decodeTableWord 48 0x110FFFFFFFF = some (.bdClearRun 0xFFFFFFFF) ∧
  decodeTableWord 48 0x07F00000000 = some (.rdPubBits 63) ∧
  decodeTableWord 48 0x0C000000000 = some (.rsvRd 0xC0) ∧
  decodeTableWord 48 0x11200000001 = some (.rsvWr 0x12 1) ∧
  decodeTableWord 48 0x002FFFFFFFF = some .rdStatus

/-- Decoding what the encoder writes gives the operation back, for every well-formed operation, with and
without the batch unit (R100, R104). -/
def Obligations.DecodeInvertsEncode : Prop :=
  ∀ (hasBatch : Bool) (i : Instr), i.wf hasBatch = true → decode hasBatch (encode i) = i

/-- Encoding what a word decodes to gives the word back; of a read word, with the DATA it ignores as 0
(R83). That an operation keeps no DATA of a read is the model's choice (log entry 16). -/
def Obligations.EncodeInvertsDecode : Prop :=
  (∀ (hasBatch : Bool) (w : TWord), tW w = true → encode (decodeT hasBatch w) = .t w) ∧
  (∀ (hasBatch : Bool) (w : TWord), tW w = false →
    encode (decodeT hasBatch w) = .t (tWord false (tOff w) 0)) ∧
  ∀ w : EWord, encode (decodeE w) = .e w

/-- Every word decodes to a well-formed operation (R100, R240). -/
def Obligations.DecodedOperationsAreWellFormed : Prop :=
  ∀ (hasBatch : Bool) (w : InputWord), (decode hasBatch w).wf hasBatch = true

/-- R100: no two rows of the table match one word; the row that matches selects the operation; and a word
that none matches is RSV_RD or RSV_WR by its W. -/
def Obligations.RowsOfTheTableAreDisjoint : Prop :=
  ∀ (hasBatch : Bool) (w : TWord),
    (∀ r ∈ tRows, ∀ r' ∈ tRows, r.selects hasBatch w = true → r'.selects hasBatch w = true →
      r.mnemonic = r'.mnemonic) ∧
    (∀ r ∈ tRows, r.selects hasBatch w = true → decodeT hasBatch w = r.build (tOff w) (tData w)) ∧
    ((∀ r ∈ tRows, r.selects hasBatch w = false) →
      decodeT hasBatch w = if tW w then .rsvWr (tOff w) (tData w) else .rsvRd (tOff w))

/-- R104: without the batch classifier a word at offset 0x10 to 0x15 or 0x80 to 0xBF is RSV_RD or RSV_WR,
and every other word decodes as it does with it. -/
def Obligations.BatchWordsAreReservedWithoutBatch : Prop :=
  ∀ (w : Bool) (off : Offset) (data : Word),
    ((0x10 ≤ off ∧ off ≤ 0x15) ∨ (0x80 ≤ off ∧ off ≤ 0xBF) →
      decodeT false (tWord w off data) = if w then .rsvWr off data else .rsvRd off) ∧
    (¬ ((0x10 ≤ off ∧ off ≤ 0x15) ∨ (0x80 ≤ off ∧ off ≤ 0xBF)) →
      decodeT false (tWord w off data) = decodeT true (tWord w off data))

/-- R84 with R86 to R99: a read word, whatever its DATA, answers the register map's value at its offset and
changes nothing else. The response port is the model's own (log entry 2). -/
def Obligations.ReadWordAnswersTheRegisterMap : Prop :=
  ∀ (s : State) (w : TWord) (e : Option EWord) (rest : List Arrival),
    s.inbox = ⟨some (.word w), e⟩ :: rest → tW w = false →
    step s = .next { s with inbox := afterHost e rest, rdata := some (s.regRead (tOff w)) }

/-- R86 to R99: a write word does to the state what the register map says of a write of its DATA at its
offset, and returns nothing. The inbox is the model's own (log entry 3). -/
def Obligations.WriteWordWritesTheRegisterMap : Prop :=
  ∀ (s : State) (w : TWord) (e : Option EWord) (rest : List Arrival),
    s.inbox = ⟨some (.word w), e⟩ :: rest → tW w = true →
    step s = .next { s.regWrite (tOff w) (tData w) with inbox := afterHost e rest, rdata := none }

/-- R55: a read leaves all state unchanged and, read again, gives the same value; the writes R55 calls
idempotent change nothing when repeated at once; BD_PUSH "appends each time", so below the last entry the
second push changes the state again. Of BD_CLEAR_RUN, which R55 names beside BD_PUSH, nothing is said here
(log entry 13). The spec marks its lists of writes as derived; the response port is the model's own (log
entry 2). -/
def Obligations.ReadsAndIdempotentWritesRepeat : Prop :=
  (∀ (i : Instr) (s : State), isRead i = true →
    ∃ v, exec i s = .next { s with rdata := some v } ∧
      exec i { s with rdata := some v } = .next { s with rdata := some v }) ∧
  (∀ (i : Instr) (s t : State), isIdempotentWrite i = true → exec i s = .next t → exec i t = .next t) ∧
  (∀ (data : Word) (s t : State), s.params.maxPulses ≤ 4096 → s.bdLen.toNat + 1 < s.params.maxPulses →
    exec (.bdPush data) s = .next t →
      ∃ u, exec (.bdPush data) t = .next u ∧ u ≠ t ∧ u.bdLen.toNat = t.bdLen.toNat + 1)

/-- R270: the state after power-on reset, for every choice of the parameters, and what the host then reads:
every readable register 0 but PARAMS; whatever BD_BUF holds cannot be observed. -/
def Obligations.ResetHoldsTheStatedValues : Prop :=
  ∀ p : Params,
    (State.resetWith p).armed = false ∧ (State.resetWith p).decodeState = .wait ∧
    (State.resetWith p).lastTs = 0 ∧ (State.resetWith p).accBits = 0 ∧ (State.resetWith p).accCount = 0 ∧
    (State.resetWith p).pubBits = 0 ∧ (State.resetWith p).pubCount = 0 ∧
    (State.resetWith p).bdLen = 0 ∧ (State.resetWith p).bdOvf = false ∧
    (State.resetWith p).bdBits = 0 ∧ (State.resetWith p).bdCount = 0 ∧ (State.resetWith p).bdDrops = 0 ∧
    ∀ (off : Offset) (buf : List Word),
      (off ≠ 0x06 → ({ State.resetWith p with bdBuf := buf } : State).regRead off = 0) ∧
      ({ State.resetWith p with bdBuf := buf } : State).train = []

/-- The invariants of 10_state.md hold after reset, whatever valid parameters the instance has; State.reset
is that of the default parameters, the model's choice (log entry 1), and PARAMS reads 0x01030080 in it. -/
def Obligations.InvariantHoldsAtReset : Prop :=
  (∀ p : Params, p.Valid → (State.resetWith p).Inv ∧ (State.resetWith p).NoBatchInv) ∧
  State.reset = State.resetWith ⟨128, 259, true⟩ ∧ State.reset.Inv ∧ State.reset.regRead 0x06 = 0x01030080

/-- The invariants of 10_state.md (R23, R26, R28, R30, R32, and the accumulator in Waiting, the leader and
EndOfMessage) are kept by every step, whatever arrives. The spec marks most of them as derived ("Invariants
kept by every rule: ..."). -/
def Obligations.StepKeepsTheInvariant : Prop :=
  ∀ s t : State, s.Inv → step s = .next t → t.Inv

/-- R104: without the batch classifier its registers keep their reset values, and the parameters of an
instance never change. That the parameters are data of the state is the model's choice (log entry 1). -/
def Obligations.StepKeepsAbsentBatchUnitAtReset : Prop :=
  ∀ s t : State, step s = .next t → t.params = s.params ∧ (s.NoBatchInv → t.NoBatchInv)

/-- R240: every operation, and so every edge event and every host transaction, has an outcome; a step stops
exactly at a byte-addressed access that is no transaction (R51). The spec marks "No edge event and no host
transaction raises an exception" as derived; the refusals are log entries 6 and 15. -/
def Obligations.EveryInputHasAnOutcome : Prop :=
  (∀ (i : Instr) (s : State), ∃ t, exec i s = .next t) ∧
  (∀ s : State, (∃ t, step s = .next t) ∨
    ∃ h e rest why, s.inbox = ⟨some h, e⟩ :: rest ∧ transaction Config.irdecBase h = .error why ∧
      step s = .refused (.access why)) ∧
  (∀ (s : State) (h : HostInput) (e : Option EWord) (rest : List Arrival) (why : AccessError),
    s.inbox = ⟨some h, e⟩ :: rest → transaction Config.irdecBase h = .error why →
      step s = .refused (.access why))

/-- R51, R52: a byte-addressed host reaches word offset k at IRDEC_BASE + 4k; a 4-byte load answers the
register, a 4-byte store writes the word whose bits 7:0 are the byte at the lowest address. IRDEC_BASE is
opaque and addresses do not wrap: the model's choice (log entry 6). -/
def Obligations.WordAccessesReachTheRegisters : Prop :=
  ∀ (s : State) (k : Nat) (e : Option EWord) (rest : List Arrival), k < 256 →
    (s.inbox = ⟨some (.load (Config.irdecBase + 4 * k) 4), e⟩ :: rest →
      step s = .next { s with
        inbox := afterHost e rest, rdata := some (s.regRead (BitVec.ofNat 8 k)) }) ∧
    (∀ b0 b1 b2 b3 : Byte,
      s.inbox = ⟨some (.store (Config.irdecBase + 4 * k) [b0, b1, b2, b3]), e⟩ :: rest →
      step s = .next { s.regWrite (BitVec.ofNat 8 k)
          (BitVec.ofNat 32 (b0.toNat + 2 ^ 8 * b1.toNat + 2 ^ 16 * b2.toNat + 2 ^ 24 * b3.toNat)) with
        inbox := afterHost e rest, rdata := none })

/-- R51: an access that is not 4 bytes wide, or not at IRDEC_BASE + 4k for a word offset k of the 256, is
refused. That an aligned access outside the window is refused too, and that a refusal is an outcome of step,
is the model's choice (log entries 6 and 15). -/
def Obligations.OtherAccessesAreRefused : Prop :=
  (∀ (s : State) (addr size : Nat) (e : Option EWord) (rest : List Arrival),
    s.inbox = ⟨some (.load addr size), e⟩ :: rest →
    size ≠ 4 ∨ (∀ k < 256, addr ≠ Config.irdecBase + 4 * k) → ∃ why, step s = .refused (.access why)) ∧
  (∀ (s : State) (addr : Nat) (bytes : List Byte) (e : Option EWord) (rest : List Arrival),
    s.inbox = ⟨some (.store addr bytes), e⟩ :: rest →
    bytes.length ≠ 4 ∨ (∀ k < 256, addr ≠ Config.irdecBase + 4 * k) → ∃ why, step s = .refused (.access why))

/-- R52: message bit i is bit i mod 8 of byte IRDEC_BASE + 4·(0x40 + i div 32) + (i mod 32) div 8. The spec
marks the formula ("so on a little-endian host message bit i is bit i mod 8 of byte ...") as derived. -/
def Obligations.MessageBitsInByteOrder : Prop :=
  ∀ (s : State) (i : Nat), s.params.maxBits ≤ 2046 → i < s.params.maxBits →
    ((leBytes (s.regRead (BitVec.ofNat 8 (0x40 + i / 32)))).getD (i % 32 / 8) 0).getLsbD (i % 8) =
      s.pubBits.getLsbD i

/-! ### Edge events and the streaming decoder -/

/-- R110, R111: with ARM = 0 an edge changes nothing; with ARM = 1 it sets LAST_TS to NOW and applies
DecodeStep for e = (NOW − LAST_TS) mod 2^32 and LEVEL. -/
def Obligations.EdgeIsLostOrTakesOneDecodeStep : Prop :=
  ∀ (s : State) (now : Word) (level : Level),
    (s.armed = false → exec (.edge now level) s = .next s) ∧
    (s.armed = true → exec (.edge now level) s =
      .next (decodeStep ((now.toNat + 2 ^ 32 - s.lastTs.toNat) % 2 ^ 32) level { s with lastTs := now }))

/-- R113 to R117 (rows 1 to 5) with R111: what an armed edge e microseconds after LAST_TS does in Waiting,
in EndOfMessage, in the leader and after a data mark; elsewhere nothing changes. -/
def Obligations.LeaderAndSpaceRows : Prop :=
  ∀ (s : State) (e : Nat) (level : Level), s.armed = true → e < 2 ^ 32 →
    ((s.decodeState = .wait ∨ s.decodeState = .eom) →
      exec (.edge (s.nowAfter e) level) s = .next
        (if 6000 < e ∧ e < 12000 ∧ level = .high
          then { s with lastTs := s.nowAfter e, accBits := 0, accCount := 0, decodeState := .lag }
          else { s with lastTs := s.nowAfter e, accBits := 0, accCount := 0, decodeState := .wait })) ∧
    (s.decodeState = .lag →
      exec (.edge (s.nowAfter e) level) s = .next
        (if 2500 < e ∧ e < 7500
          then { s with lastTs := s.nowAfter e, decodeState := .lead }
          else { s with lastTs := s.nowAfter e, accBits := 0, accCount := 0, decodeState := .wait })) ∧
    (s.decodeState = .lead →
      exec (.edge (s.nowAfter e) level) s = .next
        (if 200 < e ∧ e < 800
          then { s with lastTs := s.nowAfter e, decodeState := .dmas }
          else { s with lastTs := s.nowAfter e, accBits := 0, accCount := 0, decodeState := .wait })) ∧
    (s.decodeState = .dmas →
      exec (.edge (s.nowAfter e) level) s = .next
        (if 200 < e ∧ e < 1000 then { s with lastTs := s.nowAfter e, decodeState := .dss }
          else if 1000 ≤ e ∧ e < 2000 then { s with lastTs := s.nowAfter e, decodeState := .dls }
          else { s with lastTs := s.nowAfter e, accBits := 0, accCount := 0, decodeState := .wait }))

/-- R118 to R121 (rows 6 to 9): an armed edge after a data space, long for b = 1 and short for b = 0. A data
mark appends b at index ACC_COUNT, an end mark appends it and publishes the whole accumulated bitstring;
out of window, or with a full accumulator (R128), the edge aborts. -/
def Obligations.DataSpaceRows : Prop :=
  ∀ (s : State) (e : Nat) (level : Level) (b : Bool), s.armed = true → e < 2 ^ 32 →
    s.decodeState = (if b then .dls else .dss) →
    ∃ acc : BitReg,
      (∀ i < 2048, acc.getLsbD i = if i = s.accCount.toNat then b else s.accBits.getLsbD i) ∧
      exec (.edge (s.nowAfter e) level) s = .next
        (if e ≤ 200 ∨ 1800 ≤ e ∨ s.accCount.toNat = s.params.maxBits
          then { s with lastTs := s.nowAfter e, accBits := 0, accCount := 0, decodeState := .wait }
          else if e < 800
          then { s with
            lastTs := s.nowAfter e, accBits := acc, accCount := s.accCount + 1, decodeState := .dmas }
          else { s with
            lastTs := s.nowAfter e, accBits := acc, accCount := s.accCount + 1, pubBits := acc,
            pubCount := s.accCount + 1, decodeState := .eom })

/-- R122 with the abort ranges of R130: an armed edge that fits no window of its state clears the
accumulator and goes to WAIT; the published slot is not touched. The spec marks the table of abort ranges
("Windows per state") as derived. -/
def Obligations.OtherEdgesAbort : Prop :=
  ∀ (s : State) (e : Nat) (level : Level), s.armed = true → e < 2 ^ 32 →
    rowHolds .row10 s.decodeState e level →
    exec (.edge (s.nowAfter e) level) s =
      .next { s with lastTs := s.nowAfter e, accBits := 0, accCount := 0, decodeState := .wait }

/-- R112, R130: for every state, elapsed time and level exactly one row's condition holds, and it is the row
the decoder takes. The spec marks "One transition per edge" and "Windows per state" as derived. -/
def Obligations.OneRowForEveryEdge : Prop :=
  ∀ (q : DecodeState) (e : Nat) (level : Level) (r : TableRow),
    rowHolds r q e level ↔ r = edgeRow q e level

/-- R123: LEVEL is read only in WAIT and EOM. Of its rule only "LEVEL is tested only by row 1" is stated
here. -/
def Obligations.LevelIsReadOnlyForTheLeader : Prop :=
  ∀ (s : State) (now : Word), s.decodeState ≠ .wait → s.decodeState ≠ .eom →
    exec (.edge now .high) s = exec (.edge now .low) s

/-- R125, as far as R114 and R130 bear it out (log entry 8): a leader mark that arrives inside a message
aborts it and does not start a new leader; the leader gap that follows aborts again. The spec marks "No
resynchronisation inside a message" as derived. -/
def Obligations.LeaderInsideMessageIsLost : Prop :=
  ∀ (s : State) (e g : Nat), s.armed = true →
    (s.decodeState = .lag ∧ 7500 ≤ e) ∨ s.decodeState = .lead ∨ s.decodeState = .dmas ∨
      s.decodeState = .dls ∨ s.decodeState = .dss →
    6000 < e → e < 12000 → 2500 < g → g < 7500 →
    runInstrs [.edge (s.nowAfter e) .high, .edge (s.nowAfter (e + g)) .low] s =
      .next { s with
        lastTs := s.nowAfter (e + g), accBits := 0, accCount := 0, decodeState := .wait, rdata := none }

/-- R24: a step leaves EndOfMessage exactly when it is an edge while armed, a RESET_SESSION or a CONSUME.
The spec marks "STATE = 6 holds from the edge that publishes a message until ..." as derived. -/
def Obligations.EndOfMessageLastsUntil : Prop :=
  ∀ s t : State, step s = .next t → s.decodeState = .eom →
    (t.decodeState ≠ .eom ↔
      s.armedEdgeNext ∨ (∃ d, s.hostOpNext (.cmdResetSession d)) ∨ ∃ d, s.hostOpNext (.cmdConsume d))

/-- R28, R63 (c), R126: PUB_BITS and PUB_COUNT change only at a publishing edge: armed, from a data space,
with an elapsed time in the end mark window, into EndOfMessage, and they become the accumulator. The spec
marks "PUB_BITS and PUB_COUNT change only at a publishing edge" as derived. -/
def Obligations.PublishedSlotChangesOnlyAtPublish : Prop :=
  ∀ s t : State, step s = .next t → ¬ (t.pubBits = s.pubBits ∧ t.pubCount = s.pubCount) →
    ∃ w rest, nextEvent s.inbox = (.edge w, rest) ∧ s.armed = true ∧
      (s.decodeState = .dls ∨ s.decodeState = .dss) ∧ t.decodeState = .eom ∧
      800 ≤ (t.lastTs - s.lastTs).toNat ∧ (t.lastTs - s.lastTs).toNat < 1800 ∧
      t.pubBits = t.accBits ∧ t.pubCount = t.accCount ∧ t.accCount = s.accCount + 1

/-- R22, R25, R29, R30, R31, R32, R165: who writes what. The session changes only at an armed edge,
RESET_SESSION or CONSUME; LAST_TS only at an armed edge; ARM only at WR_CTRL; BD_BUF only at BD_PUSH; BD_LEN
also at BD_CLEAR; BD_OVF is set only by BD_PUSH and cleared only by BD_CLEAR; the result registers change
only at BD_RUN and BD_CLEAR. BD_CLEAR_RUN counts as both of its operations. The spec marks "Apart from
RESET_SESSION and CONSUME, no host operation writes any session element" as derived. -/
def Obligations.RegistersChangeOnlyByTheirWriters : Prop :=
  ∀ s t : State, step s = .next t →
    (t.session ≠ s.session →
      s.armedEdgeNext ∨ (∃ d, s.hostOpNext (.cmdResetSession d)) ∨ ∃ d, s.hostOpNext (.cmdConsume d)) ∧
    (t.lastTs ≠ s.lastTs → s.armedEdgeNext) ∧
    (t.armed ≠ s.armed → ∃ d, s.hostOpNext (.wrCtrl d)) ∧
    (t.bdBuf ≠ s.bdBuf → ∃ d, s.hostOpNext (.bdPush d)) ∧
    (t.bdLen ≠ s.bdLen →
      (∃ d, s.hostOpNext (.bdPush d)) ∨ (∃ d, s.hostOpNext (.bdClear d)) ∨ ∃ d, s.hostOpNext (.bdClearRun d)) ∧
    (s.bdOvf = false → t.bdOvf = true → ∃ d, s.hostOpNext (.bdPush d)) ∧
    (s.bdOvf = true → t.bdOvf = false →
      (∃ d, s.hostOpNext (.bdClear d)) ∨ ∃ d, s.hostOpNext (.bdClearRun d)) ∧
    (¬ (t.bdBits = s.bdBits ∧ t.bdCount = s.bdCount ∧ t.bdDrops = s.bdDrops) →
      (∃ d, s.hostOpNext (.bdRun d)) ∨ (∃ d, s.hostOpNext (.bdClear d)) ∨ ∃ d, s.hostOpNext (.bdClearRun d))

/-- R59, R243: from a disarmed state, and while no WR_CTRL arms it, the edges among any operations make no
difference: without them the same state results. The spec marks "The only ordering point the host has is
DISARM" as derived; the response port is left out (log entry 2). -/
def Obligations.DisarmedWindowIgnoresEdges : Prop :=
  ∀ (is : List Instr) (s : State), s.armed = false →
    (∀ d : Word, Instr.wrCtrl d ∈ is → d.getLsbD 0 = false) →
    ∃ t u, runInstrs is s = .next t ∧ runInstrs (is.filter (fun i => !isEdge i)) s = .next u ∧
      { t with rdata := none } = { u with rdata := none }

/-- R198: an edge or a host operation of the streaming decoder neither reads nor writes batch state; a
batch operation neither reads nor writes anything but batch state, the parameters and the response
port. -/
def Obligations.BatchUnitIsIndependent : Prop :=
  (∀ (i : Instr) (s u t : State), isBatchOp i = false → exec i s = .next t →
    exec i (s.withBatchOf u) = .next (t.withBatchOf u) ∧ t.withBatchOf s = t) ∧
  (∀ (i : Instr) (s u t : State), isBatchOp i = true → s.params = u.params → exec i s = .next t →
    exec i { u.withBatchOf s with rdata := s.rdata } = .next { u.withBatchOf t with rdata := t.rdata } ∧
    { s.withBatchOf t with rdata := t.rdata } = t)

/-! ### Host register operations -/

/-- R151: WR_CTRL writes ARM from DATA[0] and nothing else. -/
def Obligations.WrCtrlWritesArm : Prop :=
  (∀ (hasBatch : Bool) (data : Word), decodeT hasBatch (tWord true 0x00 data) = .wrCtrl data) ∧
  ∀ (data : Word) (s : State), exec (.wrCtrl data) s = .next { s with armed := data.getLsbD 0 }

/-- R153, R154, R155: the commands, selected by DATA[1:0] at offset 0x01; DATA[31:2] is ignored. -/
def Obligations.CommandsActOnTheSession : Prop :=
  (∀ (hasBatch : Bool) (data : Word), decodeT hasBatch (tWord true 0x01 data) =
    if data.getLsbD 0 then .cmdResetSession data
    else if data.getLsbD 1 then .cmdConsume data else .cmdNop data) ∧
  ∀ (data : Word) (s : State),
    exec (.cmdNop data) s = .next s ∧
    exec (.cmdResetSession data) s =
      .next { s with decodeState := .wait, accBits := 0, accCount := 0 } ∧
    (s.decodeState = .eom →
      exec (.cmdConsume data) s =
        .next { s with decodeState := .wait, accBits := 0, accCount := 0 }) ∧
    (s.decodeState ≠ .eom → exec (.cmdConsume data) s = .next s)

/-- R152, R156, R157, R159, R160, R161: the snapshot reads, at offsets 0x00 and 0x02 to 0x06. -/
def Obligations.SnapshotReadsAnswer : Prop :=
  (∀ (hasBatch : Bool) (data : Word),
    decodeT hasBatch (tWord false 0x00 data) = .rdCtrl ∧
    decodeT hasBatch (tWord false 0x02 data) = .rdStatus ∧
    decodeT hasBatch (tWord false 0x03 data) = .rdPubCount ∧
    decodeT hasBatch (tWord false 0x04 data) = .rdAccCount ∧
    decodeT hasBatch (tWord false 0x05 data) = .rdLastTs ∧
    decodeT hasBatch (tWord false 0x06 data) = .rdParams) ∧
  ∀ s : State,
    exec .rdCtrl s = .next { s with rdata := some (if s.armed then 1 else 0) } ∧
    exec .rdStatus s = .next { s with rdata := some (BitVec.ofNat 32
      ((if s.armed then 16 else 0) + (if s.decodeState = .eom then 8 else 0) + s.decodeState.code.toNat)) } ∧
    exec .rdPubCount s = .next { s with rdata := some (BitVec.ofNat 32 s.pubCount.toNat) } ∧
    exec .rdAccCount s = .next { s with rdata := some (BitVec.ofNat 32 s.accCount.toNat) } ∧
    exec .rdLastTs s = .next { s with rdata := some s.lastTs } ∧
    (s.params.Valid → exec .rdParams s = .next { s with rdata := some (BitVec.ofNat 32
      ((if s.params.hasBatch then s.params.maxPulses else 0) * 2 ^ 16 + s.params.maxBits)) })

/-- R158, R194 (with R92, R97): word k of a bit window answers bits 32k+31 down to 32k of its vector;
places at or above the capacity, and (in a state that meets the invariants) at or above the count, read
0. -/
def Obligations.WindowReadsAnswerTheirBits : Prop :=
  ∀ (k : BitVec 6) (s : State),
    (∀ (hasBatch : Bool) (data : Word),
      decodeT hasBatch (tWord false (BitVec.ofNat 8 (0x40 + k.toNat)) data) = .rdPubBits k) ∧
    (∀ data : Word, decodeT true (tWord false (BitVec.ofNat 8 (0x80 + k.toNat)) data) = .rdBdBits k) ∧
    (∃ v : Word, exec (.rdPubBits k) s = .next { s with rdata := some v } ∧
      ∀ j < 32, v.getLsbD j =
        (decide (32 * k.toNat + j < s.params.maxBits) && s.pubBits.getLsbD (32 * k.toNat + j)) ∧
        (s.Inv → s.pubCount.toNat ≤ 32 * k.toNat + j → v.getLsbD j = false)) ∧
    (∃ v : Word, exec (.rdBdBits k) s = .next { s with rdata := some v } ∧
      ∀ j < 32, v.getLsbD j =
        (decide (32 * k.toNat + j < s.params.maxPulses / 2) && s.bdBits.getLsbD (32 * k.toNat + j)) ∧
        (s.Inv → s.bdCount.toNat ≤ 32 * k.toNat + j → v.getLsbD j = false))

/-- R162, R163: a read of an offset without a read row answers 0, a write of one without a write row is
ignored. -/
def Obligations.ReservedAccessesDoNothing : Prop :=
  (∀ (hasBatch : Bool) (off : Offset) (data : Word),
    (definedRead hasBatch off = false → decodeT hasBatch (tWord false off data) = .rsvRd off) ∧
    (definedWrite hasBatch off = false → decodeT hasBatch (tWord true off data) = .rsvWr off data)) ∧
  ∀ (off : Offset) (data : Word) (s : State),
    exec (.rsvRd off) s = .next { s with rdata := some 0 } ∧ exec (.rsvWr off data) s = .next s

/-! ### The batch classifier -/

/-- R180: a push below MAX_PULSES writes the entry at BD_LEN and counts it; a push into a full buffer
discards the value and sets BD_OVF, which stays set until a BD_CLEAR (by itself or as the first part of a
BD_CLEAR_RUN, R183). -/
def Obligations.BdPushAppendsOrOverflows : Prop :=
  (∀ data : Word, decodeT true (tWord true 0x11 data) = .bdPush data) ∧
  (∀ (data : Word) (s : State),
    (s.bdLen.toNat < s.params.maxPulses →
      exec (.bdPush data) s =
        .next { s with bdBuf := setEntry s.bdBuf s.bdLen.toNat data, bdLen := s.bdLen + 1 }) ∧
    (s.params.maxPulses ≤ s.bdLen.toNat → exec (.bdPush data) s = .next { s with bdOvf := true })) ∧
  (∀ (i : Instr) (s t : State), exec i s = .next t → s.bdOvf = true →
    (t.bdOvf = false ↔ (∃ d, i = .bdClear d) ∨ ∃ d, i = .bdClearRun d))

/-- R30, R180: after a push below MAX_PULSES the train is the old train with the value after it. That BD_BUF
is the list of the entries written is the model's choice (log entry 5). -/
def Obligations.PushExtendsTheTrain : Prop :=
  ∀ (data : Word) (s : State), s.params.maxPulses ≤ 4096 → s.bdLen.toNat < s.params.maxPulses →
    ∃ t, exec (.bdPush data) s = .next t ∧ t.train = s.train ++ [data.toNat] ∧
      t.bdLen.toNat = s.bdLen.toNat + 1 ∧
      ∀ n, n ≠ s.bdLen.toNat → entry t.bdBuf n = entry s.bdBuf n

/-- R181, R184: BD_CLEAR clears the batch registers and nothing else; BD_CTRL_NOP changes nothing. -/
def Obligations.BdClearAndNop : Prop :=
  (∀ data : Word, data.getLsbD 1 = false → decodeT true (tWord true 0x10 data) =
    if data.getLsbD 0 then .bdClear data else .bdCtrlNop data) ∧
  ∀ (data : Word) (s : State),
    exec (.bdClear data) s =
      .next { s with bdLen := 0, bdOvf := false, bdBits := 0, bdCount := 0, bdDrops := 0 } ∧
    exec (.bdCtrlNop data) s = .next s

/-- R182, R186, R188: BD_RUN puts FromPulseTrain of the pushed train into the result registers and keeps
the buffer; a malformed header gives (0, [], 0). -/
def Obligations.BdRunStoresTheResult : Prop :=
  (∀ data : Word, data.getLsbD 1 = true → data.getLsbD 0 = false →
    decodeT true (tWord true 0x10 data) = .bdRun data) ∧
  ∀ (data : Word) (s : State),
    exec (.bdRun data) s =
      .next { s with
        bdBits := pack (fromPulseTrain s.train).bits
        bdCount := BitVec.ofNat 16 (fromPulseTrain s.train).bits.length
        bdDrops := BitVec.ofNat 16 (fromPulseTrain s.train).drops } ∧
    (headerOk (repair s.train) = false →
      exec (.bdRun data) s = .next { s with bdBits := 0, bdCount := 0, bdDrops := 0 })

/-- R183: BD_CLEAR_RUN is BD_CLEAR and then BD_RUN, and leaves the state BD_CLEAR leaves. The spec marks
"the final state equals that of BD_CLEAR" as derived. -/
def Obligations.BdClearRunEqualsBdClear : Prop :=
  (∀ data : Word, data.getLsbD 1 = true → data.getLsbD 0 = true →
    decodeT true (tWord true 0x10 data) = .bdClearRun data) ∧
  ∀ (data : Word) (s : State),
    exec (.bdClearRun data) s =
      .next { s with bdLen := 0, bdOvf := false, bdBits := 0, bdCount := 0, bdDrops := 0 } ∧
    exec (.bdClearRun data) s = exec (.bdClear data) s ∧
    ∃ t, exec (.bdClear 1) s = .next t ∧ exec (.bdClearRun data) s = exec (.bdRun 2) t

/-- R191, R192, R193, R195: the reads of the batch registers, at offsets 0x12 to 0x15. -/
def Obligations.BatchReadsAnswer : Prop :=
  (∀ data : Word,
    decodeT true (tWord false 0x12 data) = .rdBdStatus ∧
    decodeT true (tWord false 0x13 data) = .rdBdLen ∧
    decodeT true (tWord false 0x14 data) = .rdBdCount ∧
    decodeT true (tWord false 0x15 data) = .rdBdDrops) ∧
  ∀ s : State,
    exec .rdBdStatus s = .next { s with rdata := some (if s.bdOvf then 1 else 0) } ∧
    exec .rdBdLen s = .next { s with rdata := some (BitVec.ofNat 32 s.bdLen.toNat) } ∧
    exec .rdBdCount s = .next { s with rdata := some (BitVec.ofNat 32 s.bdCount.toNat) } ∧
    exec .rdBdDrops s = .next { s with rdata := some (BitVec.ofNat 32 s.bdDrops.toNat) }

/-- R185 to R188 over every train: one of more than 40 pulses is repaired when its first two are below 1500,
or the first is in 5001 to 6999 and the second below 1500; the gaps after the header then decode by position
(below 900 bit 0, below 2000 bit 1, else dropped and counted), and marks and a last odd pulse are not
examined; a train whose header is malformed, or that has none, gives (0, [], 0). -/
def Obligations.GapsDecodeByPosition : Prop :=
  (∀ (l0 l1 : Nat) (rest : List Nat),
    fromPulseTrain (l0 :: l1 :: rest) =
      if 40 < (l0 :: l1 :: rest).length ∧ l0 < 1500 ∧ l1 < 1500 then decodeGaps (gapsOf (l0 :: l1 :: rest))
      else if 40 < (l0 :: l1 :: rest).length ∧ 5000 < l0 ∧ l0 < 7000 ∧ l1 < 1500 then
        decodeGaps (gapsOf (l1 :: rest))
      else if 8000 < l0 ∧ l0 < 10000 ∧ 5000 < l1 ∧ l1 < 7000 then decodeGaps (gapsOf rest)
      else ⟨[], 0⟩) ∧
  ∀ l : List Nat, l.length < 2 → fromPulseTrain l = ⟨[], 0⟩

/-- R187: bits and dropped gaps together are at most half of the train's length, so no result exceeds
BD_MAX_BITS. The spec marks "The number of bits is at most floor(len(R) / 2)" as derived. -/
def Obligations.ResultIsAtMostHalfTheTrain : Prop :=
  ∀ l : List Nat, (fromPulseTrain l).bits.length + (fromPulseTrain l).drops ≤ l.length / 2

/-- R189: FromPulseTrain(ToPulseTrain(b)) = (len(b), b) with 0 drops, for every Bitstring. The spec marks
the round trip for every length ("The function itself has no length limit") as derived. -/
def Obligations.EncoderRoundTrip : Prop :=
  ∀ b : List Bool, fromPulseTrain (toPulseTrain b) = ⟨b, 0⟩ ∧
    (fromPulseTrain (toPulseTrain b)).count = b.length

/-- R190: a train of 20 bits or more without its leader, or without its leader mark, is repaired and decodes
exactly; one of 19 bits or fewer without its leader gives (0, []). The spec marks both lengths ("Truncation
repair") as derived. -/
def Obligations.TruncatedTrainIsRepaired : Prop :=
  ∀ b : List Bool,
    (20 ≤ b.length →
      fromPulseTrain ((toPulseTrain b).drop 2) = ⟨b, 0⟩ ∧
      fromPulseTrain ((toPulseTrain b).drop 1) = ⟨b, 0⟩) ∧
    (b.length ≤ 19 → fromPulseTrain ((toPulseTrain b).drop 2) = ⟨[], 0⟩)

/-- R189 through the registers: BD_CLEAR, one BD_PUSH for every pulse of ToPulseTrain(b), BD_RUN, as words
on the interface, leave b in the result registers and the streaming decoder as it was, whenever the train
fits the buffer. The spec marks "through the register interface the train must fit the buffer" as derived.
-/
def Obligations.RegistersDecodeThePushedMessage : Prop :=
  ∀ (s : State) (b : List Bool), s.params.hasBatch = true → s.params.maxPulses ≤ 4096 →
    2 * b.length + 3 ≤ s.params.maxPulses →
    ∃ t, Sys2Proof.core.run (2 * b.length + 5) (s.withInputs
        ([.bdClear 1] ++ (toPulseTrain b).map (fun d => .bdPush (BitVec.ofNat 32 d)) ++ [.bdRun 2])) = .next t ∧
      t.bdBits = pack b ∧ t.bdCount.toNat = b.length ∧ t.bdDrops = 0 ∧
      t.bdLen.toNat = 2 * b.length + 3 ∧ t.bdOvf = false ∧ t.withBatchOf s = s.quiet

/-! ### Whole messages -/

/-- R131 (with R213 and R278): fed, as words on the edge interface, the pulse train of any message of 1 to
MAX_BITS bits from any time t0 and whatever LAST_TS holds, an armed decoder in WAIT or EOM reaches EOM with
the message published; nothing else changes. The spec marks "IRDEC reaches EOM with PUB_BITS = b and
PUB_COUNT = len(b)" as derived. -/
def Obligations.FedMessageIsPublished : Prop :=
  ∀ (s : State) (b : List Bool) (t0 : Nat), s.params.Valid → s.armed = true →
    s.decodeState = .wait ∨ s.decodeState = .eom → 1 ≤ b.length → b.length ≤ s.params.maxBits →
    Sys2Proof.core.run (2 * b.length + 4) (s.withInputs (feed t0 (toPulseTrain b))) =
      .next { s with
        decodeState := .eom, lastTs := BitVec.ofNat 32 (t0 + duration (toPulseTrain b)),
        accBits := pack b, accCount := BitVec.ofNat 16 b.length,
        pubBits := pack b, pubCount := BitVec.ofNat 16 b.length, inbox := [], rdata := none }

/-- R128: a message of more than MAX_BITS bits is rejected: fed the same way it ends in WAIT with an empty
accumulator and the published slot as it was. That the rest of the train then aborts from WAIT is what the
spec's vector L2.3 says. -/
def Obligations.OverlongMessageIsRejected : Prop :=
  ∀ (s : State) (b : List Bool) (t0 : Nat), s.params.Valid → s.armed = true →
    s.decodeState = .wait ∨ s.decodeState = .eom → s.params.maxBits < b.length →
    Sys2Proof.core.run (2 * b.length + 4) (s.withInputs (feed t0 (toPulseTrain b))) =
      .next { s with
        decodeState := .wait, lastTs := BitVec.ofNat 32 (t0 + duration (toPulseTrain b)),
        accBits := 0, accCount := 0, inbox := [], rdata := none }

/-! ### The reference procedures -/

/-- R212: the length and the duration of an encoded message. The spec marks "Size and duration" as derived.
-/
def Obligations.TrainLengthAndDuration : Prop :=
  ∀ b : List Bool, (toPulseTrain b).length = 2 * b.length + 3 ∧
    duration (toPulseTrain b) = 16700 + 1200 * b.count false + 1800 * b.count true

/-- R211: the encoder rejects exactly the inputs with a symbol other than 0 and 1 and reports the index of
the first; other inputs give the train of their bits. That the symbols are characters, and that the index
reported is that of the first bad one, is read from the rule by inference (log entry 19). -/
def Obligations.InvalidSymbolIsReported : Prop :=
  (∀ b : List Bool, encodeSymbols (b.map (fun x => if x then '1' else '0')) = .ok (toPulseTrain b)) ∧
  ∀ (cs : List Char) (i : Nat), encodeSymbols cs = .error ⟨i⟩ ↔
    (∃ c, cs[i]? = some c ∧ c ≠ '0' ∧ c ≠ '1') ∧ ∀ j < i, cs[j]? = some '0' ∨ cs[j]? = some '1'

/-- R221, R223: send_and_await calls the transmitter at most retries + 1 times, always with the encoded
message; every call but the last one succeeds, so none follows a failure, which is reported as false. After
at most retries attempts that time out, a failing call ends it; retries + 1 such attempts end it too; a
message the encoder rejects is never transmitted. The environment as a script is the model's choice (log
entry 10). -/
def Obligations.SendTransmitsAtMostRetriesPlusOne : Prop :=
  ∀ (time : HostTiming) (retries : Nat) (message : List Char) (s : State),
    (∀ (script : List AttemptScript) (r : SendResult),
      sendAndAwait time message retries script s = some r →
        r.calls.length ≤ retries + 1 ∧ (∀ c ∈ r.calls, encodeSymbols message = .ok c.pulses) ∧
        (∀ c ∈ r.calls.dropLast, c.answer = .success) ∧
        ((∃ c ∈ r.calls, c.answer = .failure) → r.ok = false)) ∧
    (∀ (train : List Nat) (silent rest : List AttemptScript) (t : State),
      encodeSymbols message = .ok train → silentAttempts time message silent s = some t →
        (∀ a : AttemptScript, silent.length ≤ retries → a.transmission.answer = .failure →
          ∃ r, sendAndAwait time message retries (silent ++ a :: rest) s = some r ∧ r.ok = false ∧
            r.calls = List.replicate silent.length ⟨train, .success⟩ ++ [⟨train, .failure⟩]) ∧
        (silent.length = retries + 1 →
          ∃ r, sendAndAwait time message retries (silent ++ rest) s = some r ∧ r.ok = false ∧
            r.calls = List.replicate (retries + 1) ⟨train, .success⟩)) ∧
    (∀ (err : InvalidBitError) (a : AttemptScript) (rest : List AttemptScript),
      encodeSymbols message = .error err →
        ∃ r, sendAndAwait time message retries (a :: rest) s = some r ∧ r.ok = false ∧ r.calls = [])

/-- R221: the loop is bounded. When every attempt's polls go on until the sleeps alone reach the timeout,
send_and_await ends; and when in addition no edge arrives during the polls and the transmitter succeeds, it
reports false after retries + 1 calls. The environment as a script is the model's choice (log entry 10). -/
def Obligations.SendAlwaysEnds : Prop :=
  ∀ (time : HostTiming) (retries : Nat) (message : List Char) (script : List AttemptScript) (s : State),
    retries + 1 ≤ script.length → (∀ a ∈ script, outlastTimeout time a.polls) →
    (∃ r, sendAndAwait time message retries script s = some r) ∧
    (∀ train : List Nat, encodeSymbols message = .ok train →
      (∀ a ∈ script, a.transmission.answer = .success ∧
        ∀ slot ∈ a.polls, slot.before = [] ∧ slot.after = []) →
      ∃ r, sendAndAwait time message retries script s = some r ∧ r.ok = false ∧
        r.calls = List.replicate (retries + 1) ⟨train, .success⟩)

/-- R227, R275: since the receiver is disarmed while the transmitter works, the edges that arrive meanwhile
make no difference to what send_and_await reports, to the calls it makes or to the state it leaves. The spec
marks both rules as derived; the environment as a script is the model's choice (log entry 10). -/
def Obligations.EchoWhileTransmittingIsIgnored : Prop :=
  ∀ (time : HostTiming) (retries : Nat) (message : List Char) (script : List AttemptScript) (s : State),
    (sendAndAwait time message retries script s).map (fun r => (r.outcome, r.calls, r.state)) =
      (sendAndAwait time message retries
        (script.map (fun a => { a with transmission := { a.transmission with echo := [] } })) s).map
        (fun r => (r.outcome, r.calls, r.state))

/-- R222: an attempt begins by clearing the partial decode: what STATE, the accumulator and ARM are when it
begins makes no difference to anything it does or leaves. Nothing is said of LAST_TS, the rest of the session
(R22): it survives (R35, R271), and the first edge after ARM is measured from it (R111, R278). The edges that
arrive before the attempt begins count as the previous attempt's. The spec marks "no partial decode of one
attempt reaches the next" as derived; the environment as a script is the model's choice (log entry 10). -/
def Obligations.AttemptsAreIndependent : Prop :=
  ∀ (time : HostTiming) (message : List Char) (a : AttemptScript) (s : State),
    attempt time message a s = attempt time message { a with before := [] } (s.afterEdges a.before) ∧
    ∀ (q : DecodeState) (acc : BitReg) (count : Count) (armed : Bool), a.before = [] →
      attempt time message a { s with decodeState := q, accBits := acc, accCount := count, armed := armed } =
        attempt time message a s

/-- R225: transmit_only hands the pulses to the transmitter once and leaves the receiver armed with the
session as it was, whatever arrives meanwhile and whatever the transmitter answers, which it does not
report. The spec leaves open whether it does (log entry 17); the script is the model's (log entry 10). -/
def Obligations.TransmitOnlyOnlyArms : Prop :=
  ∀ (pulses : List Nat) (x : Transmission) (s : State),
    transmitOnly pulses x s = (⟨pulses, x.answer⟩, { s with armed := true, rdata := none })

/-- R221 with R131 and R164: after at most retries attempts that time out, and polls that see no edge while
the wall clock is below the timeout, a reply of 1 to MAX_BITS bits fed before the next poll makes
send_and_await succeed with no further transmission. The reply is consumed, if no edge falls between the
poll and CONSUME, and it stays in the published slot if at most four do. The environment as a script is the
model's choice (log entry 10). -/
def Obligations.ReplyCompletesSend : Prop :=
  ∀ (time : HostTiming) (retries : Nat) (message : List Char) (train : List Nat)
    (silent rest : List AttemptScript) (before echo reply late : List (Word × Level)) (delays : List Nat)
    (delay : Nat) (polls : List PollSlot) (s u : State) (b : List Bool) (t0 : Nat),
    s.params.Valid → encodeSymbols message = .ok train → 1 ≤ b.length → b.length ≤ s.params.maxBits →
    edgeOps reply = feed t0 (toPulseTrain b) →
    silentAttempts time message silent s = some u → silent.length ≤ retries →
    delays = [] ∨ delays.sum + delays.length * time.pollMs < time.timeoutMs + time.pollMs →
    ∃ t, sendAndAwait time message retries
        (silent ++ ⟨before, ⟨echo, .success⟩,
          delays.map (fun d => ⟨[], [], d⟩) ++ ⟨reply, late, delay⟩ :: polls⟩ :: rest) s =
        some ⟨.replied, List.replicate (silent.length + 1) ⟨train, .success⟩, t, rest⟩ ∧
      t.armed = true ∧ (late = [] → t.decodeState = .wait ∧ t.accCount = 0) ∧
      (late.length ≤ 4 → t.pubBits = pack b ∧ t.pubCount = BitVec.ofNat 16 b.length)

/-- R224: perform_exchange runs its messages in order up to the first whose send_and_await reports false, with
2 retries for the first and 1 for the others. It gives a result exactly when there are results `rs` of
send_and_await, each begun in the state and with the script that the one before it left, the first after one
DISARM: all but the last report true; the exchange reports true if all do and no message is left, and false
if the last one does. So the first step makes at most 3 calls of the transmitter and each other at most 2, all
of them with that step's message. An empty list reports true. The environment as a script is the model's
choice (log entry 10). -/
def Obligations.ExchangeRunsItsStepsInOrder : Prop :=
  ∀ (time : HostTiming) (script : List AttemptScript) (s : State),
    performExchange time [] script s = some ⟨true, [], { s with armed := false, rdata := none }⟩ ∧
    (∀ (messages : List (List Char)) (r : ExchangeResult),
      performExchange time messages script s = some r ↔
        ∃ rs : List SendResult,
          (∀ (i : Nat) (p q : SendResult),
            (⟨.replied, [], { s with armed := false, rdata := none }, script⟩ :: rs)[i]? = some p →
            rs[i]? = some q →
              (∃ m, messages[i]? = some m ∧
                sendAndAwait time m (if i = 0 then 2 else 1) p.rest p.state = some q) ∧
              (i + 1 < rs.length → q.ok = true)) ∧
          r.calls = rs.map (fun q => q.calls) ∧
          (rs.map (fun q => q.state)).getLastD { s with armed := false, rdata := none } = r.state ∧
          (r.ok = true → rs.length = messages.length ∧ ∀ q ∈ rs, q.ok = true) ∧
          (r.ok = false → ∃ q, rs.getLast? = some q ∧ q.ok = false)) ∧
    ∀ (messages : List (List Char)) (r : ExchangeResult),
      performExchange time messages script s = some r →
      (r.ok = true → r.calls.length = messages.length) ∧ (r.ok = false → 0 < r.calls.length) ∧
      r.calls.length ≤ messages.length ∧
      ∀ (i : Nat) (step : List TransmitCall), r.calls[i]? = some step →
        step.length ≤ (if i = 0 then 3 else 2) ∧
        (∀ c ∈ step, ∃ m, messages[i]? = some m ∧ encodeSymbols m = .ok c.pulses) ∧
        (i + 1 < r.calls.length ∨ r.ok = true → ∀ c ∈ step, c.answer = .success)

/-- R226: a two-message exchange whose first step times out once and is then answered, and whose second is
answered at once, succeeds with 2 and 1 transmissions; a three-message exchange whose second step is never
answered fails after 2 transmissions for it and none for the third. An attempt times out on any script on
which it ends so, whatever edges arrive in it; an answered one may have any edges before it, during its
transmission and after its first poll. The spec marks "Exchange counts" as derived; the environment as a
script is the model's choice (log entry 10). -/
def Obligations.ExchangeTransmissionCounts : Prop :=
  ∀ (time : HostTiming) (m1 m2 m3 : List Char) (train1 train2 : List Nat) (b1 b2 : List Bool) (t1 t2 : Nat)
    (before1 before2 echo1 echo2 reply1 reply2 late1 late2 : List (Word × Level)) (delay1 delay2 : Nat)
    (polls1 polls2 : List PollSlot) (rest : List AttemptScript) (s : State),
    s.params.Valid → encodeSymbols m1 = .ok train1 → encodeSymbols m2 = .ok train2 →
    1 ≤ b1.length → b1.length ≤ s.params.maxBits → 1 ≤ b2.length → b2.length ≤ s.params.maxBits →
    edgeOps reply1 = feed t1 (toPulseTrain b1) → edgeOps reply2 = feed t2 (toPulseTrain b2) →
    (∀ (silent : AttemptScript) (u : State),
      silentAttempts time m1 [silent] (applyOp disarmOp s) = some u →
      ∃ r, performExchange time [m1, m2]
          (silent :: ⟨before1, ⟨echo1, .success⟩, ⟨reply1, late1, delay1⟩ :: polls1⟩ ::
            ⟨before2, ⟨echo2, .success⟩, ⟨reply2, late2, delay2⟩ :: polls2⟩ :: rest) s = some r ∧
        r.ok = true ∧ r.calls = [[⟨train1, .success⟩, ⟨train1, .success⟩], [⟨train2, .success⟩]]) ∧
    ∃ q : AttemptResult,
      attempt time m1 ⟨before1, ⟨echo1, .success⟩, ⟨reply1, late1, delay1⟩ :: polls1⟩ (applyOp disarmOp s) =
        some q ∧ q.outcome = .replied ∧
      ∀ (silent silent' : AttemptScript) (u : State),
        silentAttempts time m2 [silent, silent'] q.state = some u →
        ∃ r, performExchange time [m1, m2, m3]
            (⟨before1, ⟨echo1, .success⟩, ⟨reply1, late1, delay1⟩ :: polls1⟩ :: silent :: silent' :: rest) s =
              some r ∧
          r.ok = false ∧ r.calls = [[⟨train1, .success⟩], [⟨train2, .success⟩, ⟨train2, .success⟩]]
end

