-- ==== Sys2Proof/Laws/Decode.lean ====
section
/-! SUPPORT. What the match and mask table of R100 says of a word written by its fields: `decodeT_tWord`
is the lemma to cite, `decodeFields` the form it gives decoding. -/

namespace Sys2Proof

theorem tWord_getLsbD (w : Bool) (off : Offset) (data : Word) (i : Nat) :
    (tWord w off data).getLsbD i =
      if i < 32 then data.getLsbD i
      else if i < 40 then off.getLsbD (i - 32) else (decide (i = 40) && w) := by
  have h : (tWord w off data).getLsbD i = ((BitVec.ofBool w ++ off) ++ data).getLsbD i := rfl
  rw [h, BitVec.getLsbD_append, BitVec.getLsbD_append]
  by_cases h1 : i < 32
  · simp [h1]
  · by_cases h2 : i - 32 < 8
    · have : i < 40 := by omega
      simp [h1, h2, this]
    · have : ¬ i < 40 := by omega
      simp [h1, h2, this]
      grind

@[simp] theorem tW_tWord (w : Bool) (off : Offset) (data : Word) : tW (tWord w off data) = w := by
  rw [tW, tWord_getLsbD]; rfl

@[simp] theorem tOff_tWord (w : Bool) (off : Offset) (data : Word) :
    tOff (tWord w off data) = off := by
  refine BitVec.eq_of_getLsbD_eq fun i hi => ?_
  have h1 : ¬ 32 + i < 32 := by omega
  have h2 : 32 + i < 40 := by omega
  simp [tOff, tWord_getLsbD, hi, h2]

@[simp] theorem tData_tWord (w : Bool) (off : Offset) (data : Word) :
    tData (tWord w off data) = data := by
  refine BitVec.eq_of_getLsbD_eq fun i hi => ?_
  simp [tData, tWord_getLsbD, hi]

/-- Every format T word is written by its fields. -/
theorem tWord_eta (w : TWord) : tWord (tW w) (tOff w) (tData w) = w := by
  refine BitVec.eq_of_getLsbD_eq fun i hi => ?_
  rw [tWord_getLsbD]
  split
  · simp [tData, *]
  · split
    · have h : i - 32 < 8 := by omega
      have h' : 32 + (i - 32) = i := by omega
      simp [tOff, h, h']
    · have : i = 40 := by omega
      simp [tW, this]

theorem eWord_getLsbD (level : Level) (now : Word) (i : Nat) :
    (eWord level now).getLsbD i =
      if i < 32 then now.getLsbD i else (decide (i = 32) && level.isHigh) := by
  have h : (eWord level now).getLsbD i = (BitVec.ofBool level.isHigh ++ now).getLsbD i := rfl
  rw [h, BitVec.getLsbD_append]
  split
  · rfl
  · simp only [BitVec.getLsbD_ofBool]
    grind

theorem level_ofBit_isHigh (level : Level) : Level.ofBit level.isHigh = level := by
  cases level <;> rfl

theorem level_isHigh_ofBit (b : Bool) : (Level.ofBit b).isHigh = b := by cases b <;> rfl

/-- Decoding a format E word by its fields. -/
@[simp] theorem decodeE_eWord (level : Level) (now : Word) :
    decodeE (eWord level now) = .edge now level := by
  have h1 : (eWord level now).extractLsb' 0 32 = now := by
    refine BitVec.eq_of_getLsbD_eq fun i hi => ?_
    simp [eWord_getLsbD, hi]
  have h2 : (eWord level now).getLsbD 32 = level.isHigh := by rw [eWord_getLsbD]; rfl
  rw [decodeE, h1, h2, level_ofBit_isHigh]

/-- A mask test falls apart into one on W and OFF and one on DATA. -/
theorem maskTest (w : Bool) (off : Offset) (data : Word) (mhi phi : BitVec 9) (mlo plo : Word) :
    (tWord w off data &&& (mhi ++ mlo : BitVec 41) == (phi ++ plo : BitVec 41)) =
      (((BitVec.ofBool w ++ off : BitVec 9) &&& mhi == phi) && (data &&& mlo == plo)) := by
  have h : tWord w off data &&& (mhi ++ mlo : BitVec 41) =
      (((BitVec.ofBool w ++ off : BitVec 9) &&& mhi) ++ (data &&& mlo) : BitVec 41) :=
    BitVec.and_append
  rw [h, Bool.eq_iff_iff]
  simp only [beq_iff_eq, Bool.and_eq_true]
  constructor
  · intro he
    constructor
    · refine BitVec.eq_of_getLsbD_eq fun i hi => ?_
      have := congrArg (fun v => BitVec.getLsbD v (32 + i)) he
      simp only [BitVec.getLsbD_append] at this
      simpa using this
    · refine BitVec.eq_of_getLsbD_eq fun i hi => ?_
      have := congrArg (fun v => BitVec.getLsbD v i) he
      simp only [BitVec.getLsbD_append] at this
      simpa [hi] using this
  · rintro ⟨h1, h2⟩
    rw [h1, h2]

/-- Decoding by W, OFF and the command bits DATA[1] and DATA[0]. -/
def decodeFields (hasBatch w : Bool) (off : Offset) (data : Word) : Instr :=
  if w then
    if off = 0x00 then .wrCtrl data
    else if off = 0x01 then
      if data.getLsbD 0 then .cmdResetSession data
      else if data.getLsbD 1 then .cmdConsume data else .cmdNop data
    else if hasBatch ∧ off = 0x10 then
      if data.getLsbD 1 then (if data.getLsbD 0 then .bdClearRun data else .bdRun data)
      else if data.getLsbD 0 then .bdClear data else .bdCtrlNop data
    else if hasBatch ∧ off = 0x11 then .bdPush data
    else .rsvWr off data
  else
    if off = 0x00 then .rdCtrl
    else if off = 0x02 then .rdStatus
    else if off = 0x03 then .rdPubCount
    else if off = 0x04 then .rdAccCount
    else if off = 0x05 then .rdLastTs
    else if off = 0x06 then .rdParams
    else if off.extractLsb' 6 2 = 0b01 then .rdPubBits (windowIndex off)
    else if hasBatch ∧ off = 0x12 then .rdBdStatus
    else if hasBatch ∧ off = 0x13 then .rdBdLen
    else if hasBatch ∧ off = 0x14 then .rdBdCount
    else if hasBatch ∧ off = 0x15 then .rdBdDrops
    else if hasBatch ∧ off.extractLsb' 6 2 = 0b10 then .rdBdBits (windowIndex off)
    else .rsvRd off

theorem mask_cmd (data : Word) (c : BitVec 2) :
    (data &&& 3 == c.setWidth 32) = (data.getLsbD 0 == c.getLsbD 0 && data.getLsbD 1 == c.getLsbD 1) := by
  rw [Bool.eq_iff_iff]
  simp only [beq_iff_eq, Bool.and_eq_true]
  constructor
  · intro h
    have h0 := congrArg (fun v => BitVec.getLsbD v 0) h
    have h1 := congrArg (fun v => BitVec.getLsbD v 1) h
    simp at h0 h1
    exact ⟨h0, h1⟩
  · rintro ⟨h0, h1⟩
    refine BitVec.eq_of_getLsbD_eq fun i hi => ?_
    have h3 : ∀ i < 32, (3#32).getLsbD i = decide (i < 2) := by decide
    rw [BitVec.getLsbD_and, BitVec.getLsbD_setWidth, show (3 : Word) = 3#32 from rfl, h3 i hi]
    by_cases h : i < 2
    · interval_cases i <;> simp_all
    · simp [h, BitVec.getLsbD_of_ge c i (by omega)]

theorem mask_bit0 (data : Word) : (data &&& 1 == 1) = data.getLsbD 0 := by
  rw [Bool.eq_iff_iff, beq_iff_eq]
  constructor
  · intro h
    simpa using congrArg (fun v => BitVec.getLsbD v 0) h
  · intro h0
    refine BitVec.eq_of_getLsbD_eq fun i hi => ?_
    have h1 : ∀ i < 32, (1#32).getLsbD i = decide (i = 0) := by decide
    rw [BitVec.getLsbD_and, show (1 : Word) = 1#32 from rfl, h1 i hi]
    by_cases h : i = 0 <;> simp_all

theorem ofBool_append_eq (w w' : Bool) (off off' : Offset) :
    ((BitVec.ofBool w ++ off : BitVec 9) == BitVec.ofBool w' ++ off') = (w == w' && off == off') := by
  rw [Bool.eq_iff_iff]
  simp only [beq_iff_eq, Bool.and_eq_true]
  constructor
  · intro h
    constructor
    · have := congrArg (fun v => BitVec.getLsbD v 8) h
      simp only [BitVec.getLsbD_append] at this
      simpa using this
    · refine BitVec.eq_of_getLsbD_eq fun i hi => ?_
      have := congrArg (fun v => BitVec.getLsbD v i) h
      simp only [BitVec.getLsbD_append] at this
      simpa [hi] using this
  · rintro ⟨rfl, rfl⟩
    rfl

/-- The mask that covers W and OFF. -/
theorem selects_offset (w W : Bool) (off o : Offset) (data : Word) :
    (tWord w off data &&& 0x1FF00000000 == tWord W o 0) = (w == W && off == o) := by
  have h := maskTest w off data 0x1FF (BitVec.ofBool W ++ o) 0 0
  have hm : ∀ v : BitVec 9, v &&& 0x1FF = v := fun v => BitVec.and_allOnes (x := v)
  have hz : (data &&& 0 == (0 : Word)) = true := by simp
  rw [hm, ofBool_append_eq, hz, Bool.and_true] at h
  exact h

/-- The mask that covers W, OFF and DATA[1:0]. -/
theorem selects_command (w W : Bool) (off o : Offset) (data : Word) (c : BitVec 2) :
    (tWord w off data &&& 0x1FF00000003 == tWord W o (c.setWidth 32)) =
      ((w == W && off == o) && (data.getLsbD 0 == c.getLsbD 0 && data.getLsbD 1 == c.getLsbD 1)) := by
  have h := maskTest w off data 0x1FF (BitVec.ofBool W ++ o) 3 (c.setWidth 32)
  have hm : ∀ v : BitVec 9, v &&& 0x1FF = v := fun v => BitVec.and_allOnes (x := v)
  rw [hm, ofBool_append_eq, mask_cmd] at h
  exact h

/-- The mask that covers W, OFF and DATA[0]. -/
theorem selects_bit0 (w W : Bool) (off o : Offset) (data : Word) :
    (tWord w off data &&& 0x1FF00000001 == tWord W o 1) = ((w == W && off == o) && data.getLsbD 0) := by
  have h := maskTest w off data 0x1FF (BitVec.ofBool W ++ o) 1 1
  have hm : ∀ v : BitVec 9, v &&& 0x1FF = v := fun v => BitVec.and_allOnes (x := v)
  rw [hm, ofBool_append_eq, mask_bit0] at h
  exact h

theorem offsetTop_test (w : Bool) (off : Offset) (c : BitVec 2) :
    ((BitVec.ofBool w ++ off : BitVec 9) &&& 0x1C0 ==
      (BitVec.ofBool false ++ (c ++ 0#6 : Offset) : BitVec 9)) = (!w && off.extractLsb' 6 2 == c) := by
  revert w off c
  decide

/-- The mask that covers W and OFF[7:6]. -/
theorem selects_window (w : Bool) (off : Offset) (data : Word) (c : BitVec 2) :
    (tWord w off data &&& 0x1C000000000 == tWord false (c ++ 0#6) 0) =
      (!w && off.extractLsb' 6 2 == c) := by
  have h := maskTest w off data 0x1C0 (BitVec.ofBool false ++ (c ++ 0#6 : Offset)) 0 0
  have hz : (data &&& 0 == (0 : Word)) = true := by simp
  rw [offsetTop_test, hz, Bool.and_true] at h
  exact h

/-- Decoding a format T word by its fields. -/
theorem decodeT_tWord (hasBatch w : Bool) (off : Offset) (data : Word) :
    decodeT hasBatch (tWord w off data) = decodeFields hasBatch w off data := by
  have r0 : (tWord w off data &&& 0x1FF00000000 == 0x00000000000) = _ := selects_offset w false off 0x00 data
  have r1 : (tWord w off data &&& 0x1FF00000000 == 0x10000000000) = _ := selects_offset w true off 0x00 data
  have r2 : (tWord w off data &&& 0x1FF00000001 == 0x10100000001) = _ := selects_bit0 w true off 0x01 data
  have r3 : (tWord w off data &&& 0x1FF00000003 == 0x10100000002) = _ := selects_command w true off 0x01 data 2
  have r4 : (tWord w off data &&& 0x1FF00000003 == 0x10100000000) = _ := selects_command w true off 0x01 data 0
  have r5 : (tWord w off data &&& 0x1FF00000000 == 0x00200000000) = _ := selects_offset w false off 0x02 data
  have r6 : (tWord w off data &&& 0x1FF00000000 == 0x00300000000) = _ := selects_offset w false off 0x03 data
  have r7 : (tWord w off data &&& 0x1FF00000000 == 0x00400000000) = _ := selects_offset w false off 0x04 data
  have r8 : (tWord w off data &&& 0x1FF00000000 == 0x00500000000) = _ := selects_offset w false off 0x05 data
  have r9 : (tWord w off data &&& 0x1FF00000000 == 0x00600000000) = _ := selects_offset w false off 0x06 data
  have r10 : (tWord w off data &&& 0x1C000000000 == 0x04000000000) = _ := selects_window w off data 1
  have r11 : (tWord w off data &&& 0x1FF00000003 == 0x11000000001) = _ := selects_command w true off 0x10 data 1
  have r12 : (tWord w off data &&& 0x1FF00000003 == 0x11000000002) = _ := selects_command w true off 0x10 data 2
  have r13 : (tWord w off data &&& 0x1FF00000003 == 0x11000000003) = _ := selects_command w true off 0x10 data 3
  have r14 : (tWord w off data &&& 0x1FF00000003 == 0x11000000000) = _ := selects_command w true off 0x10 data 0
  have r15 : (tWord w off data &&& 0x1FF00000000 == 0x11100000000) = _ := selects_offset w true off 0x11 data
  have r16 : (tWord w off data &&& 0x1FF00000000 == 0x01200000000) = _ := selects_offset w false off 0x12 data
  have r17 : (tWord w off data &&& 0x1FF00000000 == 0x01300000000) = _ := selects_offset w false off 0x13 data
  have r18 : (tWord w off data &&& 0x1FF00000000 == 0x01400000000) = _ := selects_offset w false off 0x14 data
  have r19 : (tWord w off data &&& 0x1FF00000000 == 0x01500000000) = _ := selects_offset w false off 0x15 data
  have r20 : (tWord w off data &&& 0x1C000000000 == 0x08000000000) = _ := selects_window w off data 2
  simp only [decodeT, tRows, List.find?_cons, TRow.selects, r0, r1, r2, r3, r4, r5, r6, r7, r8, r9, r10,
    r11, r12, r13, r14, r15, r16, r17, r18, r19, r20, tW_tWord, tOff_tWord, tData_tWord]
  clear r0 r1 r2 r3 r4 r5 r6 r7 r8 r9 r10 r11 r12 r13 r14 r15 r16 r17 r18 r19 r20
  cases w
  · cases hasBatch <;>
      (by_cases h0 : off = 0#8
       · subst h0; rfl
       by_cases h2 : off = 2#8
       · subst h2; rfl
       by_cases h3 : off = 3#8
       · subst h3; rfl
       by_cases h4 : off = 4#8
       · subst h4; rfl
       by_cases h5 : off = 5#8
       · subst h5; rfl
       by_cases h6 : off = 6#8
       · subst h6; rfl
       by_cases h18 : off = 18#8
       · subst h18; rfl
       by_cases h19 : off = 19#8
       · subst h19; rfl
       by_cases h20 : off = 20#8
       · subst h20; rfl
       by_cases h21 : off = 21#8
       · subst h21; rfl
       by_cases hb : off.extractLsb' 6 2 = 1#2
       · simp [decodeFields, h0, h2, h3, h4, h5, h6, hb, beq_false_of_ne h0, beq_false_of_ne h2,
           beq_false_of_ne h3, beq_false_of_ne h4, beq_false_of_ne h5, beq_false_of_ne h6]
       by_cases hc : off.extractLsb' 6 2 = 2#2
       · simp [decodeFields, h0, h2, h3, h4, h5, h6, h18, h19, h20, h21, hc, beq_false_of_ne h0,
           beq_false_of_ne h2, beq_false_of_ne h3, beq_false_of_ne h4, beq_false_of_ne h5,
           beq_false_of_ne h6, beq_false_of_ne h18, beq_false_of_ne h19, beq_false_of_ne h20,
           beq_false_of_ne h21]
       simp [decodeFields, h0, h2, h3, h4, h5, h6, h18, h19, h20, h21, hb, hc, beq_false_of_ne h0,
         beq_false_of_ne h2, beq_false_of_ne h3, beq_false_of_ne h4, beq_false_of_ne h5,
         beq_false_of_ne h6, beq_false_of_ne h18, beq_false_of_ne h19, beq_false_of_ne h20,
         beq_false_of_ne h21, beq_false_of_ne hb, beq_false_of_ne hc])
  · have bit : ∀ b : Bool, b = true ∨ b = false := by decide
    cases hasBatch <;> rcases bit (data.getLsbD 1) with h1 | h1 <;>
      rcases bit (data.getLsbD 0) with h0 | h0 <;> rw [h0, h1] <;>
      (by_cases o0 : off = 0#8
       · subst o0; rfl
       by_cases o1 : off = 1#8
       · subst o1; rw [decodeFields, h0, h1]; rfl
       by_cases o16 : off = 16#8
       · subst o16; rw [decodeFields, h0, h1]; rfl
       by_cases o17 : off = 17#8
       · subst o17; rfl
       simp [decodeFields, o0, o1, o16, o17, beq_false_of_ne o0, beq_false_of_ne o1,
         beq_false_of_ne o16, beq_false_of_ne o17])

end Sys2Proof
end

