-- ==== Sys2Proof/Laws/State.lean ====
section
/-! SUPPORT. One lemma per field per update of the state, true by rfl, so that no proof unfolds a record
update. -/

namespace Sys2Proof.Machine

section respond

variable (s : State) (v : Word)

@[simp] theorem State.respond_decodeState : (s.respond v).decodeState = s.decodeState := rfl
@[simp] theorem State.respond_lastTs : (s.respond v).lastTs = s.lastTs := rfl
@[simp] theorem State.respond_accBits : (s.respond v).accBits = s.accBits := rfl
@[simp] theorem State.respond_accCount : (s.respond v).accCount = s.accCount := rfl
@[simp] theorem State.respond_pubBits : (s.respond v).pubBits = s.pubBits := rfl
@[simp] theorem State.respond_pubCount : (s.respond v).pubCount = s.pubCount := rfl
@[simp] theorem State.respond_armed : (s.respond v).armed = s.armed := rfl
@[simp] theorem State.respond_bdBuf : (s.respond v).bdBuf = s.bdBuf := rfl
@[simp] theorem State.respond_bdLen : (s.respond v).bdLen = s.bdLen := rfl
@[simp] theorem State.respond_bdOvf : (s.respond v).bdOvf = s.bdOvf := rfl
@[simp] theorem State.respond_bdBits : (s.respond v).bdBits = s.bdBits := rfl
@[simp] theorem State.respond_bdCount : (s.respond v).bdCount = s.bdCount := rfl
@[simp] theorem State.respond_bdDrops : (s.respond v).bdDrops = s.bdDrops := rfl
@[simp] theorem State.respond_params : (s.respond v).params = s.params := rfl
@[simp] theorem State.respond_rdata : (s.respond v).rdata = some v := rfl
@[simp] theorem State.respond_inbox : (s.respond v).inbox = s.inbox := rfl

end respond

section setArm

variable (s : State) (b : Bool)

@[simp] theorem State.setArm_decodeState : (s.setArm b).decodeState = s.decodeState := rfl
@[simp] theorem State.setArm_lastTs : (s.setArm b).lastTs = s.lastTs := rfl
@[simp] theorem State.setArm_accBits : (s.setArm b).accBits = s.accBits := rfl
@[simp] theorem State.setArm_accCount : (s.setArm b).accCount = s.accCount := rfl
@[simp] theorem State.setArm_pubBits : (s.setArm b).pubBits = s.pubBits := rfl
@[simp] theorem State.setArm_pubCount : (s.setArm b).pubCount = s.pubCount := rfl
@[simp] theorem State.setArm_armed : (s.setArm b).armed = b := rfl
@[simp] theorem State.setArm_bdBuf : (s.setArm b).bdBuf = s.bdBuf := rfl
@[simp] theorem State.setArm_bdLen : (s.setArm b).bdLen = s.bdLen := rfl
@[simp] theorem State.setArm_bdOvf : (s.setArm b).bdOvf = s.bdOvf := rfl
@[simp] theorem State.setArm_bdBits : (s.setArm b).bdBits = s.bdBits := rfl
@[simp] theorem State.setArm_bdCount : (s.setArm b).bdCount = s.bdCount := rfl
@[simp] theorem State.setArm_bdDrops : (s.setArm b).bdDrops = s.bdDrops := rfl
@[simp] theorem State.setArm_params : (s.setArm b).params = s.params := rfl
@[simp] theorem State.setArm_rdata : (s.setArm b).rdata = s.rdata := rfl
@[simp] theorem State.setArm_inbox : (s.setArm b).inbox = s.inbox := rfl

end setArm

section setLastTs

variable (s : State) (now : Word)

@[simp] theorem State.setLastTs_decodeState : (s.setLastTs now).decodeState = s.decodeState := rfl
@[simp] theorem State.setLastTs_lastTs : (s.setLastTs now).lastTs = now := rfl
@[simp] theorem State.setLastTs_accBits : (s.setLastTs now).accBits = s.accBits := rfl
@[simp] theorem State.setLastTs_accCount : (s.setLastTs now).accCount = s.accCount := rfl
@[simp] theorem State.setLastTs_pubBits : (s.setLastTs now).pubBits = s.pubBits := rfl
@[simp] theorem State.setLastTs_pubCount : (s.setLastTs now).pubCount = s.pubCount := rfl
@[simp] theorem State.setLastTs_armed : (s.setLastTs now).armed = s.armed := rfl
@[simp] theorem State.setLastTs_bdBuf : (s.setLastTs now).bdBuf = s.bdBuf := rfl
@[simp] theorem State.setLastTs_bdLen : (s.setLastTs now).bdLen = s.bdLen := rfl
@[simp] theorem State.setLastTs_bdOvf : (s.setLastTs now).bdOvf = s.bdOvf := rfl
@[simp] theorem State.setLastTs_bdBits : (s.setLastTs now).bdBits = s.bdBits := rfl
@[simp] theorem State.setLastTs_bdCount : (s.setLastTs now).bdCount = s.bdCount := rfl
@[simp] theorem State.setLastTs_bdDrops : (s.setLastTs now).bdDrops = s.bdDrops := rfl
@[simp] theorem State.setLastTs_params : (s.setLastTs now).params = s.params := rfl
@[simp] theorem State.setLastTs_rdata : (s.setLastTs now).rdata = s.rdata := rfl
@[simp] theorem State.setLastTs_inbox : (s.setLastTs now).inbox = s.inbox := rfl

end setLastTs

section goto

variable (s : State) (q : DecodeState)

@[simp] theorem State.goto_decodeState : (s.goto q).decodeState = q := rfl
@[simp] theorem State.goto_lastTs : (s.goto q).lastTs = s.lastTs := rfl
@[simp] theorem State.goto_accBits : (s.goto q).accBits = s.accBits := rfl
@[simp] theorem State.goto_accCount : (s.goto q).accCount = s.accCount := rfl
@[simp] theorem State.goto_pubBits : (s.goto q).pubBits = s.pubBits := rfl
@[simp] theorem State.goto_pubCount : (s.goto q).pubCount = s.pubCount := rfl
@[simp] theorem State.goto_armed : (s.goto q).armed = s.armed := rfl
@[simp] theorem State.goto_bdBuf : (s.goto q).bdBuf = s.bdBuf := rfl
@[simp] theorem State.goto_bdLen : (s.goto q).bdLen = s.bdLen := rfl
@[simp] theorem State.goto_bdOvf : (s.goto q).bdOvf = s.bdOvf := rfl
@[simp] theorem State.goto_bdBits : (s.goto q).bdBits = s.bdBits := rfl
@[simp] theorem State.goto_bdCount : (s.goto q).bdCount = s.bdCount := rfl
@[simp] theorem State.goto_bdDrops : (s.goto q).bdDrops = s.bdDrops := rfl
@[simp] theorem State.goto_params : (s.goto q).params = s.params := rfl
@[simp] theorem State.goto_rdata : (s.goto q).rdata = s.rdata := rfl
@[simp] theorem State.goto_inbox : (s.goto q).inbox = s.inbox := rfl

end goto

section clearAcc

variable (s : State)

@[simp] theorem State.clearAcc_decodeState : s.clearAcc.decodeState = s.decodeState := rfl
@[simp] theorem State.clearAcc_lastTs : s.clearAcc.lastTs = s.lastTs := rfl
@[simp] theorem State.clearAcc_accBits : s.clearAcc.accBits = 0 := rfl
@[simp] theorem State.clearAcc_accCount : s.clearAcc.accCount = 0 := rfl
@[simp] theorem State.clearAcc_pubBits : s.clearAcc.pubBits = s.pubBits := rfl
@[simp] theorem State.clearAcc_pubCount : s.clearAcc.pubCount = s.pubCount := rfl
@[simp] theorem State.clearAcc_armed : s.clearAcc.armed = s.armed := rfl
@[simp] theorem State.clearAcc_bdBuf : s.clearAcc.bdBuf = s.bdBuf := rfl
@[simp] theorem State.clearAcc_bdLen : s.clearAcc.bdLen = s.bdLen := rfl
@[simp] theorem State.clearAcc_bdOvf : s.clearAcc.bdOvf = s.bdOvf := rfl
@[simp] theorem State.clearAcc_bdBits : s.clearAcc.bdBits = s.bdBits := rfl
@[simp] theorem State.clearAcc_bdCount : s.clearAcc.bdCount = s.bdCount := rfl
@[simp] theorem State.clearAcc_bdDrops : s.clearAcc.bdDrops = s.bdDrops := rfl
@[simp] theorem State.clearAcc_params : s.clearAcc.params = s.params := rfl
@[simp] theorem State.clearAcc_rdata : s.clearAcc.rdata = s.rdata := rfl
@[simp] theorem State.clearAcc_inbox : s.clearAcc.inbox = s.inbox := rfl

end clearAcc

section abort

variable (s : State)

@[simp] theorem State.abort_decodeState : s.abort.decodeState = .wait := rfl
@[simp] theorem State.abort_lastTs : s.abort.lastTs = s.lastTs := rfl
@[simp] theorem State.abort_accBits : s.abort.accBits = 0 := rfl
@[simp] theorem State.abort_accCount : s.abort.accCount = 0 := rfl
@[simp] theorem State.abort_pubBits : s.abort.pubBits = s.pubBits := rfl
@[simp] theorem State.abort_pubCount : s.abort.pubCount = s.pubCount := rfl
@[simp] theorem State.abort_armed : s.abort.armed = s.armed := rfl
@[simp] theorem State.abort_bdBuf : s.abort.bdBuf = s.bdBuf := rfl
@[simp] theorem State.abort_bdLen : s.abort.bdLen = s.bdLen := rfl
@[simp] theorem State.abort_bdOvf : s.abort.bdOvf = s.bdOvf := rfl
@[simp] theorem State.abort_bdBits : s.abort.bdBits = s.bdBits := rfl
@[simp] theorem State.abort_bdCount : s.abort.bdCount = s.bdCount := rfl
@[simp] theorem State.abort_bdDrops : s.abort.bdDrops = s.bdDrops := rfl
@[simp] theorem State.abort_params : s.abort.params = s.params := rfl
@[simp] theorem State.abort_rdata : s.abort.rdata = s.rdata := rfl
@[simp] theorem State.abort_inbox : s.abort.inbox = s.inbox := rfl

end abort

section append

variable (s : State) (b : Bool)

@[simp] theorem State.append_decodeState : (s.append b).decodeState = s.decodeState := rfl
@[simp] theorem State.append_lastTs : (s.append b).lastTs = s.lastTs := rfl
@[simp] theorem State.append_accBits : (s.append b).accBits = setBit s.accBits s.accCount.toNat b := rfl
@[simp] theorem State.append_accCount : (s.append b).accCount = s.accCount + 1 := rfl
@[simp] theorem State.append_pubBits : (s.append b).pubBits = s.pubBits := rfl
@[simp] theorem State.append_pubCount : (s.append b).pubCount = s.pubCount := rfl
@[simp] theorem State.append_armed : (s.append b).armed = s.armed := rfl
@[simp] theorem State.append_bdBuf : (s.append b).bdBuf = s.bdBuf := rfl
@[simp] theorem State.append_bdLen : (s.append b).bdLen = s.bdLen := rfl
@[simp] theorem State.append_bdOvf : (s.append b).bdOvf = s.bdOvf := rfl
@[simp] theorem State.append_bdBits : (s.append b).bdBits = s.bdBits := rfl
@[simp] theorem State.append_bdCount : (s.append b).bdCount = s.bdCount := rfl
@[simp] theorem State.append_bdDrops : (s.append b).bdDrops = s.bdDrops := rfl
@[simp] theorem State.append_params : (s.append b).params = s.params := rfl
@[simp] theorem State.append_rdata : (s.append b).rdata = s.rdata := rfl
@[simp] theorem State.append_inbox : (s.append b).inbox = s.inbox := rfl

end append

section publish

variable (s : State)

@[simp] theorem State.publish_decodeState : s.publish.decodeState = s.decodeState := rfl
@[simp] theorem State.publish_lastTs : s.publish.lastTs = s.lastTs := rfl
@[simp] theorem State.publish_accBits : s.publish.accBits = s.accBits := rfl
@[simp] theorem State.publish_accCount : s.publish.accCount = s.accCount := rfl
@[simp] theorem State.publish_pubBits : s.publish.pubBits = s.accBits := rfl
@[simp] theorem State.publish_pubCount : s.publish.pubCount = s.accCount := rfl
@[simp] theorem State.publish_armed : s.publish.armed = s.armed := rfl
@[simp] theorem State.publish_bdBuf : s.publish.bdBuf = s.bdBuf := rfl
@[simp] theorem State.publish_bdLen : s.publish.bdLen = s.bdLen := rfl
@[simp] theorem State.publish_bdOvf : s.publish.bdOvf = s.bdOvf := rfl
@[simp] theorem State.publish_bdBits : s.publish.bdBits = s.bdBits := rfl
@[simp] theorem State.publish_bdCount : s.publish.bdCount = s.bdCount := rfl
@[simp] theorem State.publish_bdDrops : s.publish.bdDrops = s.bdDrops := rfl
@[simp] theorem State.publish_params : s.publish.params = s.params := rfl
@[simp] theorem State.publish_rdata : s.publish.rdata = s.rdata := rfl
@[simp] theorem State.publish_inbox : s.publish.inbox = s.inbox := rfl

end publish

section resetSession

variable (s : State)

@[simp] theorem State.resetSession_decodeState : s.resetSession.decodeState = .wait := rfl
@[simp] theorem State.resetSession_lastTs : s.resetSession.lastTs = s.lastTs := rfl
@[simp] theorem State.resetSession_accBits : s.resetSession.accBits = 0 := rfl
@[simp] theorem State.resetSession_accCount : s.resetSession.accCount = 0 := rfl
@[simp] theorem State.resetSession_pubBits : s.resetSession.pubBits = s.pubBits := rfl
@[simp] theorem State.resetSession_pubCount : s.resetSession.pubCount = s.pubCount := rfl
@[simp] theorem State.resetSession_armed : s.resetSession.armed = s.armed := rfl
@[simp] theorem State.resetSession_bdBuf : s.resetSession.bdBuf = s.bdBuf := rfl
@[simp] theorem State.resetSession_bdLen : s.resetSession.bdLen = s.bdLen := rfl
@[simp] theorem State.resetSession_bdOvf : s.resetSession.bdOvf = s.bdOvf := rfl
@[simp] theorem State.resetSession_bdBits : s.resetSession.bdBits = s.bdBits := rfl
@[simp] theorem State.resetSession_bdCount : s.resetSession.bdCount = s.bdCount := rfl
@[simp] theorem State.resetSession_bdDrops : s.resetSession.bdDrops = s.bdDrops := rfl
@[simp] theorem State.resetSession_params : s.resetSession.params = s.params := rfl
@[simp] theorem State.resetSession_rdata : s.resetSession.rdata = s.rdata := rfl
@[simp] theorem State.resetSession_inbox : s.resetSession.inbox = s.inbox := rfl

end resetSession

section pushEntry

variable (s : State) (v : Word)

@[simp] theorem State.pushEntry_decodeState : (s.pushEntry v).decodeState = s.decodeState := rfl
@[simp] theorem State.pushEntry_lastTs : (s.pushEntry v).lastTs = s.lastTs := rfl
@[simp] theorem State.pushEntry_accBits : (s.pushEntry v).accBits = s.accBits := rfl
@[simp] theorem State.pushEntry_accCount : (s.pushEntry v).accCount = s.accCount := rfl
@[simp] theorem State.pushEntry_pubBits : (s.pushEntry v).pubBits = s.pubBits := rfl
@[simp] theorem State.pushEntry_pubCount : (s.pushEntry v).pubCount = s.pubCount := rfl
@[simp] theorem State.pushEntry_armed : (s.pushEntry v).armed = s.armed := rfl
@[simp] theorem State.pushEntry_bdBuf : (s.pushEntry v).bdBuf = setEntry s.bdBuf s.bdLen.toNat v := rfl
@[simp] theorem State.pushEntry_bdLen : (s.pushEntry v).bdLen = s.bdLen + 1 := rfl
@[simp] theorem State.pushEntry_bdOvf : (s.pushEntry v).bdOvf = s.bdOvf := rfl
@[simp] theorem State.pushEntry_bdBits : (s.pushEntry v).bdBits = s.bdBits := rfl
@[simp] theorem State.pushEntry_bdCount : (s.pushEntry v).bdCount = s.bdCount := rfl
@[simp] theorem State.pushEntry_bdDrops : (s.pushEntry v).bdDrops = s.bdDrops := rfl
@[simp] theorem State.pushEntry_params : (s.pushEntry v).params = s.params := rfl
@[simp] theorem State.pushEntry_rdata : (s.pushEntry v).rdata = s.rdata := rfl
@[simp] theorem State.pushEntry_inbox : (s.pushEntry v).inbox = s.inbox := rfl

end pushEntry

section overflow

variable (s : State)

@[simp] theorem State.overflow_decodeState : s.overflow.decodeState = s.decodeState := rfl
@[simp] theorem State.overflow_lastTs : s.overflow.lastTs = s.lastTs := rfl
@[simp] theorem State.overflow_accBits : s.overflow.accBits = s.accBits := rfl
@[simp] theorem State.overflow_accCount : s.overflow.accCount = s.accCount := rfl
@[simp] theorem State.overflow_pubBits : s.overflow.pubBits = s.pubBits := rfl
@[simp] theorem State.overflow_pubCount : s.overflow.pubCount = s.pubCount := rfl
@[simp] theorem State.overflow_armed : s.overflow.armed = s.armed := rfl
@[simp] theorem State.overflow_bdBuf : s.overflow.bdBuf = s.bdBuf := rfl
@[simp] theorem State.overflow_bdLen : s.overflow.bdLen = s.bdLen := rfl
@[simp] theorem State.overflow_bdOvf : s.overflow.bdOvf = true := rfl
@[simp] theorem State.overflow_bdBits : s.overflow.bdBits = s.bdBits := rfl
@[simp] theorem State.overflow_bdCount : s.overflow.bdCount = s.bdCount := rfl
@[simp] theorem State.overflow_bdDrops : s.overflow.bdDrops = s.bdDrops := rfl
@[simp] theorem State.overflow_params : s.overflow.params = s.params := rfl
@[simp] theorem State.overflow_rdata : s.overflow.rdata = s.rdata := rfl
@[simp] theorem State.overflow_inbox : s.overflow.inbox = s.inbox := rfl

end overflow

section clearBatch

variable (s : State)

@[simp] theorem State.clearBatch_decodeState : s.clearBatch.decodeState = s.decodeState := rfl
@[simp] theorem State.clearBatch_lastTs : s.clearBatch.lastTs = s.lastTs := rfl
@[simp] theorem State.clearBatch_accBits : s.clearBatch.accBits = s.accBits := rfl
@[simp] theorem State.clearBatch_accCount : s.clearBatch.accCount = s.accCount := rfl
@[simp] theorem State.clearBatch_pubBits : s.clearBatch.pubBits = s.pubBits := rfl
@[simp] theorem State.clearBatch_pubCount : s.clearBatch.pubCount = s.pubCount := rfl
@[simp] theorem State.clearBatch_armed : s.clearBatch.armed = s.armed := rfl
@[simp] theorem State.clearBatch_bdBuf : s.clearBatch.bdBuf = s.bdBuf := rfl
@[simp] theorem State.clearBatch_bdLen : s.clearBatch.bdLen = 0 := rfl
@[simp] theorem State.clearBatch_bdOvf : s.clearBatch.bdOvf = false := rfl
@[simp] theorem State.clearBatch_bdBits : s.clearBatch.bdBits = 0 := rfl
@[simp] theorem State.clearBatch_bdCount : s.clearBatch.bdCount = 0 := rfl
@[simp] theorem State.clearBatch_bdDrops : s.clearBatch.bdDrops = 0 := rfl
@[simp] theorem State.clearBatch_params : s.clearBatch.params = s.params := rfl
@[simp] theorem State.clearBatch_rdata : s.clearBatch.rdata = s.rdata := rfl
@[simp] theorem State.clearBatch_inbox : s.clearBatch.inbox = s.inbox := rfl

end clearBatch

section setResult

variable (s : State) (bits : List Bool) (drops : Nat)

@[simp] theorem State.setResult_decodeState : (s.setResult bits drops).decodeState = s.decodeState := rfl
@[simp] theorem State.setResult_lastTs : (s.setResult bits drops).lastTs = s.lastTs := rfl
@[simp] theorem State.setResult_accBits : (s.setResult bits drops).accBits = s.accBits := rfl
@[simp] theorem State.setResult_accCount : (s.setResult bits drops).accCount = s.accCount := rfl
@[simp] theorem State.setResult_pubBits : (s.setResult bits drops).pubBits = s.pubBits := rfl
@[simp] theorem State.setResult_pubCount : (s.setResult bits drops).pubCount = s.pubCount := rfl
@[simp] theorem State.setResult_armed : (s.setResult bits drops).armed = s.armed := rfl
@[simp] theorem State.setResult_bdBuf : (s.setResult bits drops).bdBuf = s.bdBuf := rfl
@[simp] theorem State.setResult_bdLen : (s.setResult bits drops).bdLen = s.bdLen := rfl
@[simp] theorem State.setResult_bdOvf : (s.setResult bits drops).bdOvf = s.bdOvf := rfl
@[simp] theorem State.setResult_bdBits : (s.setResult bits drops).bdBits = pack bits := rfl
@[simp] theorem State.setResult_bdCount : (s.setResult bits drops).bdCount = BitVec.ofNat 16 bits.length := rfl
@[simp] theorem State.setResult_bdDrops : (s.setResult bits drops).bdDrops = BitVec.ofNat 16 drops := rfl
@[simp] theorem State.setResult_params : (s.setResult bits drops).params = s.params := rfl
@[simp] theorem State.setResult_rdata : (s.setResult bits drops).rdata = s.rdata := rfl
@[simp] theorem State.setResult_inbox : (s.setResult bits drops).inbox = s.inbox := rfl

end setResult

section accept

variable (s : State) (rest : List Arrival)

@[simp] theorem State.accept_decodeState : (s.accept rest).decodeState = s.decodeState := rfl
@[simp] theorem State.accept_lastTs : (s.accept rest).lastTs = s.lastTs := rfl
@[simp] theorem State.accept_accBits : (s.accept rest).accBits = s.accBits := rfl
@[simp] theorem State.accept_accCount : (s.accept rest).accCount = s.accCount := rfl
@[simp] theorem State.accept_pubBits : (s.accept rest).pubBits = s.pubBits := rfl
@[simp] theorem State.accept_pubCount : (s.accept rest).pubCount = s.pubCount := rfl
@[simp] theorem State.accept_armed : (s.accept rest).armed = s.armed := rfl
@[simp] theorem State.accept_bdBuf : (s.accept rest).bdBuf = s.bdBuf := rfl
@[simp] theorem State.accept_bdLen : (s.accept rest).bdLen = s.bdLen := rfl
@[simp] theorem State.accept_bdOvf : (s.accept rest).bdOvf = s.bdOvf := rfl
@[simp] theorem State.accept_bdBits : (s.accept rest).bdBits = s.bdBits := rfl
@[simp] theorem State.accept_bdCount : (s.accept rest).bdCount = s.bdCount := rfl
@[simp] theorem State.accept_bdDrops : (s.accept rest).bdDrops = s.bdDrops := rfl
@[simp] theorem State.accept_params : (s.accept rest).params = s.params := rfl
@[simp] theorem State.accept_rdata : (s.accept rest).rdata = none := rfl
@[simp] theorem State.accept_inbox : (s.accept rest).inbox = rest := rfl

end accept

end Sys2Proof.Machine
end

