-- ==== Sys2Proof/Laws/Ops.lean ====
section
/-! SUPPORT. One lemma for each shared operation that says what it does: bit vectors and their packing
(R18), windows (R92, R97), the pulse buffer (R30, R180), and the order of events (R57, R58). -/

namespace Sys2Proof.Machine

/-- Setting a bit changes that bit and no other (R127). -/
theorem setBit_getLsbD (v : BitReg) (n : Nat) (b : Bool) (i : Nat) :
    (setBit v n b).getLsbD i = if i = n ∧ n < 2048 then b else v.getLsbD i := by
  cases b <;> simp only [setBit, if_true, if_false, Bool.false_eq_true, BitVec.getLsbD_or, BitVec.getLsbD_and,
    BitVec.getLsbD_not, BitVec.getLsbD_twoPow]
  · by_cases h : i = n
    · subst h; by_cases hi : i < 2048 <;> simp [hi, BitVec.getLsbD_of_ge, Nat.le_of_not_lt]
    · have h' : ¬ n = i := fun e => h e.symm
      by_cases hi : i < 2048
      · simp [h, h', hi]
      · simp [h, BitVec.getLsbD_of_ge v i (by omega)]
  · by_cases h : i = n
    · subst h; by_cases hi : i < 2048 <;> simp [hi]
    · have h' : ¬ n = i := fun e => h e.symm
      simp [h, h']

theorem packNat_lt (b : List Bool) : packNat b < 2 ^ b.length := by
  induction b with
  | nil => simp [packNat]
  | cons x xs ih => cases x <;> simp only [packNat, List.length_cons, Nat.pow_succ] <;> simp <;> omega

/-- Bit i of the packed number is b(i), and 0 from the length on (R18). -/
theorem packNat_testBit (b : List Bool) (i : Nat) : (packNat b).testBit i = b.getD i false := by
  induction b generalizing i with
  | nil => simp [packNat]
  | cons x xs ih =>
    cases i with
    | zero => cases x <;> simp [packNat, Nat.testBit_zero, Nat.add_mod]
    | succ i =>
      have h : ((if x then 1 else 0) + 2 * packNat xs) / 2 = packNat xs := by
        cases x <;> simp; omega
      rw [packNat, Nat.testBit_succ, h, ih]
      simp

/-- Bit i of a packed Bitstring is b(i), within the register (R18). -/
theorem pack_getLsbD (b : List Bool) (i : Nat) :
    (pack b).getLsbD i = (decide (i < 2048) && b.getD i false) := by
  rw [pack, BitVec.getLsbD_ofNat, packNat_testBit]

@[simp] theorem pack_nil : pack [] = 0 := rfl

/-- A packed Bitstring has no bit at or above its length (R18, R26). -/
theorem pack_toNat_lt (b : List Bool) : (pack b).toNat < 2 ^ b.length :=
  Nat.lt_of_le_of_lt (Nat.mod_le _ _) (packNat_lt b)

/-- Appending a bit at the index of the count is appending it to the Bitstring (R127). -/
theorem setBit_pack (b : List Bool) (x : Bool) (h : b.length < 2048) :
    setBit (pack b) b.length x = pack (b ++ [x]) := by
  refine BitVec.eq_of_getLsbD_eq fun i hi => ?_
  rw [setBit_getLsbD, pack_getLsbD, pack_getLsbD]
  by_cases he : i = b.length
  · subst he; simp [h]
  · by_cases hl : i < b.length
    · simp [he, hl, List.getElem?_append_left]
    · have : b.length + 1 ≤ i := by omega
      simp [he, List.getElem?_eq_none, this, Nat.le_of_not_lt hl]

/-- A register with no bit at or above n gains none above n + 1 from an append at n (R26). -/
theorem setBit_toNat_lt (v : BitReg) (n : Nat) (b : Bool) (h : v.toNat < 2 ^ n) :
    (setBit v n b).toNat < 2 ^ (n + 1) := by
  refine Nat.lt_pow_two_of_testBit _ fun i hi => ?_
  have hv : v.toNat.testBit i = false :=
    Nat.testBit_lt_two_pow (Nat.lt_of_lt_of_le h (Nat.pow_le_pow_right (by decide) (by omega)))
  have := setBit_getLsbD v n b i
  rw [if_neg (by omega)] at this
  exact this.trans hv

/-- Bit j of word k of a window is bit 32k + j of the vector, below the capacity (R92, R97). -/
theorem windowWord_getLsbD (capacity : Nat) (bits : BitReg) (k j : Nat) (hj : j < 32) :
    (windowWord capacity bits k).getLsbD j =
      (decide (32 * k + j < capacity) && bits.getLsbD (32 * k + j)) := by
  unfold windowWord
  split
  · simp [BitVec.getLsbD_setWidth, hj]
  · have : ¬ 32 * k + j < capacity := by omega
    simp [this]

theorem setEntryFrom_getD (i : Nat) (buf : List Word) (n : Nat) (v : Word) (m : Nat) :
    (setEntryFrom i buf n v).getD m (Config.undefinedEntry (i + m)) =
      if m = n then v else buf.getD m (Config.undefinedEntry (i + m)) := by
  induction n generalizing i buf m with
  | zero => cases buf <;> cases m <;> simp [setEntryFrom]
  | succ n ih =>
    cases m with
    | zero => cases buf <;> simp [setEntryFrom]
    | succ m =>
      cases buf with
      | nil =>
        have := ih (i + 1) [] m
        rw [show i + 1 + m = i + (m + 1) by omega] at this
        simpa [setEntryFrom] using this
      | cons w ws =>
        have := ih (i + 1) ws m
        rw [show i + 1 + m = i + (m + 1) by omega] at this
        simpa [setEntryFrom] using this

/-- Reading an entry after a write gives the value written at its index and the old value elsewhere
(R180). -/
theorem entry_setEntry (buf : List Word) (n : Nat) (v : Word) (m : Nat) :
    entry (setEntry buf n v) m = if m = n then v else entry buf m := by
  have := setEntryFrom_getD 0 buf n v m
  simpa [entry, setEntry] using this

theorem setEntryFrom_length (i : Nat) (buf : List Word) (n : Nat) (v : Word) :
    (setEntryFrom i buf n v).length = max buf.length (n + 1) := by
  induction n generalizing i buf with
  | zero => cases buf <;> simp [setEntryFrom]
  | succ n ih => cases buf <;> simp [setEntryFrom, ih]

/-- A write makes the buffer long enough for its index, and no longer. -/
@[simp] theorem setEntry_length (buf : List Word) (n : Nat) (v : Word) :
    (setEntry buf n v).length = max buf.length (n + 1) := setEntryFrom_length 0 buf n v

@[simp] theorem pulseTrain_length (buf : List Word) (n : Nat) : (pulseTrain buf n).length = n := by
  simp [pulseTrain]

@[simp] theorem pulseTrain_zero (buf : List Word) : pulseTrain buf 0 = [] := rfl

/-- A push at the end of the train appends to it (R180, R182). -/
theorem pulseTrain_setEntry (buf : List Word) (n : Nat) (v : Word) :
    pulseTrain (setEntry buf n v) (n + 1) = pulseTrain buf n ++ [v.toNat] := by
  simp only [pulseTrain, List.range_succ, List.map_append, List.map_cons, List.map_nil, entry_setEntry]
  congr 1
  · refine List.map_congr_left fun i hi => ?_
    have : i ≠ n := by simp at hi; omega
    simp [this]

/-- What is next, in every case (R57, R58). -/
theorem nextEvent_cases (inbox : List Arrival) :
    (inbox = [] ∧ nextEvent inbox = (.idle, [])) ∨
    (∃ rest, inbox = ⟨none, none⟩ :: rest ∧ nextEvent inbox = (.idle, rest)) ∨
    (∃ h e rest, inbox = ⟨some h, e⟩ :: rest ∧ nextEvent inbox = (.host h, afterHost e rest)) ∨
    (∃ w rest, inbox = ⟨none, some w⟩ :: rest ∧ nextEvent inbox = (.edge w, rest)) := by
  rcases inbox with _ | ⟨⟨_ | h, _ | w⟩, rest⟩ <;> simp [nextEvent]

end Sys2Proof.Machine
end

