-- ==== Sys2Proof/Laws/Machine.lean ====
section
/-! SUPPORT. What one row, one operation and one step can do, said once. -/

namespace Sys2Proof.Machine

/-- A row writes the session's state and accumulator and the published slot, nothing else (R110). -/
theorem applyRow_frame (r : TableRow) (s : State) :
    ∃ q a n p m, applyRow r s =
      { s with decodeState := q, accBits := a, accCount := n, pubBits := p, pubCount := m } := by
  cases r <;> simp only [applyRow, State.appendThenMark, State.appendThenEnd]
  case row6 | row7 | row8 | row9 => split <;> exact ⟨_, _, _, _, _, rfl⟩
  all_goals exact ⟨_, _, _, _, _, rfl⟩

/-- A full or a not full accumulator, in the rows that append (R127, R128). -/
theorem appendThenMark_cases (s : State) (b : Bool) :
    (s.accCount.toNat = s.params.maxBits ∧ s.appendThenMark b = s.abort) ∨
    (s.accCount.toNat ≠ s.params.maxBits ∧ s.appendThenMark b = (s.append b).goto .dmas) := by
  unfold State.appendThenMark
  split
  · exact .inl ⟨‹_›, rfl⟩
  · exact .inr ⟨‹_›, rfl⟩

/-- The same for the rows that publish (R127, R128). -/
theorem appendThenEnd_cases (s : State) (b : Bool) :
    (s.accCount.toNat = s.params.maxBits ∧ s.appendThenEnd b = s.abort) ∨
    (s.accCount.toNat ≠ s.params.maxBits ∧ s.appendThenEnd b = (s.append b).publish.goto .eom) := by
  unfold State.appendThenEnd
  split
  · exact .inl ⟨‹_›, rfl⟩
  · exact .inr ⟨‹_›, rfl⟩

/-- A row does not look at what is yet to arrive. -/
theorem applyRow_withInbox (r : TableRow) (s : State) (l : List Arrival) :
    applyRow r { s with inbox := l } = { applyRow r s with inbox := l } := by
  cases r
  case row6 | row7 | row8 | row9 =>
    by_cases h : s.accCount.toNat = s.params.maxBits <;>
      simp only [applyRow, State.appendThenMark, State.appendThenEnd, h, if_true, if_false] <;> rfl
  all_goals rfl

/-- A row neither reads nor writes batch state, the arming bit or the response port (R198). -/
theorem applyRow_withBatch (r : TableRow) (s : State) (buf : List Word) (len : Count) (ovf : Bool)
    (bits : BitReg) (count drops : Count) :
    applyRow r
        { s with bdBuf := buf, bdLen := len, bdOvf := ovf, bdBits := bits, bdCount := count, bdDrops := drops } =
      { applyRow r s with
        bdBuf := buf, bdLen := len, bdOvf := ovf, bdBits := bits, bdCount := count, bdDrops := drops } := by
  cases r
  case row6 | row7 | row8 | row9 =>
    by_cases h : s.accCount.toNat = s.params.maxBits <;>
      simp only [applyRow, State.appendThenMark, State.appendThenEnd, h, if_true, if_false] <;> rfl
  all_goals rfl

/-- An armed edge (R110). -/
theorem exec_edge_armed (now : Word) (level : Level) (s : State) (h : s.armed = true) :
    exec (.edge now level) s = .next (decodeStep (elapsed now s.lastTs) level (s.setLastTs now)) := by
  simp [exec, execEdge, h]

/-- A disarmed edge (R110). -/
theorem exec_edge_disarmed (now : Word) (level : Level) (s : State) (h : s.armed = false) :
    exec (.edge now level) s = .next s := by
  simp [exec, execEdge, h]

/-- Every operation has an outcome (R240) and leaves what is yet to arrive, and the parameters, alone. -/
theorem exec_completes (i : Instr) (s : State) :
    ∃ t, exec i s = .next t ∧ t.inbox = s.inbox ∧ t.params = s.params := by
  cases i
  case edge now level =>
    simp only [exec, execEdge]
    split
    · obtain ⟨q, a, n, p, m, h⟩ := applyRow_frame
        (edgeRow (s.setLastTs now).decodeState (elapsed now s.lastTs) level) (s.setLastTs now)
      exact ⟨_, rfl, by rw [decodeStep, h]; rfl, by rw [decodeStep, h]; rfl⟩
    · exact ⟨_, rfl, rfl, rfl⟩
  case cmdConsume d =>
    simp only [exec, execCmdConsume]
    split <;> exact ⟨_, rfl, rfl, rfl⟩
  case bdPush d =>
    simp only [exec, execBdPush]
    split <;> exact ⟨_, rfl, rfl, rfl⟩
  all_goals exact ⟨_, rfl, rfl, rfl⟩

/-- No operation looks at what is yet to arrive. -/
theorem exec_withInbox (i : Instr) (s t : State) (l : List Arrival) (h : exec i s = .next t) :
    exec i { s with inbox := l } = .next { t with inbox := l } := by
  cases i
  case edge now level =>
    by_cases ha : s.armed = true
    · rw [exec_edge_armed _ _ _ ha] at h
      cases h
      exact (exec_edge_armed now level { s with inbox := l } ha).trans
        (congrArg Host.Outcome.next (applyRow_withInbox _ (s.setLastTs now) l))
    · rw [Bool.not_eq_true] at ha
      rw [exec_edge_disarmed _ _ _ ha] at h
      cases h
      exact exec_edge_disarmed now level { s with inbox := l } ha
  case cmdConsume d =>
    simp only [exec, execCmdConsume] at h ⊢
    by_cases hq : s.decodeState = .eom <;> simp only [hq, if_true, if_false] at h ⊢ <;> cases h <;> rfl
  case bdPush d =>
    simp only [exec, execBdPush] at h ⊢
    by_cases hq : s.bdLen.toNat < s.params.maxPulses <;> simp only [hq, if_true, if_false] at h ⊢ <;>
      cases h <;> rfl
  all_goals (cases h; rfl)

/-- What an operation does to the batch registers: nothing, or it is one of the four that write them (R30 to
R32, R198). -/
theorem exec_batch_cases (i : Instr) (s t : State) (h : exec i s = .next t) :
    (t.bdBuf = s.bdBuf ∧ t.bdLen = s.bdLen ∧ t.bdOvf = s.bdOvf ∧ t.bdBits = s.bdBits ∧
      t.bdCount = s.bdCount ∧ t.bdDrops = s.bdDrops) ∨
    (∃ d, i = .bdPush d ∧ (t = s.pushEntry d ∨ t = s.overflow)) ∨
    (∃ d, i = .bdClear d ∧ t = s.clearBatch) ∨
    (∃ d, i = .bdClearRun d ∧ t = s.clearBatch.runBatch) ∨
    (∃ d, i = .bdRun d ∧ t = s.runBatch) := by
  cases i
  case edge now level =>
    simp only [exec, execEdge] at h
    split at h <;> cases h
    · obtain ⟨_, _, _, _, _, hrow⟩ := applyRow_frame
        (edgeRow (s.setLastTs now).decodeState (elapsed now s.lastTs) level) (s.setLastTs now)
      rw [decodeStep, hrow]
      exact .inl ⟨rfl, rfl, rfl, rfl, rfl, rfl⟩
    · exact .inl ⟨rfl, rfl, rfl, rfl, rfl, rfl⟩
  case cmdConsume d =>
    simp only [exec, execCmdConsume] at h
    cases h
    split <;> exact .inl ⟨rfl, rfl, rfl, rfl, rfl, rfl⟩
  case bdPush d =>
    simp only [exec, execBdPush] at h
    cases h
    refine .inr (.inl ⟨d, rfl, ?_⟩)
    split
    · exact .inl rfl
    · exact .inr rfl
  case bdClear d => cases h; exact .inr (.inr (.inl ⟨d, rfl, rfl⟩))
  case bdClearRun d => cases h; exact .inr (.inr (.inr (.inl ⟨d, rfl, rfl⟩)))
  case bdRun d => cases h; exact .inr (.inr (.inr (.inr ⟨d, rfl, rfl⟩)))
  all_goals (cases h; exact .inl ⟨rfl, rfl, rfl, rfl, rfl, rfl⟩)

/-- A format T word is never an EDGE (R80, R100). -/
theorem decodeT_ne_edge (hasBatch : Bool) (w : TWord) (now : Word) (level : Level) :
    decodeT hasBatch w ≠ .edge now level := by
  have rows : ∀ r ∈ tRows, ∀ o d, r.build o d ≠ .edge now level := by simp [tRows]
  unfold decodeT
  cases h : tRows.find? (fun r => r.selects hasBatch w) with
  | some r => exact rows r (List.mem_of_find?_eq_some h) _ _
  | none => cases tW w <;> simp

/-- What one step can be. -/
theorem step_cases (s : State) :
    (∃ rest, nextEvent s.inbox = (.idle, rest) ∧ step s = .next (s.accept rest)) ∨
    (∃ w rest, nextEvent s.inbox = (.edge w, rest) ∧ step s = exec (decodeE w) (s.accept rest)) ∨
    (∃ h rest i, nextEvent s.inbox = (.host h, rest) ∧
      decodeHost Config.irdecBase s.params.hasBatch h = .ok i ∧ step s = exec i (s.accept rest)) ∨
    (∃ h rest why, nextEvent s.inbox = (.host h, rest) ∧
      decodeHost Config.irdecBase s.params.hasBatch h = .error why ∧ step s = .refused (.access why)) := by
  unfold step
  rcases hn : nextEvent s.inbox with ⟨_ | h | w, rest⟩
  · exact .inl ⟨_, rfl, rfl⟩
  · cases hd : decodeHost Config.irdecBase s.params.hasBatch h with
    | ok i => exact .inr (.inr (.inl ⟨_, _, _, rfl, hd, by simp only [hd]⟩))
    | error why => exact .inr (.inr (.inr ⟨_, _, _, rfl, hd, by simp only [hd]⟩))
  · exact .inr (.inl ⟨_, _, rfl, rfl⟩)

/-- A T word is always a transaction. -/
@[simp] theorem decodeHost_word (base : Nat) (hasBatch : Bool) (w : TWord) :
    decodeHost base hasBatch (.word w) = .ok (decodeT hasBatch w) := rfl

/-- The step of a T word. -/
theorem step_word (s : State) (w : TWord) (e : Option EWord) (rest : List Arrival)
    (h : s.inbox = ⟨some (.word w), e⟩ :: rest) :
    step s = exec (decodeT s.params.hasBatch w) (s.accept (afterHost e rest)) := by
  simp [step, h, nextEvent]

/-- The step of an E word. -/
theorem step_edge (s : State) (w : EWord) (rest : List Arrival)
    (h : s.inbox = ⟨none, some w⟩ :: rest) : step s = exec (decodeE w) (s.accept rest) := by
  simp [step, h, nextEvent]

end Sys2Proof.Machine
end

