-- ==== Sys2Proof/Laws/Reference.lean ====
section
/-! SUPPORT. Lemmas about lists of operations, timed edges, the encoder's trains and the byte-addressed
host, for statements over whole messages. -/

namespace Sys2Proof.Machine

/-- The time an edge `d` microseconds after time `t` finds elapsed (R111). -/
theorem elapsed_ofNat (t d : Nat) (h : d < 2 ^ 32) :
    elapsed (BitVec.ofNat 32 (t + d)) (BitVec.ofNat 32 t) = d := by
  simp [elapsed, BitVec.toNat_sub]; omega

/-- The elapsed time of an edge at `nowAfter` (R111). -/
theorem elapsed_nowAfter (s : State) (e : Nat) (h : e < 2 ^ 32) :
    elapsed (s.nowAfter e) s.lastTs = e := by
  simp [elapsed, State.nowAfter]; omega

/-- Every list of operations runs through (R240) and leaves what is yet to arrive alone. -/
theorem runInstrs_completes (is : List Instr) (s : State) :
    ∃ t, runInstrs is s = .next t ∧ t.inbox = s.inbox ∧ t.params = s.params := by
  induction is generalizing s with
  | nil => exact ⟨s, rfl, rfl, rfl⟩
  | cons i is ih =>
    obtain ⟨t, h1, h2, h3⟩ := exec_completes i { s with rdata := none }
    obtain ⟨u, h4, h5, h6⟩ := ih t
    exact ⟨u, by simp only [runInstrs, h1, h4], h5.trans h2, h6.trans h3⟩

/-- Operations run one list after another. -/
theorem runInstrs_append (l1 l2 : List Instr) (s u : State) (h : runInstrs l1 s = .next u) :
    runInstrs (l1 ++ l2) s = runInstrs l2 u := by
  induction l1 generalizing s with
  | nil => cases h; rfl
  | cons i l ih =>
    obtain ⟨t, ht, _⟩ := exec_completes i { s with rdata := none }
    simp only [List.cons_append, runInstrs, ht] at h ⊢
    exact ih t h

/-- The step of an operation, when its word is the next to arrive. -/
theorem step_encoded (i : Instr) (s : State) (rest : List Arrival)
    (hd : decode s.params.hasBatch (encode i) = i) :
    step { s with inbox := arrivalOf (encode i) :: rest } =
      exec i { s with inbox := rest, rdata := none } := by
  cases he : encode i with
  | e w =>
    rw [step_edge _ w rest rfl]
    rw [he, decode] at hd
    rw [hd]; rfl
  | t w =>
    rw [step_word _ w none rest rfl]
    rw [he, decode] at hd
    exact congrArg (fun j => exec j { s with inbox := rest, rdata := none }) hd

/-- One armed edge at the head of a list, when its row is known (R110). -/
theorem runInstrs_edge (s : State) (t d : Nat) (level : Level) (is : List Instr) (r : TableRow)
    (ha : s.armed = true) (hl : s.lastTs = BitVec.ofNat 32 t) (hd : d < 2 ^ 32)
    (hr : edgeRow s.decodeState d level = r) :
    runInstrs (.edge (BitVec.ofNat 32 (t + d)) level :: is) s =
      runInstrs is (applyRow r { s with rdata := none, lastTs := BitVec.ofNat 32 (t + d) }) := by
  have h := exec_edge_armed (BitVec.ofNat 32 (t + d)) level { s with rdata := none } ha
  have he : elapsed (BitVec.ofNat 32 (t + d)) s.lastTs = d := by rw [hl, elapsed_ofNat t d hd]
  simp only [decodeStep, he] at h
  simp only [runInstrs, h]
  subst hr; rfl

/-- The polarity of a fed train repeats every two pulses (R213). -/
theorem feedFrom_add_two (t i : Nat) (train : List Nat) :
    feedFrom t (i + 2) train = feedFrom t i train := by
  induction train generalizing t i with
  | nil => rfl
  | cons d ds ih =>
    simp only [feedFrom, Nat.add_mod_right, show i + 2 + 1 = i + 1 + 2 by omega, ih]

/-- A mark ends with a rising level (R213). -/
theorem feedFrom_mark (t d : Nat) (ds : List Nat) :
    feedFrom t 0 (d :: ds) = .edge (BitVec.ofNat 32 (t + d)) .high :: feedFrom (t + d) 1 ds := rfl

/-- A gap ends with a falling level (R213). -/
theorem feedFrom_gap (t d : Nat) (ds : List Nat) :
    feedFrom t 1 (d :: ds) = .edge (BitVec.ofNat 32 (t + d)) .low :: feedFrom (t + d) 0 ds := by
  rw [feedFrom, show 1 + 1 = 0 + 2 from rfl, feedFrom_add_two]; rfl

theorem feedFrom_length (t i : Nat) (train : List Nat) : (feedFrom t i train).length = train.length := by
  induction train generalizing t i with
  | nil => rfl
  | cons d ds ih => simp [feedFrom, ih]

theorem dataPulses_length (b : List Bool) : (dataPulses b).length = 2 * b.length := by
  induction b with
  | nil => rfl
  | cons x xs ih => simp [dataPulses, ih]; omega

/-- Extraction looks at the parity of a position only (R187). -/
theorem extractFrom_add_two (j : Nat) (l : List Nat) : extractFrom (j + 2) l = extractFrom j l := by
  induction l generalizing j with
  | nil => rfl
  | cons g l ih =>
    simp only [extractFrom, show j + 2 + 1 = j + 1 + 2 by omega, ih, Nat.add_mod_right]

/-- Extraction is decoding the gaps, which stand at the odd positions (R187). -/
theorem extractFrom_zero : ∀ l : List Nat, extractFrom 0 l = decodeGaps (gapsOf l)
  | [] => rfl
  | [_] => rfl
  | m :: g :: l => by
    have h := extractFrom_zero l
    simp only [extractFrom, gapsOf, extractFrom_add_two]
    rw [h]
    by_cases h1 : g < 900
    · simp [decodeGaps, h1, show ¬ 2000 ≤ g by omega]
    · by_cases h2 : g < 2000
      · simp [decodeGaps, h1, h2]
      · simp [decodeGaps, h1, h2, Nat.le_of_not_lt h2]

/-- A word offset as a byte address (R51). -/
theorem offsetOf_word (base k : Nat) (h : k < 256) : offsetOf base (base + 4 * k) = .ok (BitVec.ofNat 8 k) := by
  rw [offsetOf, if_neg (by omega), if_neg (by omega)]
  congr 2; omega

/-- Little-endian assembly as a number (R52). -/
theorem leWord_eq (b0 b1 b2 b3 : Byte) :
    leWord b0 b1 b2 b3 =
      BitVec.ofNat 32 (b0.toNat + 2 ^ 8 * b1.toNat + 2 ^ 16 * b2.toNat + 2 ^ 24 * b3.toNat) := by
  apply BitVec.eq_of_toNat_eq
  have h0 := b0.isLt
  have h1 := b1.isLt
  have h2 := b2.isLt
  simp only [leWord, BitVec.toNat_append, BitVec.toNat_ofNat]
  rw [← Nat.shiftLeft_add_eq_or_of_lt h2, ← Nat.shiftLeft_add_eq_or_of_lt h1,
    ← Nat.shiftLeft_add_eq_or_of_lt h0]
  simp only [Nat.shiftLeft_eq]
  omega

end Sys2Proof.Machine
end

