-- ==== Sys2Proof/Laws/Exchange.lean ====
section
/-! SUPPORT. What the host's reference procedures can do, said once for each. -/

namespace Sys2Proof.Machine

/-- An operation is its meaning, with the response port free (R240). -/
theorem applyOp_next (i : Instr) (s t : State) (h : exec i { s with rdata := none } = .next t) :
    applyOp i s = t := by
  simp only [applyOp, h]

@[simp] theorem applyOp_disarm (s : State) :
    applyOp disarmOp s = { s with armed := false, rdata := none } := rfl

@[simp] theorem applyOp_arm (s : State) : applyOp armOp s = { s with armed := true, rdata := none } := rfl

@[simp] theorem applyOp_resetSession (s : State) :
    applyOp resetSessionOp s =
      { s with decodeState := .wait, accBits := 0, accCount := 0, rdata := none } := rfl

/-- CONSUME in EndOfMessage (R155). -/
theorem applyOp_consume_eom (s : State) (h : s.decodeState = .eom) :
    applyOp consumeOp s = { s with decodeState := .wait, accBits := 0, accCount := 0, rdata := none } :=
  applyOp_next _ _ _ (by simp only [consumeOp, exec, execCmdConsume, h, if_true]; rfl)

/-- CONSUME in every other state (R155, R164). -/
theorem applyOp_consume_other (s : State) (h : s.decodeState ≠ .eom) :
    applyOp consumeOp s = { s with rdata := none } :=
  applyOp_next _ _ _ (by simp only [consumeOp, exec, execCmdConsume, h, if_false])

/-- A poll answers whether STATE is EndOfMessage and changes the response port only (R24, R88). -/
theorem poll_eq (s : State) :
    poll s = ({ s with rdata := some s.statusWord }, decide (s.decodeState = .eom)) := by
  refine Prod.ext rfl ?_
  show (State.statusWord s).getLsbD 3 = _
  simp only [State.statusWord, State.eomFlag]
  cases s.armed <;> cases s.decodeState <;> rfl

/-- The first of several edges. -/
theorem afterEdges_cons (s : State) (p : Word × Level) (edges : List (Word × Level)) :
    s.afterEdges (p :: edges) = (applyOp (.edge p.1 p.2) s).afterEdges edges := rfl

@[simp] theorem afterEdges_nil (s : State) : s.afterEdges [] = s := rfl

/-- Edges in order are operations in order (R57). -/
theorem runInstrs_edgeOps (edges : List (Word × Level)) (s : State) :
    runInstrs (edgeOps edges) s = .next (s.afterEdges edges) := by
  induction edges generalizing s with
  | nil => rfl
  | cons p edges ih =>
    obtain ⟨t, ht, _⟩ := exec_completes (.edge p.1 p.2) { s with rdata := none }
    rw [afterEdges_cons, applyOp_next _ _ _ ht, ← ih]
    simp only [edgeOps, List.map_cons, runInstrs, ht]

/-- Edges at a disarmed receiver are lost (R110). -/
theorem afterEdges_disarmed (edges : List (Word × Level)) (s : State) (h : s.armed = false)
    (hr : s.rdata = none) : s.afterEdges edges = s := by
  have hs : ({ s with rdata := none } : State) = s := by rw [← hr]
  induction edges with
  | nil => rfl
  | cons p edges ih =>
    rw [afterEdges_cons, applyOp_next _ _ s ((exec_edge_disarmed _ _ _ (by exact h)).trans (by rw [hs])), ih]

/-- The state in which an attempt calls the transmitter: disarmed, in WAIT (R221 step 1). -/
def State.readyToSend (s : State) : State :=
  { s with armed := false, decodeState := .wait, accBits := 0, accCount := 0, rdata := none }

/-- The four ways an attempt goes (R221, R223). Whatever edges arrive during the transmission are lost. -/
theorem attempt_cases (time : HostTiming) (message : List Char) (a : AttemptScript) (s : State) :
    (∃ e, encodeSymbols message = .error e ∧
      attempt time message a s =
        some ⟨.invalidMessage e, [], (s.afterEdges a.before).readyToSend⟩) ∨
    (∃ train, encodeSymbols message = .ok train ∧ a.transmission.answer = .failure ∧
      attempt time message a s =
        some ⟨.transmissionFailure, [⟨train, .failure⟩], (s.afterEdges a.before).readyToSend⟩) ∨
    (∃ train, encodeSymbols message = .ok train ∧ a.transmission.answer = .success ∧
      attempt time message a s =
        (awaitReply time 0 a.polls { (s.afterEdges a.before).readyToSend with armed := true }).map
          (fun p => ⟨if p.1 then .replied else .receiveTimeout, [⟨train, .success⟩], p.2⟩)) := by
  have hready : applyAll [disarmOp, resetSessionOp] (s.afterEdges a.before) =
      (s.afterEdges a.before).readyToSend := rfl
  have hlost : (s.afterEdges a.before).readyToSend.afterEdges a.transmission.echo =
      (s.afterEdges a.before).readyToSend := afterEdges_disarmed _ _ rfl rfl
  unfold attempt
  cases he : encodeSymbols message with
  | error e => exact .inl ⟨e, rfl, rfl⟩
  | ok train =>
    simp only [hready, transmit, hlost]
    cases ha : a.transmission.answer with
    | failure => exact .inr (.inl ⟨train, rfl, rfl, rfl⟩)
    | success => exact .inr (.inr ⟨train, rfl, rfl, rfl⟩)

/-- What one attempt of `send_and_await` leads to: its result, or the next attempt after a time-out with
retries left (R221, R223). -/
theorem sendAndAwait_cons (time : HostTiming) (message : List Char) (retries : Nat) (a : AttemptScript)
    (rest : List AttemptScript) (s : State) :
    (attempt time message a s = none ∧ sendAndAwait time message retries (a :: rest) s = none) ∨
    ∃ r, attempt time message a s = some r ∧
      ((r.outcome ≠ .receiveTimeout ∧
          sendAndAwait time message retries (a :: rest) s = some ⟨r.outcome, r.calls, r.state, rest⟩) ∨
        (r.outcome = .receiveTimeout ∧ retries = 0 ∧
          sendAndAwait time message retries (a :: rest) s = some ⟨r.outcome, r.calls, r.state, rest⟩) ∨
        ∃ n, r.outcome = .receiveTimeout ∧ retries = n + 1 ∧
          sendAndAwait time message retries (a :: rest) s =
            (sendAndAwait time message n rest r.state).map (SendResult.precededBy r.calls)) := by
  cases h : attempt time message a s with
  | none => exact .inl ⟨rfl, by simp only [sendAndAwait, h]⟩
  | some r =>
    refine .inr ⟨r, rfl, ?_⟩
    by_cases ho : r.outcome = .receiveTimeout
    · cases retries with
      | zero => exact .inr (.inl ⟨ho, rfl, by simp only [sendAndAwait, h, ho, if_true]⟩)
      | succ n => exact .inr (.inr ⟨n, ho, rfl, by simp only [sendAndAwait, h, ho, if_true]⟩)
    · exact .inl ⟨ho, by simp only [sendAndAwait, h, ho, if_false]⟩

end Sys2Proof.Machine
end

