-- ==== Sys2Proof/Laws/PerInstr.lean ====
section
/-! SUPPORT. Facts of the operations as syntax, one lemma per constructor. -/

namespace Sys2Proof.Laws

/-- The mask of an operation's row of the opcode table (R100); EDGE has all of format E (R82). -/
def rowMask : Instr → TWord
  | .edge _ _ => 0x00000000000
  | .rdCtrl => 0x1FF00000000
  | .wrCtrl _ => 0x1FF00000000
  | .cmdResetSession _ => 0x1FF00000001
  | .cmdConsume _ => 0x1FF00000003
  | .cmdNop _ => 0x1FF00000003
  | .rdStatus => 0x1FF00000000
  | .rdPubCount => 0x1FF00000000
  | .rdAccCount => 0x1FF00000000
  | .rdLastTs => 0x1FF00000000
  | .rdParams => 0x1FF00000000
  | .rdPubBits _ => 0x1C000000000
  | .bdClear _ => 0x1FF00000003
  | .bdRun _ => 0x1FF00000003
  | .bdClearRun _ => 0x1FF00000003
  | .bdCtrlNop _ => 0x1FF00000003
  | .bdPush _ => 0x1FF00000000
  | .rdBdStatus => 0x1FF00000000
  | .rdBdLen => 0x1FF00000000
  | .rdBdCount => 0x1FF00000000
  | .rdBdDrops => 0x1FF00000000
  | .rdBdBits _ => 0x1C000000000
  | .rsvRd _ => 0x10000000000
  | .rsvWr _ _ => 0x10000000000

/-- The match of an operation's row of the opcode table (R100). -/
def rowMatch : Instr → TWord
  | .edge _ _ => 0x00000000000
  | .rdCtrl => 0x00000000000
  | .wrCtrl _ => 0x10000000000
  | .cmdResetSession _ => 0x10100000001
  | .cmdConsume _ => 0x10100000002
  | .cmdNop _ => 0x10100000000
  | .rdStatus => 0x00200000000
  | .rdPubCount => 0x00300000000
  | .rdAccCount => 0x00400000000
  | .rdLastTs => 0x00500000000
  | .rdParams => 0x00600000000
  | .rdPubBits _ => 0x04000000000
  | .bdClear _ => 0x11000000001
  | .bdRun _ => 0x11000000002
  | .bdClearRun _ => 0x11000000003
  | .bdCtrlNop _ => 0x11000000000
  | .bdPush _ => 0x11100000000
  | .rdBdStatus => 0x01200000000
  | .rdBdLen => 0x01300000000
  | .rdBdCount => 0x01400000000
  | .rdBdDrops => 0x01500000000
  | .rdBdBits _ => 0x08000000000
  | .rsvRd _ => 0x00000000000
  | .rsvWr _ _ => 0x10000000000

/-- The word is one of the row: of format E, or a format T word with (word & mask) = match (R100). -/
def inRow (i : Instr) : InputWord → Prop
  | .e _ => rowMask i = 0
  | .t w => w &&& rowMask i = rowMatch i

/-- The encoder writes a well-formed operation into its own row of the opcode table. -/
def EncodesInRow.Statement (i : Instr) : Prop :=
  ∀ hasBatch : Bool, i.wf hasBatch = true → inRow i (encode i)

/-- A format T word is one of a row when W and OFF match its upper nine bits, and DATA the rest. -/
theorem tWord_inRow (w : Bool) (off : Offset) (data : Word) (mhi phi : BitVec 9) (mlo plo : Word)
    (h1 : BitVec.ofBool w ++ off &&& mhi = phi) (h2 : data &&& mlo = plo) :
    tWord w off data &&& (mhi ++ mlo : BitVec 41) = (phi ++ plo : BitVec 41) := by
  have h := maskTest w off data mhi phi mlo plo
  rw [h1, h2, beq_self_eq_true, beq_self_eq_true] at h
  exact eq_of_beq h

/-- The mask 3 keeps the command bits. -/
theorem and_three (data : Word) : data &&& 3 = (commandBits data).setWidth 32 := by
  refine BitVec.eq_of_getLsbD_eq fun i hi => ?_
  rw [show (3 : Word) = (3 : BitVec 2).setWidth 32 from rfl]
  simp only [commandBits, BitVec.getLsbD_and, BitVec.getLsbD_setWidth, hi, decide_true, Bool.true_and]
  rcases i with _ | _ | i <;> simp

/-- The mask 1 keeps DATA[0]. -/
theorem and_one (data : Word) (h : data.getLsbD 0 = true) : data &&& 1 = 1 := by
  refine BitVec.eq_of_getLsbD_eq fun i hi => ?_
  rw [BitVec.getLsbD_and]
  rcases i with _ | i
  · rw [h]; rfl
  · simp

theorem EncodesInRow.edge (now : Word) (level : Level) : EncodesInRow.Statement (.edge now level) :=
  fun _ _ => rfl

theorem EncodesInRow.rdCtrl : EncodesInRow.Statement .rdCtrl :=
  fun _ _ => tWord_inRow false 0x0 0 0x1FF 0x0 0 0 rfl rfl

theorem EncodesInRow.wrCtrl (d : Word) : EncodesInRow.Statement (.wrCtrl d) :=
  fun _ _ => tWord_inRow true 0x0 d 0x1FF 0x100 0 0 rfl (BitVec.and_zero)

theorem EncodesInRow.cmdResetSession (d : Word) : EncodesInRow.Statement (.cmdResetSession d) :=
  fun _ h => tWord_inRow true 0x01 d 0x1FF 0x101 1 1 rfl (and_one d h)

theorem EncodesInRow.cmdConsume (d : Word) : EncodesInRow.Statement (.cmdConsume d) :=
  fun _ h => tWord_inRow true 0x1 d 0x1FF 0x101 3 2 rfl
    (by rw [and_three, eq_of_beq h]; rfl)

theorem EncodesInRow.cmdNop (d : Word) : EncodesInRow.Statement (.cmdNop d) :=
  fun _ h => tWord_inRow true 0x1 d 0x1FF 0x101 3 0 rfl
    (by rw [and_three, eq_of_beq h]; rfl)

theorem EncodesInRow.rdStatus : EncodesInRow.Statement .rdStatus :=
  fun _ _ => tWord_inRow false 0x2 0 0x1FF 0x2 0 0 rfl rfl

theorem EncodesInRow.rdPubCount : EncodesInRow.Statement .rdPubCount :=
  fun _ _ => tWord_inRow false 0x3 0 0x1FF 0x3 0 0 rfl rfl

theorem EncodesInRow.rdAccCount : EncodesInRow.Statement .rdAccCount :=
  fun _ _ => tWord_inRow false 0x4 0 0x1FF 0x4 0 0 rfl rfl

theorem EncodesInRow.rdLastTs : EncodesInRow.Statement .rdLastTs :=
  fun _ _ => tWord_inRow false 0x5 0 0x1FF 0x5 0 0 rfl rfl

theorem EncodesInRow.rdParams : EncodesInRow.Statement .rdParams :=
  fun _ _ => tWord_inRow false 0x6 0 0x1FF 0x6 0 0 rfl rfl

theorem EncodesInRow.rdPubBits (k : BitVec 6) : EncodesInRow.Statement (.rdPubBits k) :=
  fun _ h => tWord_inRow false (pubOffset k) 0 0x1C0 0x040 0 0 (by clear h; revert k; decide) rfl

theorem EncodesInRow.bdClear (d : Word) : EncodesInRow.Statement (.bdClear d) :=
  fun _ h => tWord_inRow true 0x10 d 0x1FF 0x110 3 1 rfl
    (by rw [and_three, eq_of_beq (Bool.and_eq_true_iff.1 h).2]; rfl)

theorem EncodesInRow.bdRun (d : Word) : EncodesInRow.Statement (.bdRun d) :=
  fun _ h => tWord_inRow true 0x10 d 0x1FF 0x110 3 2 rfl
    (by rw [and_three, eq_of_beq (Bool.and_eq_true_iff.1 h).2]; rfl)

theorem EncodesInRow.bdClearRun (d : Word) : EncodesInRow.Statement (.bdClearRun d) :=
  fun _ h => tWord_inRow true 0x10 d 0x1FF 0x110 3 3 rfl
    (by rw [and_three, eq_of_beq (Bool.and_eq_true_iff.1 h).2]; rfl)

theorem EncodesInRow.bdCtrlNop (d : Word) : EncodesInRow.Statement (.bdCtrlNop d) :=
  fun _ h => tWord_inRow true 0x10 d 0x1FF 0x110 3 0 rfl
    (by rw [and_three, eq_of_beq (Bool.and_eq_true_iff.1 h).2]; rfl)

theorem EncodesInRow.bdPush (d : Word) : EncodesInRow.Statement (.bdPush d) :=
  fun _ _ => tWord_inRow true 0x11 d 0x1FF 0x111 0 0 rfl (BitVec.and_zero)

theorem EncodesInRow.rdBdStatus : EncodesInRow.Statement .rdBdStatus :=
  fun _ _ => tWord_inRow false 0x12 0 0x1FF 0x12 0 0 rfl rfl

theorem EncodesInRow.rdBdLen : EncodesInRow.Statement .rdBdLen :=
  fun _ _ => tWord_inRow false 0x13 0 0x1FF 0x13 0 0 rfl rfl

theorem EncodesInRow.rdBdCount : EncodesInRow.Statement .rdBdCount :=
  fun _ _ => tWord_inRow false 0x14 0 0x1FF 0x14 0 0 rfl rfl

theorem EncodesInRow.rdBdDrops : EncodesInRow.Statement .rdBdDrops :=
  fun _ _ => tWord_inRow false 0x15 0 0x1FF 0x15 0 0 rfl rfl

theorem EncodesInRow.rdBdBits (k : BitVec 6) : EncodesInRow.Statement (.rdBdBits k) :=
  fun _ h => tWord_inRow false (bdOffset k) 0 0x1C0 0x080 0 0 (by clear h; revert k; decide) rfl

theorem EncodesInRow.rsvRd (off : Offset) : EncodesInRow.Statement (.rsvRd off) :=
  fun _ h => tWord_inRow false off 0 0x100 0x000 0 0 (by clear h; revert off; decide) rfl

theorem EncodesInRow.rsvWr (off : Offset) (d : Word) : EncodesInRow.Statement (.rsvWr off d) :=
  fun _ h => tWord_inRow true off d 0x100 0x100 0 0 (by clear h; revert off; decide) BitVec.and_zero

end Sys2Proof.Laws
end

