-- ==== Sys2Proof/Tests/Slice0.lean ====
section
/-! SUPPORT. Tests: expected values are those of 95_test_vectors.md (L1 to L3) and of the rules' worked
examples, named beside each. The witnesses show that the hypotheses of the statements can be met. -/

namespace Sys2Proof.Tests

open Sys2Proof Sys2Proof.Machine

/-! ### Well-formedness: each check refuses an ill-formed operation (R100, R104) -/

theorem test_wf_resetSession_needs_bit0 : Instr.wf true (.cmdResetSession 2) = false := by decide
theorem test_wf_consume_needs_10 : Instr.wf true (.cmdConsume 3) = false := by decide
theorem test_wf_nop_needs_00 : Instr.wf true (.cmdNop 2) = false := by decide
theorem test_wf_clear_needs_01 : Instr.wf true (.bdClear 3) = false := by decide
theorem test_wf_run_needs_10 : Instr.wf true (.bdRun 1) = false := by decide
theorem test_wf_clearRun_needs_11 : Instr.wf true (.bdClearRun 2) = false := by decide
theorem test_wf_bdNop_needs_00 : Instr.wf true (.bdCtrlNop 1) = false := by decide
theorem test_wf_rsvRd_needs_free_offset : Instr.wf true (.rsvRd 0x15) = false := by decide
theorem test_wf_rsvWr_needs_free_offset : Instr.wf true (.rsvWr 0x11 0) = false := by decide
theorem test_wf_batch_needs_unit :
    [Instr.bdClear 1, .bdRun 2, .bdClearRun 3, .bdCtrlNop 0, .bdPush 0, .rdBdStatus, .rdBdLen, .rdBdCount,
      .rdBdDrops, .rdBdBits 0].all (fun i => i.wf true && !i.wf false) = true := by decide

/-! ### Decoding: words written out from R81 and R100 (most are those of L2.4, L2.5 and L3) -/

theorem test_decode_edge : decodeTableWord 40 0x10000E86C = some (.edge 59500 .high) := by decide
theorem test_decode_edge_low : decodeTableWord 40 0x00000C350 = some (.edge 50000 .low) := by decide
theorem test_decode_rdCtrl : decodeTableWord 48 0x00000000000 = some .rdCtrl := by decide
theorem test_decode_wrCtrl : decodeTableWord 48 0x100FFFFFFFE = some (.wrCtrl 0xFFFFFFFE) := by decide
theorem test_decode_resetSession : decodeTableWord 48 0x10100000003 = some (.cmdResetSession 3) := by
  decide
theorem test_decode_consume : decodeTableWord 48 0x101FFFFFFFE = some (.cmdConsume 0xFFFFFFFE) := by
  decide
theorem test_decode_nop : decodeTableWord 48 0x1010000000C = some (.cmdNop 0xC) := by decide
theorem test_decode_rdStatus : decodeTableWord 48 0x002FFFFFFFF = some .rdStatus := by decide
theorem test_decode_rdPubCount : decodeTableWord 48 0x00300000000 = some .rdPubCount := by decide
theorem test_decode_rdAccCount : decodeTableWord 48 0x00400000000 = some .rdAccCount := by decide
theorem test_decode_rdLastTs : decodeTableWord 48 0x00500000000 = some .rdLastTs := by decide
theorem test_decode_rdParams : decodeTableWord 48 0x00600000000 = some .rdParams := by decide
theorem test_decode_rdPubBits : decodeTableWord 48 0x07F00000000 = some (.rdPubBits 63) := by decide
theorem test_decode_bdClear : decodeTableWord 48 0x11000000001 = some (.bdClear 1) := by decide
theorem test_decode_bdRun : decodeTableWord 48 0x11000000002 = some (.bdRun 2) := by decide
theorem test_decode_bdClearRun : decodeTableWord 48 0x110FFFFFFFF = some (.bdClearRun 0xFFFFFFFF) := by
  decide
theorem test_decode_bdCtrlNop : decodeTableWord 48 0x11000000004 = some (.bdCtrlNop 4) := by decide
theorem test_decode_bdPush : decodeTableWord 48 0x11100000258 = some (.bdPush 600) := by decide
theorem test_decode_rdBdStatus : decodeTableWord 48 0x01200000000 = some .rdBdStatus := by decide
theorem test_decode_rdBdLen : decodeTableWord 48 0x01300000000 = some .rdBdLen := by decide
theorem test_decode_rdBdCount : decodeTableWord 48 0x01400000000 = some .rdBdCount := by decide
theorem test_decode_rdBdDrops : decodeTableWord 48 0x01500000000 = some .rdBdDrops := by decide
theorem test_decode_rdBdBits : decodeTableWord 48 0x0BF00000000 = some (.rdBdBits 63) := by decide
theorem test_decode_rsvRd : decodeTableWord 48 0x0C000000000 = some (.rsvRd 0xC0) := by decide
theorem test_decode_rsvRd_writeOnly : decodeTableWord 48 0x01100000000 = some (.rsvRd 0x11) := by decide
theorem test_decode_rsvWr : decodeTableWord 48 0x11200000001 = some (.rsvWr 0x12 1) := by decide
/-- R104: without the batch unit. -/
theorem test_decode_noBatch : decodeT false 0x11100000258 = .rsvWr 0x11 600 := by decide

/-! ### One operation on a small state -/

/-- The default instance, armed, in a decode state with an accumulated message; LAST_TS is 0. -/
def session (q : DecodeState) (acc : List Bool) : State :=
  { State.reset with
    armed := true, decodeState := q, accBits := pack acc, accCount := BitVec.ofNat 16 acc.length }

/-- The state P1 leaves after its message "10": EOM, LAST_TS = 69700 (L3, R133). -/
def message10 : State :=
  { session .eom [true, false] with lastTs := 69700, pubBits := pack [true, false], pubCount := 2 }

/-- The default instance with a pushed pulse train. -/
def pushed (train : List Word) : State :=
  { State.reset with bdBuf := train, bdLen := BitVec.ofNat 16 train.length }

/-- The state after an operation. -/
def after (i : Instr) (s : State) : Option State :=
  match exec i s with
  | .next t => some t
  | .fault _ => none
  | .refused _ => none

/-- RDATA of an operation. -/
def answer (i : Instr) (s : State) : Option Word := (after i s).bind (·.rdata)

/-- L2.2: e is taken modulo 2^32. -/
theorem test_edge_wraps :
    (after (.edge 0x2400 .high) { session .wait [] with lastTs := 0xFFFFFF00 }).map
      (fun t => (t.decodeState, t.lastTs)) = some (.lag, 0x2400) := by decide
/-- L2.1, state DSS, e = 800: the end mark publishes "10". -/
theorem test_edge_publishes :
    (after (.edge 800 .low) (session .dss [true])).map (fun t => (t.decodeState, t.accCount, t.pubCount)) =
      some (.eom, 2, 2) := by decide
/-- L2.4. -/
theorem test_rdCtrl_armed : answer .rdCtrl (session .wait []) = some 1 := by decide
/-- L2.4: bit 0 of DATA only. -/
theorem test_wrCtrl_bit0 : (after (.wrCtrl 2) (session .wait [])).map (·.armed) = some false := by decide
/-- L2.4: RESET wins, the published slot stays. -/
theorem test_resetSession :
    (after (.cmdResetSession 3) message10).map (fun t => (t.decodeState, t.accCount, t.pubCount)) =
      some (.wait, 0, 2) := by decide
/-- L2.4: CONSUME from EOM. -/
theorem test_consume_eom :
    (after (.cmdConsume 2) message10).map (fun t => (t.decodeState, t.accCount, t.pubCount)) =
      some (.wait, 0, 2) := by decide
/-- L2.4: CONSUME is ignored outside EOM. -/
theorem test_consume_lag : (after (.cmdConsume 2) (session .lag [])).map (·.decodeState) = some .lag := by
  decide
/-- L2.4. -/
theorem test_nop : after (.cmdNop 4) (session .dss [true]) = some (session .dss [true]) := rfl
/-- L2.4. -/
theorem test_rdStatus_eom : answer .rdStatus message10 = some 0x1E := by decide
/-- L2.4. -/
theorem test_rdStatus_disarmed :
    answer .rdStatus { State.reset with decodeState := .lead } = some 2 := by decide
/-- L2.4. -/
theorem test_rdPubCount : answer .rdPubCount message10 = some 2 := by decide
/-- L2.4. -/
theorem test_rdAccCount : answer .rdAccCount (session .dls [false, true]) = some 2 := by decide
/-- L2.4. -/
theorem test_rdLastTs : answer .rdLastTs message10 = some 0x11044 := by decide
/-- R91, L2.4. -/
theorem test_rdParams : answer .rdParams State.reset = some 0x01030080 := by decide
/-- R91: without the batch unit the upper half reads 0. -/
theorem test_rdParams_noBatch :
    answer .rdParams (State.resetWith ⟨128, 259, false⟩) = some 0x00000080 := by decide
/-- L2.4: the second word of 40 bits, bit i = 1 iff i mod 3 = 0. -/
theorem test_rdPubBits_word1 :
    answer (.rdPubBits 1) { State.reset with pubBits := 0x9249249249, pubCount := 40 } = some 0x92 := by
  decide +kernel
/-- L2.4: 32k = 128 is at the capacity. -/
theorem test_rdPubBits_beyond :
    answer (.rdPubBits 4) { State.reset with pubBits := BitVec.ofNat 2048 (2 ^ 129) } = some 0 := by decide
/-- R180: the push order is the train order. -/
theorem test_bdPush :
    (after (.bdPush 6000) (pushed [9500])).map (·.train) = some [9500, 6000] := by decide
/-- R180, L2.6: a push into a full buffer. -/
theorem test_bdPush_full :
    (after (.bdPush 1) { State.reset with bdLen := 259 }).map (fun t => (t.bdLen, t.bdOvf)) =
      some (259, true) := by decide
/-- R181. -/
theorem test_bdClear :
    (after (.bdClear 1) { pushed [9500] with bdCount := 2, bdOvf := true }).map
      (fun t => (t.bdLen, t.bdCount, t.bdOvf)) = some (0, 0, false) := by decide
/-- R182's worked example. -/
theorem test_bdRun :
    (after (.bdRun 2) (pushed [9500, 6000, 600, 600, 600, 1200, 1200])).map
      (fun t => (t.bdCount, t.bdBits, t.bdDrops)) = some (2, 2, 0) := by decide +kernel
/-- R195's worked example. -/
theorem test_bdRun_drops :
    (after (.bdRun 2) (pushed [9500, 6000, 600, 2500, 600, 600, 1200])).map
      (fun t => (t.bdCount, t.bdDrops)) = some (1, 1) := by decide
/-- R183. -/
theorem test_bdClearRun :
    (after (.bdClearRun 3) { pushed [9500, 6000, 600, 1200] with bdCount := 2 }).map
      (fun t => (t.bdLen, t.bdCount)) = some (0, 0) := by decide
/-- R184. -/
theorem test_bdCtrlNop : after (.bdCtrlNop 0) (pushed [9500]) = some (pushed [9500]) := rfl
/-- R191. -/
theorem test_rdBdStatus : answer .rdBdStatus { State.reset with bdOvf := true } = some 1 := by decide
/-- R192. -/
theorem test_rdBdLen : answer .rdBdLen { State.reset with bdLen := 7 } = some 7 := by decide
/-- R193. -/
theorem test_rdBdCount : answer .rdBdCount { State.reset with bdCount := 2 } = some 2 := by decide
/-- R195. -/
theorem test_rdBdDrops : answer .rdBdDrops { State.reset with bdDrops := 1 } = some 1 := by decide
/-- R194: bits "01". -/
theorem test_rdBdBits : answer (.rdBdBits 0) { State.reset with bdBits := 2, bdCount := 2 } = some 2 := by
  decide +kernel
/-- R162. -/
theorem test_rsvRd : answer (.rsvRd 0x07) message10 = some 0 := by decide
/-- L2.4: WR STATUS, 6. -/
theorem test_rsvWr : after (.rsvWr 0x02 6) message10 = some message10 := rfl

/-! ### The classifier, the encoder and the step -/

/-- L2.6: 40 short pulses are not repaired. -/
theorem test_repair_40 : fromPulseTrain (List.replicate 40 600) = ⟨[], 0⟩ := by decide
/-- L2.6: 41 short pulses are. -/
theorem test_repair_41 : fromPulseTrain (List.replicate 41 600) = ⟨List.replicate 20 false, 0⟩ := by
  decide
/-- L2.6: the second repair case. -/
theorem test_repair_mark_only :
    fromPulseTrain (6000 :: List.replicate 40 600) = ⟨List.replicate 20 false, 0⟩ := by decide
/-- L1.2. -/
theorem test_malformed_header : fromPulseTrain [100, 100] = ⟨[], 0⟩ := by decide
/-- L2.7. -/
theorem test_toPulseTrain : toPulseTrain [true, false] = [9500, 6000, 600, 1200, 600, 600, 1200] := by
  decide
/-- L2.7. -/
theorem test_invalid_symbol : encodeSymbols ['1', 'a', '0'] = .error ⟨1⟩ := by decide
/-- L2.7: FEED 1000 of the train of "1". -/
theorem test_feed :
    feed 1000 (toPulseTrain [true]) =
      [.edge 1000 .low, .edge 10500 .high, .edge 16500 .low, .edge 17100 .high, .edge 18300 .low,
        .edge 19500 .high] := by decide

/-- The state after one step. -/
def stepped (s : State) : Option State :=
  match step s with
  | .next t => some t
  | .fault _ => none
  | .refused _ => none

/-- The first instruction after reset: P1's line 1 and the host's way to present a word. -/
theorem test_step_first : (stepped (State.reset.withFetchWord 48 0x10000000001)).map (·.armed) = some true := by
  decide
/-- L2.2: a disarmed edge. -/
theorem test_step_disarmed_edge :
    (stepped (State.reset.withFetchWord 40 0x000001E61)).map (fun t => (t.lastTs, t.inbox)) =
      some (0, []) := by decide
/-- R58: a DISARM that arrives with an edge comes first. -/
theorem test_step_host_first :
    (stepped { session .wait [] with inbox := [⟨some (.word 0x10000000000), some 0x10000251C⟩] }).map
      (fun t => (t.armed, t.inbox)) = some (false, [⟨none, some 0x10000251C⟩]) := by decide
/-- R51: a 2-byte load is refused. -/
theorem test_step_refuses_halfword (a : Nat) :
    step { State.reset with inbox := [⟨some (.load a 2), none⟩] } = .refused (.access .notFourBytes) := rfl

/-! ### Witnesses: the hypotheses of each statement that has any are met, clause by clause -/

/-- A state about to receive one arrival. -/
def receiving (s : State) (a : Arrival) : State := { s with inbox := [a] }

theorem witness_StepRunsTheNextInput :
    (receiving message10 ⟨some (.word 0x10100000002), some 0x10000E86C⟩).inbox =
      ⟨some (.word 0x10100000002), some 0x10000E86C⟩ :: [] ∧
    (receiving message10 ⟨none, some 0x10000E86C⟩).inbox = ⟨none, some 0x10000E86C⟩ :: [] ∧
    message10.inbox = [] ∧ (receiving message10 ⟨none, none⟩).inbox = ⟨none, none⟩ :: [] :=
  ⟨rfl, rfl, rfl, rfl⟩

theorem witness_HostTransactionPrecedesSimultaneousEdge :
    (receiving message10 ⟨some (.word 0x10000000002), some 0x10001376C⟩).inbox =
      ⟨some (.word 0x10000000002), some 0x10001376C⟩ :: [] ∧
    decodeT true 0x10000000002 = .wrCtrl 2 ∧ (2 : Word).getLsbD 0 = false ∧
    decodeT true 0x10100000001 = .cmdResetSession 1 := ⟨rfl, by decide, by decide, by decide⟩

theorem witness_InputsApplyInOrder :
    ∀ i ∈ [Instr.wrCtrl 1, .edge 9500 .high, .bdPush 600, .cmdConsume 2, .rsvRd 0xFF],
      i.wf State.reset.params.hasBatch = true := by decide

theorem witness_DecodeInvertsEncode :
    Instr.wf true (.bdRun 0xFFFFFFFE) = true ∧ Instr.wf false (.rsvWr 0x10 3) = true := by decide

theorem witness_EncodeInvertsDecode : tW 0x1BF00000001 = true ∧ tW 0x0FFFFFFFFFF = false := by decide

theorem witness_RowsOfTheTableAreDisjoint :
    (∃ r ∈ tRows, r.selects true 0x10100000003 = true) ∧
    ∀ r ∈ tRows, r.selects true 0x0C000000000 = false := by decide

theorem witness_BatchWordsAreReservedWithoutBatch :
    (∀ off ∈ [(0x10 : Offset), 0x15, 0x80, 0xBF], (0x10 ≤ off ∧ off ≤ 0x15) ∨ (0x80 ≤ off ∧ off ≤ 0xBF)) ∧
    ∀ off ∈ [(0x0F : Offset), 0x16, 0x7F, 0xC0], ¬ ((0x10 ≤ off ∧ off ≤ 0x15) ∨ (0x80 ≤ off ∧ off ≤ 0xBF)) := by
  decide

theorem witness_ReadWordAnswersTheRegisterMap :
    (receiving message10 ⟨some (.word 0x002FFFFFFFF), none⟩).inbox =
      ⟨some (.word 0x002FFFFFFFF), none⟩ :: [] ∧ tW 0x002FFFFFFFF = false := ⟨rfl, by decide⟩

theorem witness_WriteWordWritesTheRegisterMap :
    (receiving message10 ⟨some (.word 0x111FFFFFFFF), some 5⟩).inbox =
      ⟨some (.word 0x111FFFFFFFF), some 5⟩ :: [] ∧ tW 0x111FFFFFFFF = true := ⟨rfl, by decide⟩

theorem witness_ReadsAndIdempotentWritesRepeat :
    isRead (.rdPubBits 63) = true ∧ isIdempotentWrite (.cmdConsume 2) = true ∧
    (∃ t, exec (.cmdConsume 2) message10 = .next t) ∧
    (State.reset.params.maxPulses ≤ 4096 ∧
      ({ State.reset with bdLen := 257 } : State).bdLen.toNat + 1 < State.reset.params.maxPulses) ∧
    ∃ t, exec (.bdPush 600) { State.reset with bdLen := 257 } = .next t :=
  ⟨rfl, rfl, ⟨_, rfl⟩, by decide, _, rfl⟩

theorem witness_ResetHoldsTheStatedValues : (0xBF : Offset) ≠ 0x06 := by decide

theorem witness_InvariantHoldsAtReset :
    Params.Valid ⟨128, 259, false⟩ ∧ Params.Valid ⟨2046, 4095, true⟩ ∧ Params.Valid ⟨2046, 4096, true⟩ := by
  decide

/-- A session in the middle of a message, with the end mark about to arrive, meets the invariants. -/
theorem witness_StepKeepsTheInvariant :
    (receiving (session .dss [true]) ⟨none, some 800⟩).Inv ∧
    ∃ t, step (receiving (session .dss [true]) ⟨none, some 800⟩) = .next t :=
  ⟨{ params_valid := by decide
     state_named := by decide
     acc_bounded := by decide
     acc_packed := pack_toNat_lt [true]
     acc_clear := by decide
     pub_bounded := by decide
     pub_packed := pack_toNat_lt []
     eom_published := fun h => absurd h (by decide)
     len_bounded := by decide
     len_written := by decide
     buf_bounded := by decide
     result_bounded := by decide
     result_packed := by simp [receiving, session, State.reset, State.resetWith] }, _, rfl⟩

theorem witness_StepKeepsAbsentBatchUnitAtReset :
    (∃ t, step (receiving (State.resetWith ⟨128, 259, false⟩) ⟨some (.word 0x11100000258), none⟩) = .next t) ∧
    (State.resetWith ⟨128, 259, false⟩).NoBatchInv ∧
    (State.resetWith ⟨128, 259, false⟩).params.hasBatch = false :=
  ⟨⟨_, rfl⟩, fun _ => ⟨rfl, rfl, rfl, rfl, rfl, rfl⟩, rfl⟩

theorem witness_WordAccessesReachTheRegisters (e : Option EWord) :
    (0 < 256 ∧ 255 < 256) ∧
    (receiving message10 ⟨some (.load (Config.irdecBase + 4 * 255) 4), e⟩).inbox =
      ⟨some (.load (Config.irdecBase + 4 * 255) 4), e⟩ :: [] ∧
    (receiving message10 ⟨some (.store (Config.irdecBase + 4 * 0) [1, 0, 0, 0]), e⟩).inbox =
      ⟨some (.store (Config.irdecBase + 4 * 0) [1, 0, 0, 0]), e⟩ :: [] := ⟨by decide, rfl, rfl⟩

theorem witness_EveryInputHasAnOutcome :
    (receiving message10 ⟨some (.load 0 1), none⟩).inbox = ⟨some (.load 0 1), none⟩ :: [] ∧
    transaction Config.irdecBase (.load 0 1) = .error .notFourBytes := ⟨rfl, rfl⟩

theorem witness_OtherAccessesAreRefused :
    (receiving message10 ⟨some (.load Config.irdecBase 2), none⟩).inbox =
      ⟨some (.load Config.irdecBase 2), none⟩ :: [] ∧ (2 : Nat) ≠ 4 ∧
    (receiving message10 ⟨some (.store (Config.irdecBase + 6) [1, 0, 0, 0]), none⟩).inbox =
      ⟨some (.store (Config.irdecBase + 6) [1, 0, 0, 0]), none⟩ :: [] ∧
    (∀ k < 256, Config.irdecBase + 6 ≠ Config.irdecBase + 4 * k) ∧ ([1, 0] : List Byte).length ≠ 4 ∧
    (receiving message10 ⟨some (.load (Config.irdecBase + 4 * 256) 4), none⟩).inbox =
      ⟨some (.load (Config.irdecBase + 4 * 256) 4), none⟩ :: [] ∧
    (∀ k < 256, Config.irdecBase + 4 * 256 ≠ Config.irdecBase + 4 * k) :=
  ⟨rfl, by decide, rfl, by omega, by decide, rfl, by omega⟩

theorem witness_MessageBitsInByteOrder :
    message10.params.maxBits ≤ 2046 ∧ 0 < message10.params.maxBits ∧ 127 < message10.params.maxBits := by
  decide

theorem witness_EdgeIsLostOrTakesOneDecodeStep :
    State.reset.armed = false ∧ (session .wait []).armed = true := ⟨rfl, rfl⟩

theorem witness_LeaderAndSpaceRows :
    (session .wait []).armed = true ∧ message10.armed = true ∧ 0 < 2 ^ 32 ∧ 4294967295 < 2 ^ 32 ∧
    (session .wait []).decodeState = .wait ∧ message10.decodeState = .eom ∧
    (session .lag []).decodeState = .lag ∧ (session .lead []).decodeState = .lead ∧
    (session .dmas []).decodeState = .dmas := by decide

theorem witness_DataSpaceRows :
    (session .dls [true]).armed = true ∧ 0 < 2 ^ 32 ∧ 4294967295 < 2 ^ 32 ∧
    (session .dls [true]).decodeState = (if true then .dls else .dss) ∧
    (session .dss [true]).decodeState = (if false then .dls else .dss) := by decide

theorem witness_OtherEdgesAbort :
    (session .wait []).armed = true ∧ 4294967295 < 2 ^ 32 ∧
    rowHolds .row10 .wait 6000 .high ∧ rowHolds .row10 .wait 12000 .high ∧ rowHolds .row10 .eom 9500 .low ∧
    rowHolds .row10 .lag 2500 .low ∧ rowHolds .row10 .lag 7500 .high ∧ rowHolds .row10 .lead 200 .high ∧
    rowHolds .row10 .lead 800 .low ∧ rowHolds .row10 .dmas 200 .low ∧ rowHolds .row10 .dmas 2000 .low ∧
    rowHolds .row10 .dls 1800 .high ∧ rowHolds .row10 .dss 200 .high ∧ rowHolds .row10 .reserved7 600 .low := by
  simp [rowHolds]; decide

theorem witness_LevelIsReadOnlyForTheLeader :
    (session .lag []).decodeState ≠ .wait ∧ (session .lag []).decodeState ≠ .eom := by decide

theorem witness_LeaderInsideMessageIsLost :
    (session .lag []).armed = true ∧
    ((session .lag []).decodeState = .lag ∧ 7500 ≤ 7500 ∧ 7500 ≤ 11999 ∧ 11999 < 12000) ∧
    ((session .lead []).decodeState = .lead ∧ (session .dmas []).decodeState = .dmas ∧
      (session .dls []).decodeState = .dls ∧ (session .dss []).decodeState = .dss ∧ 6000 < 6001) ∧
    (2500 < 2501 ∧ 7499 < 7500) := by decide

theorem witness_EndOfMessageLastsUntil :
    message10.decodeState = .eom ∧
    (∃ t, step (receiving message10 ⟨none, some 0x10001376C⟩) = .next t) ∧
    ∃ t, step (receiving message10 ⟨some (.word 0x00200000000), none⟩) = .next t :=
  ⟨rfl, ⟨_, rfl⟩, _, rfl⟩

theorem witness_PublishedSlotChangesOnlyAtPublish :
    ∃ t, step (receiving (session .dss [true]) ⟨none, some 800⟩) = .next t ∧
      ¬ (t.pubBits = (session .dss [true]).pubBits ∧ t.pubCount = (session .dss [true]).pubCount) :=
  ⟨_, rfl, fun h => absurd h.2 (by decide)⟩

theorem witness_RegistersChangeOnlyByTheirWriters :
    (∃ t, step (receiving (session .lag []) ⟨none, some 6000⟩) = .next t ∧
      t.session ≠ (session .lag []).session ∧ t.lastTs ≠ (session .lag []).lastTs) ∧
    ∃ t, step (receiving (session .lag []) ⟨some (.word 0x10000000000), none⟩) = .next t ∧
      t.armed ≠ (session .lag []).armed :=
  ⟨⟨_, rfl, fun h => absurd (congrArg Session.decodeState h) (by decide), by decide⟩, _, rfl, by decide⟩

/-- The same for the batch registers: a push, a push into a full buffer, and a BD_CLEAR after it. -/
theorem witness_RegistersChangeOnlyByTheirWriters_batch :
    (∃ t, step (receiving State.reset ⟨some (.word 0x11100000258), none⟩) = .next t ∧
      t.bdBuf ≠ State.reset.bdBuf ∧ t.bdLen ≠ State.reset.bdLen) ∧
    (∃ t, step (receiving { State.reset with bdLen := 259 } ⟨some (.word 0x11100000258), none⟩) = .next t ∧
      State.reset.bdOvf = false ∧ t.bdOvf = true) ∧
    ∃ t, step (receiving { State.reset with bdOvf := true, bdCount := 2 } ⟨some (.word 0x11000000001), none⟩) =
        .next t ∧
      t.bdOvf = false ∧ t.bdCount ≠ 2 :=
  ⟨⟨_, rfl, by decide, by decide⟩, ⟨_, rfl, rfl, rfl⟩, _, rfl, rfl, by decide⟩

theorem witness_DisarmedWindowIgnoresEdges :
    State.reset.armed = false ∧
    ∀ d : Word, Instr.wrCtrl d ∈ [Instr.edge 9500 .high, .rdStatus, .wrCtrl 2, .edge 9600 .low] →
      d.getLsbD 0 = false := by
  refine ⟨rfl, fun d h => ?_⟩
  simp only [List.mem_cons, Instr.wrCtrl.injEq, reduceCtorEq, List.not_mem_nil, false_or, or_false] at h
  subst h; decide

theorem witness_BatchUnitIsIndependent :
    isBatchOp (.edge 800 .low) = false ∧ (∃ t, exec (.edge 800 .low) (session .dss [true]) = .next t) ∧
    isBatchOp (.bdPush 9500) = true ∧ message10.params = State.reset.params ∧
    ∃ t, exec (.bdPush 9500) message10 = .next t := ⟨rfl, ⟨_, rfl⟩, rfl, rfl, _, rfl⟩

theorem witness_CommandsActOnTheSession :
    message10.decodeState = .eom ∧ (session .lag []).decodeState ≠ .eom := by decide

theorem witness_SnapshotReadsAnswer : State.reset.params.Valid ∧ Params.Valid ⟨2046, 4096, false⟩ := by decide

theorem witness_WindowReadsAnswerTheirBits :
    (0 < 32 ∧ 31 < 32) ∧ State.reset.Inv ∧ State.reset.pubCount.toNat ≤ 32 * (0 : BitVec 6).toNat + 0 ∧
    State.reset.bdCount.toNat ≤ 32 * (63 : BitVec 6).toNat + 31 :=
  ⟨by decide,
    { params_valid := by decide
      state_named := by decide
      acc_bounded := by decide
      acc_packed := pack_toNat_lt []
      acc_clear := by decide
      pub_bounded := by decide
      pub_packed := pack_toNat_lt []
      eom_published := fun h => absurd h (by decide)
      len_bounded := by decide
      len_written := by decide
      buf_bounded := by decide
      result_bounded := by decide
      result_packed := pack_toNat_lt [] }, by decide, by decide⟩

theorem witness_ReservedAccessesDoNothing :
    definedRead true 0x01 = false ∧ definedRead false 0x12 = false ∧ definedWrite true 0x12 = false ∧
    definedWrite false 0x11 = false := by decide

theorem witness_BdPushAppendsOrOverflows :
    (({ State.reset with bdLen := 258 } : State).bdLen.toNat < State.reset.params.maxPulses ∧
      State.reset.params.maxPulses ≤ ({ State.reset with bdLen := 259 } : State).bdLen.toNat) ∧
    (∃ t, exec (.bdRun 2) { State.reset with bdOvf := true } = .next t) ∧
    ∃ t, exec (.bdClear 1) { State.reset with bdOvf := true } = .next t :=
  ⟨by decide, ⟨_, rfl⟩, _, rfl⟩

theorem witness_PushExtendsTheTrain :
    (pushed [9500]).params.maxPulses ≤ 4096 ∧ (pushed [9500]).bdLen.toNat < (pushed [9500]).params.maxPulses := by
  decide

theorem witness_BdClearAndNop :
    (0xFFFFFFFD : Word).getLsbD 1 = false ∧ (0xFFFFFFFC : Word).getLsbD 1 = false := by decide

theorem witness_BdRunStoresTheResult :
    (0xFFFFFFFE : Word).getLsbD 1 = true ∧ (0xFFFFFFFE : Word).getLsbD 0 = false ∧
    headerOk (repair (pushed [8000, 6000, 600, 600, 1200]).train) = false := by decide

theorem witness_BdClearRunEqualsBdClear :
    (0xFFFFFFFF : Word).getLsbD 1 = true ∧ (0xFFFFFFFF : Word).getLsbD 0 = true := by decide

theorem witness_GapsDecodeByPosition : ([] : List Nat).length < 2 ∧ [9500].length < 2 := by decide

theorem witness_TruncatedTrainIsRepaired :
    20 ≤ (List.replicate 20 true).length ∧ (List.replicate 19 true).length ≤ 19 := by decide

theorem witness_RegistersDecodeThePushedMessage :
    State.reset.params.hasBatch = true ∧ State.reset.params.maxPulses ≤ 4096 ∧
    2 * ([] : List Bool).length + 3 ≤ State.reset.params.maxPulses ∧
    2 * (List.replicate 128 true).length + 3 ≤ State.reset.params.maxPulses := by
  refine ⟨rfl, by decide, by decide, ?_⟩
  rw [List.length_replicate]; decide

theorem witness_FedMessageIsPublished :
    message10.params.Valid ∧ message10.armed = true ∧
    (message10.decodeState = .wait ∨ message10.decodeState = .eom) ∧
    (1 ≤ [true].length ∧ [true].length ≤ message10.params.maxBits) ∧
    1 ≤ (List.replicate 128 true).length ∧ (List.replicate 128 true).length ≤ message10.params.maxBits := by
  rw [List.length_replicate]; decide

theorem witness_OverlongMessageIsRejected :
    (session .wait []).params.Valid ∧ (session .wait []).armed = true ∧
    ((session .wait []).decodeState = .wait ∨ (session .wait []).decodeState = .eom) ∧
    (session .wait []).params.maxBits < (List.replicate 129 true).length := by
  rw [List.length_replicate]; decide

/-- A poll around which no edge arrives, `ms` milliseconds after the one before it. -/
def quietPoll (ms : Nat) : PollSlot := ⟨[], [], ms⟩

/-- An attempt that nothing answers, with the default times. -/
def silent : AttemptScript := ⟨[], ⟨[(5, .high)], .success⟩, [quietPoll 998, quietPoll 0, quietPoll 0]⟩

/-- An attempt whose transmitter fails. -/
def failing : AttemptScript := ⟨[], ⟨[], .failure⟩, []⟩

/-- R221's clock: with POLL_MS = 1 a third poll after 998 ms finds 1000 ms passed, a second does not. -/
theorem test_awaitReply_timeout :
    (awaitReply .default 0 silent.polls State.reset).map (·.1) = some false ∧
    awaitReply .default 0 (silent.polls.take 2) State.reset = none := by decide

/-- R221's worked example: retries = 2 and no reply ever give 3 transmissions and false. -/
theorem test_send_no_reply :
    (sendAndAwait .default ['1'] 2 [silent, silent, silent, silent] State.reset).map
      (fun r => (r.ok, r.calls, r.rest)) =
      some (false, List.replicate 3 ⟨[9500, 6000, 600, 1200, 1200], .success⟩, [silent]) := by rfl

/-- The silent attempt times out. -/
theorem silent_times_out : ∃ t, silentAttempts .default ['1'] [silent] State.reset = some t := ⟨_, rfl⟩

theorem witness_SendTransmitsAtMostRetriesPlusOne :
    (∃ r, sendAndAwait .default ['1'] 0 [silent] State.reset = some r) ∧
    (∃ err, encodeSymbols ['1', 'a', '0'] = .error err) ∧
    (∃ train, encodeSymbols ['1'] = .ok train) ∧
    ((∃ t, silentAttempts .default ['1'] [silent] State.reset = some t) ∧ [silent].length ≤ 1 ∧
      failing.transmission.answer = .failure) ∧
    (∃ t, silentAttempts .default ['1'] [silent, silent] State.reset = some t) ∧
    [silent, silent].length = 1 + 1 :=
  ⟨⟨_, rfl⟩, ⟨_, rfl⟩, ⟨_, rfl⟩, ⟨silent_times_out, by decide, rfl⟩, ⟨_, rfl⟩, rfl⟩

/-- An attempt with 1001 polls, the fewest that outlast the default times. -/
def patient : AttemptScript := ⟨[], ⟨[], .success⟩, List.replicate 1001 (quietPoll 0)⟩

theorem witness_SendAlwaysEnds :
    0 + 1 ≤ [patient].length ∧ (∀ a ∈ [patient], outlastTimeout .default a.polls) ∧
    (∃ train, encodeSymbols ['1'] = .ok train) ∧
    ∀ a ∈ [patient], a.transmission.answer = .success ∧ ∀ slot ∈ a.polls, slot.before = [] ∧ slot.after = [] := by
  refine ⟨by decide, fun a h => ?_, ⟨_, rfl⟩, fun a h => ?_⟩
  · rw [List.mem_singleton] at h
    subst h
    refine ⟨List.cons_ne_nil _ _, ?_⟩
    simp only [patient, List.length_replicate]
    decide
  · rw [List.mem_singleton] at h
    subst h
    refine ⟨rfl, fun slot hs => ?_⟩
    rw [List.eq_of_mem_replicate hs]
    exact ⟨rfl, rfl⟩

theorem witness_AttemptsAreIndependent : silent.before = [] := rfl

/-- The edges of the one-bit reply "1" from time 1000 (L2.7). -/
def replyEdges : List (Word × Level) :=
  [(1000, .low), (10500, .high), (16500, .low), (17100, .high), (18300, .low), (19500, .high)]

theorem witness_ReplyCompletesSend :
    State.reset.params.Valid ∧ encodeSymbols ['1'] = .ok (toPulseTrain [true]) ∧
    1 ≤ [true].length ∧ [true].length ≤ State.reset.params.maxBits ∧
    edgeOps replyEdges = feed 1000 (toPulseTrain [true]) ∧
    (∃ t, silentAttempts .default ['1'] [silent] State.reset = some t) ∧ [silent].length ≤ 1 ∧
    (([998, 0, 0] : List Nat) ≠ [] ∧ ¬ [998, 0, 0].sum + [998, 0, 0].length * HostTiming.default.pollMs <
      HostTiming.default.timeoutMs + HostTiming.default.pollMs) ∧
    [998, 0].sum + [998, 0].length * HostTiming.default.pollMs <
      HostTiming.default.timeoutMs + HostTiming.default.pollMs ∧
    ([] : List (Word × Level)).length ≤ 4 ∧ [(1, Level.high), (2, .low), (3, .high), (4, .low)].length ≤ 4 :=
  ⟨by decide, rfl, by decide, by decide, by decide, silent_times_out, by decide, by decide, by decide,
    by decide, by decide⟩

/-- An attempt that is answered at once. -/
def answered : AttemptScript := ⟨[], ⟨[], .success⟩, [⟨replyEdges, [], 0⟩]⟩

/-- A first step that a failing transmitter ends, one that times out although every call succeeded, and two
steps that are answered. -/
theorem witness_ExchangeRunsItsStepsInOrder :
    (∃ r, performExchange .default [['1'], ['0']] [silent, failing] State.reset = some r ∧
      r.calls[0]? = some [⟨toPulseTrain [true], .success⟩, ⟨toPulseTrain [true], .failure⟩] ∧ r.ok = false) ∧
    (∃ r, performExchange .default [['1'], ['0']] [silent, silent, silent, answered] State.reset = some r ∧
      r.calls = [List.replicate 3 ⟨toPulseTrain [true], .success⟩] ∧ r.ok = false) ∧
    ∃ r, performExchange .default [['1'], ['0']] [answered, answered] State.reset = some r ∧
      r.calls[1]? = some [⟨toPulseTrain [false], .success⟩] ∧ r.ok = true :=
  ⟨⟨_, rfl, rfl, rfl⟩, ⟨_, rfl, rfl, rfl⟩, _, rfl, rfl, rfl⟩

/-- The state after the first message of a three-message exchange has been answered, whose second then finds
two silent attempts. -/
theorem witness_ExchangeTransmissionCounts :
    State.reset.params.Valid ∧ encodeSymbols ['0'] = .ok (toPulseTrain [false]) ∧
    encodeSymbols ['1'] = .ok (toPulseTrain [true]) ∧ 1 ≤ [true].length ∧
    [true].length ≤ State.reset.params.maxBits ∧ edgeOps replyEdges = feed 1000 (toPulseTrain [true]) ∧
    (∃ u, silentAttempts .default ['1'] [silent] (applyOp disarmOp State.reset) = some u) ∧
    ∃ q, attempt .default ['1'] ⟨[], ⟨[], .success⟩, [⟨replyEdges, [], 0⟩]⟩ (applyOp disarmOp State.reset) =
        some q ∧
      ∃ u, silentAttempts .default ['0'] [silent, silent] q.state = some u :=
  ⟨by decide, rfl, rfl, by decide, by decide, by decide, ⟨_, rfl⟩, _, rfl, _, rfl⟩

end Sys2Proof.Tests
end

section
/-! Decoding what the encoder writes, and runs of the machine over what arrives (R57, R58). -/

namespace Sys2Proof

/-! ### The encoder's words decode to their operations (R100, R104) -/

/-- The command bits by the two bits `decodeFields` tests (R89, R93). -/
theorem commandBits_eq_iff (data : Word) (c : BitVec 2) :
    commandBits data = c ↔ data.getLsbD 0 = c.getLsbD 0 ∧ data.getLsbD 1 = c.getLsbD 1 := by
  rw [commandBits, BitVec.eq_of_getLsbD_eq_iff]
  simp only [BitVec.getLsbD_setWidth]
  constructor
  · intro h
    exact ⟨by simpa using h 0 (by decide), by simpa using h 1 (by decide)⟩
  · rintro ⟨h0, h1⟩ i hi
    interval_cases i
    · simpa using h0
    · simpa using h1

/-- The words of the PUB_BITS window (R92). -/
theorem decodeFields_pubOffset (hasBatch : Bool) (k : BitVec 6) :
    decodeFields hasBatch false (pubOffset k) 0 = .rdPubBits k := by
  revert hasBatch k
  decide

/-- The words of the BD_BITS window, where the batch unit is present (R97). -/
theorem decodeFields_bdOffset (k : BitVec 6) :
    decodeFields true false (bdOffset k) 0 = .rdBdBits k := by
  revert k
  decide

/-- A read of an offset without a read row of its own is reserved (R100). -/
theorem decodeFields_rsvRd (hasBatch : Bool) (off : Offset) (h : definedRead hasBatch off = false) :
    decodeFields hasBatch false off 0 = .rsvRd off := by
  revert hasBatch off
  decide

/-- A write to an offset without a write row of its own is reserved (R100). -/
theorem decodeFields_rsvWr (hasBatch : Bool) (off : Offset) (data : Word)
    (h : definedWrite hasBatch off = false) : decodeFields hasBatch true off data = .rsvWr off data := by
  simp only [definedWrite, Bool.or_eq_false_iff, Bool.and_eq_false_imp, beq_eq_false_iff_ne] at h
  obtain ⟨⟨h0, h1⟩, hb⟩ := h
  have h10 : ¬ (hasBatch = true ∧ off = 0x10) := fun ⟨b, e⟩ => (hb b).1 e
  have h11 : ¬ (hasBatch = true ∧ off = 0x11) := fun ⟨b, e⟩ => (hb b).2 e
  simp only [decodeFields, if_true, if_neg h0, if_neg h1, if_neg h10, if_neg h11]

/-- Decoding inverts encoding on the well-formed operations (R100, R104). -/
theorem decode_encode (hasBatch : Bool) (i : Instr) (h : i.wf hasBatch = true) :
    decode hasBatch (encode i) = i := by
  cases i
  case edge now level => exact decodeE_eWord level now
  all_goals rw [encode, decode, decodeT_tWord]
  case rdPubBits k => exact decodeFields_pubOffset hasBatch k
  case rdBdBits k =>
    obtain rfl : hasBatch = true := h
    exact decodeFields_bdOffset k
  case rsvRd off => exact decodeFields_rsvRd hasBatch off (by simpa [Instr.wf] using h)
  case rsvWr off data => exact decodeFields_rsvWr hasBatch off data (by simpa [Instr.wf] using h)
  case bdPush | rdBdStatus | rdBdLen | rdBdCount | rdBdDrops =>
    obtain rfl : hasBatch = true := h
    rfl
  case cmdResetSession data =>
    have hbit : data.getLsbD 0 = true := h
    simp [decodeFields, hbit]
  case cmdConsume data =>
    obtain ⟨h0, h1⟩ := (commandBits_eq_iff data 0b10).1 (eq_of_beq h)
    rw [decodeFields, h0, h1]
    rfl
  case cmdNop data =>
    obtain ⟨h0, h1⟩ := (commandBits_eq_iff data 0b00).1 (eq_of_beq h)
    rw [decodeFields, h0, h1]
    rfl
  case bdClear data | bdRun data | bdClearRun data | bdCtrlNop data =>
    obtain ⟨rfl, hc⟩ := Bool.and_eq_true_iff.1 h
    obtain ⟨h0, h1⟩ := (commandBits_eq_iff data _).1 (eq_of_beq hc)
    rw [decodeFields, h0, h1]
    rfl
  all_goals rfl

end Sys2Proof

namespace Sys2Proof.Machine

/-! ### Runs -/

/-- A run's first step, when it completes. -/
theorem run_succ_of_step (k : Nat) (s t : State) (h : step s = .next t) :
    core.run (k + 1) s = core.run k t := by
  have hc : core.step s = .next t := h
  simp only [Host.Core.run, hc]

/-- A run of one step is the step. -/
theorem run_one (s : State) : core.run 1 s = step s := by
  change core.run (0 + 1) s = core.step s
  simp only [Host.Core.run]
  cases core.step s <;> rfl

/-- The step of a host word that arrives together with an edge leaves the edge as the next to arrive, and
the following step takes it (R58). -/
theorem step_word_then_edge (s t : State) (hw : TWord) (ew : EWord) (rest : List Arrival)
    (hin : s.inbox = ⟨some (.word hw), some ew⟩ :: rest)
    (ht : exec (decodeT s.params.hasBatch hw) (s.accept (⟨none, some ew⟩ :: rest)) = .next t) :
    step s = .next t ∧ step t = exec (decodeE ew) (t.accept rest) := by
  obtain ⟨t', ht', hinbox, -⟩ :=
    exec_completes (decodeT s.params.hasBatch hw) (s.accept (⟨none, some ew⟩ :: rest))
  obtain rfl : t = t' := by rw [ht] at ht'; cases ht'; rfl
  exact ⟨(step_word s hw (some ew) rest hin).trans ht, step_edge t ew rest hinbox⟩

/-- The two steps of an arrival of a host word and an edge, as a run (R58). -/
theorem run_two_of_word_and_edge (s t : State) (hw : TWord) (ew : EWord) (rest : List Arrival)
    (hin : s.inbox = ⟨some (.word hw), some ew⟩ :: rest)
    (ht : exec (decodeT s.params.hasBatch hw) (s.accept (⟨none, some ew⟩ :: rest)) = .next t) :
    core.run 2 s = exec (decodeE ew) (t.accept rest) := by
  obtain ⟨hstep, hedge⟩ := step_word_then_edge s t hw ew rest hin ht
  rw [run_succ_of_step 1 s t hstep, run_one, hedge]

/-- Settles O2: the two steps of such an arrival, with the state after the host transaction written out for
a DISARM and for a RESET_SESSION. -/
theorem hostTransactionPrecedesSimultaneousEdge :
    Obligations.HostTransactionPrecedesSimultaneousEdge := by
  intro s hw ew rest hin
  refine ⟨?_, ?_, ?_⟩
  · obtain ⟨t, ht, -⟩ :=
      exec_completes (decodeT s.params.hasBatch hw) (s.accept (⟨none, some ew⟩ :: rest))
    exact ⟨t, ht, step_word_then_edge s t hw ew rest hin ht⟩
  · intro d hd hbit
    have ht : exec (decodeT s.params.hasBatch hw) (s.accept (⟨none, some ew⟩ :: rest)) =
        .next ((s.accept (⟨none, some ew⟩ :: rest)).setArm false) := by
      rw [hd, ← hbit]; rfl
    rw [run_two_of_word_and_edge s _ hw ew rest hin ht]
    exact exec_edge_disarmed _ _ _ rfl
  · intro d hd
    have ht : exec (decodeT s.params.hasBatch hw) (s.accept (⟨none, some ew⟩ :: rest)) =
        .next (s.accept (⟨none, some ew⟩ :: rest)).resetSession := by
      rw [hd]; rfl
    exact run_two_of_word_and_edge s _ hw ew rest hin ht

/-- The first operation of a list of inputs: one step takes it, and leaves the others yet to arrive (R57). -/
theorem step_withInputs_cons (i : Instr) (is : List Instr) (s : State)
    (hi : i.wf s.params.hasBatch = true) :
    ∃ t, exec i { s with inbox := [], rdata := none } = .next t ∧ t.inbox = [] ∧ t.params = s.params ∧
      step (s.withInputs (i :: is)) = .next (t.withInputs is) := by
  obtain ⟨t, ht, hinbox, hparams⟩ := exec_completes i { s with inbox := [], rdata := none }
  refine ⟨t, ht, hinbox, hparams, ?_⟩
  calc step (s.withInputs (i :: is))
      = exec i { s with inbox := is.map (fun i => arrivalOf (encode i)), rdata := none } :=
        step_encoded i s _ (decode_encode s.params.hasBatch i hi)
    _ = .next (t.withInputs is) := exec_withInbox i _ t _ ht

/-- Settles O3, by induction on the list of operations, from every state. -/
theorem inputsApplyInOrder : Obligations.InputsApplyInOrder := by
  intro is
  induction is with
  | nil => intro s _; rfl
  | cons i is ih =>
    intro s hwf
    obtain ⟨t, ht, hinbox, hparams, hstep⟩ := step_withInputs_cons i is s (hwf i List.mem_cons_self)
    have hrest : ∀ j ∈ is, j.wf t.params.hasBatch = true := fun j hj => by
      rw [hparams]; exact hwf j (List.mem_cons_of_mem i hj)
    have hquiet : ({ t with inbox := [] } : State) = t := by rw [← hinbox]
    have hfold : runInstrs (i :: is) { s with inbox := [] } = runInstrs is t := by
      simp only [runInstrs, ht]
    have hrun : core.run is.length (t.withInputs is) = runInstrs is t := by
      rw [ih t hrest, hquiet]
    rw [hfold, ← hrun]
    exact run_succ_of_step is.length _ _ hstep

end Sys2Proof.Machine
end

section
/-! The table of R100 over all format T words: its rows exclude each other, and what the absence of the
batch classifier leaves reserved (R104). -/

namespace Sys2Proof

/-! ### The rows exclude each other (R100) -/

/-- The rows ask different values of some bit that both masks cover, so that no word is in both. -/
def TRow.Excludes (r r' : TRow) : Prop := r.pattern &&& r'.mask ≠ r'.pattern &&& r.mask

theorem TRow.excludes_symm : Std.Symm TRow.Excludes := ⟨fun _ _ h => h.symm⟩

theorem TRow.and_mask_of_selects {hasBatch : Bool} {r : TRow} {w : TWord}
    (h : r.selects hasBatch w = true) : w &&& r.mask = r.pattern := by
  obtain ⟨-, hmatch⟩ := Bool.and_eq_true_iff.1 h
  exact eq_of_beq hmatch

theorem TRow.not_excludes_of_selects {hasBatch : Bool} {r r' : TRow} {w : TWord}
    (h : r.selects hasBatch w = true) (h' : r'.selects hasBatch w = true) : ¬ r.Excludes r' := by
  rw [TRow.Excludes, not_not, ← and_mask_of_selects h, ← and_mask_of_selects h', BitVec.and_assoc,
    BitVec.and_comm r.mask, ← BitVec.and_assoc]

theorem tRows_pairwise_excludes : tRows.Pairwise TRow.Excludes := by
  unfold TRow.Excludes
  decide

/-- At most one row of the table selects a word. -/
theorem selects_unique {hasBatch : Bool} {r r' : TRow} {w : TWord} (hr : r ∈ tRows) (hr' : r' ∈ tRows)
    (h : r.selects hasBatch w = true) (h' : r'.selects hasBatch w = true) : r = r' := by
  have := TRow.excludes_symm
  by_contra hne
  exact TRow.not_excludes_of_selects h h' (tRows_pairwise_excludes.forall hr hr' hne)

/-- Decoding by a row that selects the word, wherever it stands in the table. -/
theorem decodeT_of_selects {hasBatch : Bool} {r : TRow} {w : TWord} (hr : r ∈ tRows)
    (h : r.selects hasBatch w = true) : decodeT hasBatch w = r.build (tOff w) (tData w) := by
  have hfind : tRows.find? (fun r => r.selects hasBatch w) = some r := by
    cases hf : tRows.find? (fun r => r.selects hasBatch w) with
    | none => exact absurd h (List.find?_eq_none.1 hf r hr)
    | some r' =>
      have h' : r'.selects hasBatch w = true := List.find?_some (p := (TRow.selects hasBatch · w)) hf
      rw [selects_unique (List.mem_of_find?_eq_some hf) hr h' h]
  rw [decodeT, hfind]

/-- Decoding a word that no row selects, by the catch-all rows. -/
theorem decodeT_of_not_selects {hasBatch : Bool} {w : TWord}
    (h : ∀ r ∈ tRows, r.selects hasBatch w = false) :
    decodeT hasBatch w = if tW w then .rsvWr (tOff w) (tData w) else .rsvRd (tOff w) := by
  have hfind : tRows.find? (fun r => r.selects hasBatch w) = none :=
    List.find?_eq_none.2 fun r hr => by simp [h r hr]
  rw [decodeT, hfind]

/-- Settles O8: the rows exclude each other pairwise, so the first that selects a word is the only one. -/
theorem rowsOfTheTableAreDisjoint : Obligations.RowsOfTheTableAreDisjoint := by
  intro hasBatch w
  refine ⟨?_, ?_, decodeT_of_not_selects⟩
  · intro r hr r' hr' h h'
    rw [selects_unique hr hr' h h']
  · intro r hr h
    exact decodeT_of_selects hr h

/-! ### The offsets of the batch classifier (R104) -/

/-- The offset is one of the batch classifier's registers (R86). -/
abbrev isBatchOffset (off : Offset) : Prop := (0x10 ≤ off ∧ off ≤ 0x15) ∨ (0x80 ≤ off ∧ off ≤ 0xBF)

theorem definedRead_of_isBatchOffset (off : Offset) (h : isBatchOffset off) :
    definedRead false off = false := by
  revert off
  decide

theorem definedWrite_of_isBatchOffset (off : Offset) (h : isBatchOffset off) :
    definedWrite false off = false := by
  revert off
  decide

/-- What decoding tests OFF for in the batch rows: the six registers, and OFF[7:6] of the BD_BITS window. -/
theorem ne_of_not_isBatchOffset (off : Offset) (h : ¬ isBatchOffset off) :
    off ≠ 0x10 ∧ off ≠ 0x11 ∧ off ≠ 0x12 ∧ off ≠ 0x13 ∧ off ≠ 0x14 ∧ off ≠ 0x15 ∧
      off.extractLsb' 6 2 ≠ 0b10 := by
  revert off
  decide

/-- A read decodes without regard to its DATA (R83). -/
theorem decodeFields_read_data (hasBatch : Bool) (off : Offset) (data : Word) :
    decodeFields hasBatch false off data = decodeFields hasBatch false off 0 := rfl

theorem decodeFields_of_isBatchOffset (w : Bool) (off : Offset) (data : Word) (h : isBatchOffset off) :
    decodeFields false w off data = if w then .rsvWr off data else .rsvRd off := by
  cases w with
  | false =>
    rw [decodeFields_read_data]
    exact decodeFields_rsvRd false off (definedRead_of_isBatchOffset off h)
  | true => exact decodeFields_rsvWr false off data (definedWrite_of_isBatchOffset off h)

theorem decodeFields_of_not_isBatchOffset (w : Bool) (off : Offset) (data : Word)
    (h : ¬ isBatchOffset off) : decodeFields false w off data = decodeFields true w off data := by
  obtain ⟨h10, h11, h12, h13, h14, h15, hwindow⟩ := ne_of_not_isBatchOffset off h
  cases w with
  | false => simp only [decodeFields, h12, h13, h14, h15, hwindow, and_false, if_false, Bool.false_eq_true]
  | true => simp only [decodeFields, h10, h11, and_false, if_true, if_false]

/-- Settles O9: at a batch offset only the batch rows could match, and elsewhere none of them does. -/
theorem batchWordsAreReservedWithoutBatch : Obligations.BatchWordsAreReservedWithoutBatch := by
  intro w off data
  rw [decodeT_tWord, decodeT_tWord]
  exact ⟨decodeFields_of_isBatchOffset w off data, decodeFields_of_not_isBatchOffset w off data⟩

end Sys2Proof
end

section
/-! One armed edge in each state of the streaming decoder, by rows 1 to 9 of the transition table (R111 to
R121). -/

namespace Sys2Proof.Machine

/-! ### The windows (R113 to R121) -/

theorem leaderMarkWindow_iff (e : Nat) : leaderMarkWindow e = true ↔ 6000 < e ∧ e < 12000 := by
  simp [leaderMarkWindow]

theorem leaderGapWindow_iff (e : Nat) : leaderGapWindow e = true ↔ 2500 < e ∧ e < 7500 := by
  simp [leaderGapWindow]

theorem dataMarkWindow_iff (e : Nat) : dataMarkWindow e = true ↔ 200 < e ∧ e < 800 := by
  simp [dataMarkWindow]

theorem shortSpaceWindow_iff (e : Nat) : shortSpaceWindow e = true ↔ 200 < e ∧ e < 1000 := by
  simp [shortSpaceWindow]

theorem longSpaceWindow_iff (e : Nat) : longSpaceWindow e = true ↔ 1000 ≤ e ∧ e < 2000 := by
  simp [longSpaceWindow]

theorem endMarkWindow_iff (e : Nat) : endMarkWindow e = true ↔ 800 ≤ e ∧ e < 1800 := by
  simp [endMarkWindow]

/-! ### The row an edge takes, state by state (R112) -/

theorem edgeRow_wait_or_eom (q : DecodeState) (e : Nat) (level : Level) (hq : q = .wait ∨ q = .eom) :
    edgeRow q e level = if 6000 < e ∧ e < 12000 ∧ level = .high then .row1 else .row10 := by
  rcases hq with rfl | rfl <;> simp [edgeRow, leaderMarkWindow_iff, and_assoc]

theorem edgeRow_lag (e : Nat) (level : Level) :
    edgeRow .lag e level = if 2500 < e ∧ e < 7500 then .row2 else .row10 := by
  simp [edgeRow, leaderGapWindow_iff]

theorem edgeRow_lead (e : Nat) (level : Level) :
    edgeRow .lead e level = if 200 < e ∧ e < 800 then .row3 else .row10 := by
  simp [edgeRow, dataMarkWindow_iff]

theorem edgeRow_dmas (e : Nat) (level : Level) :
    edgeRow .dmas e level =
      if 200 < e ∧ e < 1000 then .row4 else if 1000 ≤ e ∧ e < 2000 then .row5 else .row10 := by
  simp [edgeRow, shortSpaceWindow_iff, longSpaceWindow_iff]

theorem edgeRow_dls (e : Nat) (level : Level) :
    edgeRow .dls e level =
      if 200 < e ∧ e < 800 then .row6 else if 800 ≤ e ∧ e < 1800 then .row7 else .row10 := by
  simp [edgeRow, dataMarkWindow_iff, endMarkWindow_iff]

theorem edgeRow_dss (e : Nat) (level : Level) :
    edgeRow .dss e level =
      if 200 < e ∧ e < 800 then .row8 else if 800 ≤ e ∧ e < 1800 then .row9 else .row10 := by
  simp [edgeRow, dataMarkWindow_iff, endMarkWindow_iff]

/-! ### What an armed edge does -/

/-- Elapsed time as arithmetic modulo 2^32 (R111). -/
theorem elapsed_eq_mod (now lastTs : Word) :
    elapsed now lastTs = (now.toNat + 2 ^ 32 - lastTs.toNat) % 2 ^ 32 := by
  rw [elapsed, BitVec.toNat_sub]
  congr 1
  have := lastTs.isLt
  omega

/-- Settles O21, by the lemmas for a disarmed and for an armed edge. -/
theorem edgeIsLostOrTakesOneDecodeStep : Obligations.EdgeIsLostOrTakesOneDecodeStep := by
  intro s now level
  refine ⟨exec_edge_disarmed now level s, fun ha => ?_⟩
  rw [exec_edge_armed now level s ha, elapsed_eq_mod]
  rfl

/-- An armed edge `e` microseconds after LAST_TS sets LAST_TS and takes the row for `e` (R110, R111). -/
theorem exec_edge_nowAfter (s : State) (e : Nat) (level : Level) (ha : s.armed = true) (he : e < 2 ^ 32) :
    exec (.edge (s.nowAfter e) level) s =
      .next (applyRow (edgeRow s.decodeState e level) (s.setLastTs (s.nowAfter e))) := by
  rw [exec_edge_armed _ _ _ ha, elapsed_nowAfter s e he]
  rfl

/-- Settles O22: in each state the edge takes one of the rows of that state, or aborts. -/
theorem leaderAndSpaceRows : Obligations.LeaderAndSpaceRows := by
  intro s e level ha he
  rw [exec_edge_nowAfter s e level ha he]
  refine ⟨fun hq => ?_, fun hq => ?_, fun hq => ?_, fun hq => ?_⟩
  · rw [edgeRow_wait_or_eom _ e level hq]
    split <;> rfl
  · rw [hq, edgeRow_lag]
    split <;> rfl
  · rw [hq, edgeRow_lead]
    split <;> rfl
  · rw [hq, edgeRow_dmas]
    split
    · rfl
    · split <;> rfl

/-- Rows 6 to 9 together with row 10: what an edge after a data space does, a long space for `b` = 1 and a
short one for `b` = 0 (R118 to R122). -/
theorem applyRow_dataSpace (s t : State) (e : Nat) (level : Level) (b : Bool)
    (hq : s.decodeState = if b then .dls else .dss) :
    applyRow (edgeRow s.decodeState e level) t =
      if 200 < e ∧ e < 800 then t.appendThenMark b
      else if 800 ≤ e ∧ e < 1800 then t.appendThenEnd b
      else t.abort := by
  cases b
  · rw [show s.decodeState = .dss from hq, edgeRow_dss, apply_ite (applyRow · t), apply_ite (applyRow · t)]
    rfl
  · rw [show s.decodeState = .dls from hq, edgeRow_dls, apply_ite (applyRow · t), apply_ite (applyRow · t)]
    rfl

/-- The same with the accumulator's room told apart: an append to a full one aborts in either kind of row
(R127, R128). -/
theorem applyRow_dataSpace_full_or_append (s t : State) (e : Nat) (level : Level) (b : Bool)
    (hq : s.decodeState = if b then .dls else .dss) :
    applyRow (edgeRow s.decodeState e level) t =
      if e ≤ 200 ∨ 1800 ≤ e ∨ t.accCount.toNat = t.params.maxBits then t.abort
      else if e < 800 then (t.append b).goto .dmas
      else (t.append b).publish.goto .eom := by
  rw [applyRow_dataSpace s t e level b hq]
  by_cases hfull : t.accCount.toNat = t.params.maxBits
  · have hmark : t.appendThenMark b = t.abort := if_pos hfull
    have hend : t.appendThenEnd b = t.abort := if_pos hfull
    rw [hmark, hend, ite_self, ite_self, if_pos (.inr (.inr hfull))]
  · have hmark : t.appendThenMark b = (t.append b).goto .dmas := if_neg hfull
    have hend : t.appendThenEnd b = (t.append b).publish.goto .eom := if_neg hfull
    rw [hmark, hend]
    by_cases hout : e ≤ 200 ∨ 1800 ≤ e
    · rw [if_neg (by omega), if_neg (by omega), if_pos (by omega)]
    · by_cases hdata : e < 800
      · rw [if_pos (by omega), if_neg (by omega), if_pos hdata]
      · rw [if_neg (by omega), if_pos (by omega), if_neg (by omega), if_neg hdata]

/-- Settles O23: the accumulator after the append is the old one with bit ACC_COUNT set to `b`. -/
theorem dataSpaceRows : Obligations.DataSpaceRows := by
  intro s e level b ha he hq
  refine ⟨setBit s.accBits s.accCount.toNat b, fun i hi => ?_, ?_⟩
  · rw [setBit_getLsbD]
    by_cases h : i = s.accCount.toNat
    · rw [if_pos ⟨h, h ▸ hi⟩, if_pos h]
    · rw [if_neg fun hn => h hn.1, if_neg h]
  · rw [exec_edge_nowAfter s e level ha he, applyRow_dataSpace_full_or_append s _ e level b hq,
      State.setLastTs_accCount, State.setLastTs_params]
    split
    · rfl
    · split <;> rfl

end Sys2Proof.Machine
end

section
/-! The host register operations of the streaming decoder and the two catch-all operations (R151 to R163):
what their words decode to, and the whole next state of each. -/

namespace Sys2Proof.Machine

/-- Decoding a read by its offset; its DATA is ignored (R83). -/
theorem decodeT_read (hasBatch : Bool) (off : Offset) (data : Word) :
    decodeT hasBatch (tWord false off data) = decodeFields hasBatch false off 0 :=
  decodeT_tWord hasBatch false off data

/-! ### Words of the bit windows (R92, R97) -/

theorem ofNat_eq_pubOffset (k : BitVec 6) : BitVec.ofNat 8 (0x40 + k.toNat) = pubOffset k := by
  revert k
  decide

theorem ofNat_eq_bdOffset (k : BitVec 6) : BitVec.ofNat 8 (0x80 + k.toNat) = bdOffset k := by
  revert k
  decide

/-- A vector below 2^n has no bit at or above n, and a window over it shows none (R158, R194). -/
theorem windowWord_getLsbD_of_count_le (capacity : Nat) (bits : BitReg) (n k j : Nat) (hj : j < 32)
    (hpacked : bits.toNat < 2 ^ n) (hn : n ≤ 32 * k + j) :
    (windowWord capacity bits k).getLsbD j = false := by
  have hbit : bits.getLsbD (32 * k + j) = false :=
    Nat.testBit_lt_two_pow (hpacked.trans_le (Nat.pow_le_pow_right Nat.two_pos hn))
  rw [windowWord_getLsbD capacity bits k j hj, hbit, Bool.and_false]

/-- Settles O36: bits below the capacity are the vector's, and the invariants keep the vectors below 2 to
the power of their counts. -/
theorem windowReadsAnswerTheirBits : Obligations.WindowReadsAnswerTheirBits := by
  intro k s
  refine ⟨fun hasBatch data => ?_, fun data => ?_, ?_, ?_⟩
  · rw [ofNat_eq_pubOffset, decodeT_read]
    exact decodeFields_pubOffset hasBatch k
  · rw [ofNat_eq_bdOffset, decodeT_read]
    exact decodeFields_bdOffset k
  · exact ⟨_, rfl, fun j hj => ⟨windowWord_getLsbD _ _ _ j hj, fun hinv =>
      windowWord_getLsbD_of_count_le _ _ _ _ j hj hinv.pub_packed⟩⟩
  · exact ⟨_, rfl, fun j hj => ⟨windowWord_getLsbD _ _ _ j hj, fun hinv =>
      windowWord_getLsbD_of_count_le _ _ _ _ j hj hinv.result_packed⟩⟩

/-! ### Writes (R151, R153 to R155) -/

/-- Settles O33, by decoding at offset 0x00 and the meaning of the operation. -/
theorem wrCtrlWritesArm : Obligations.WrCtrlWritesArm :=
  ⟨fun hasBatch data => decodeT_tWord hasBatch true 0x00 data, fun _ _ => rfl⟩

/-- CONSUME from EndOfMessage (R155). -/
theorem exec_cmdConsume_eom (data : Word) (s : State) (h : s.decodeState = .eom) :
    exec (.cmdConsume data) s = .next s.resetSession :=
  congrArg Host.Outcome.next (if_pos h)

/-- CONSUME from every other state (R155). -/
theorem exec_cmdConsume_other (data : Word) (s : State) (h : s.decodeState ≠ .eom) :
    exec (.cmdConsume data) s = .next s :=
  congrArg Host.Outcome.next (if_neg h)

/-- Settles O34: CONSUME is told apart by whether the state is EndOfMessage. -/
theorem commandsActOnTheSession : Obligations.CommandsActOnTheSession :=
  ⟨fun hasBatch data => decodeT_tWord hasBatch true 0x01 data,
    fun data s => ⟨rfl, rfl, exec_cmdConsume_eom data s, exec_cmdConsume_other data s⟩⟩

/-! ### Snapshot reads (R152, R156, R157, R159 to R161) -/

theorem zextBit_eq (b : Bool) : zextBit b = if b then 1 else 0 := by cases b <;> rfl

theorem zextCount_eq (c : Count) : zextCount c = BitVec.ofNat 32 c.toNat := by
  refine BitVec.eq_of_toNat_eq ?_
  rw [zextCount, BitVec.toNat_setWidth, BitVec.toNat_ofNat]

/-- STATUS as the sum of its fields' weights (R88). -/
theorem statusWord_eq (s : State) :
    s.statusWord = BitVec.ofNat 32 ((if s.armed then 16 else 0) + (if s.decodeState = .eom then 8 else 0) +
      s.decodeState.code.toNat) := by
  rw [State.statusWord, State.eomFlag]
  cases s.armed <;> cases s.decodeState <;> rfl

/-- Two half words side by side. -/
theorem ofNat_append_ofNat (hi lo : Nat) (hhi : hi < 2 ^ 16) (hlo : lo < 2 ^ 16) :
    BitVec.ofNat 16 hi ++ BitVec.ofNat 16 lo = BitVec.ofNat 32 (hi * 2 ^ 16 + lo) := by
  refine BitVec.eq_of_toNat_eq ?_
  rw [BitVec.toNat_append, BitVec.toNat_ofNat, BitVec.toNat_ofNat, BitVec.toNat_ofNat,
    Nat.mod_eq_of_lt hhi, Nat.mod_eq_of_lt hlo, ← Nat.shiftLeft_add_eq_or_of_lt hlo, Nat.shiftLeft_eq]
  omega

/-- PARAMS of valid parameters, which fit its half words (R9, R11, R91). -/
theorem paramsWord_eq (p : Params) (h : p.Valid) :
    paramsWord p = BitVec.ofNat 32 ((if p.hasBatch then p.maxPulses else 0) * 2 ^ 16 + p.maxBits) := by
  obtain ⟨-, hbits, -, hpulses⟩ := h
  refine ofNat_append_ofNat _ _ ?_ (by omega)
  split <;> omega

/-- Settles O35: each read answers the word of its register, by that word's equation. -/
theorem snapshotReadsAnswer : Obligations.SnapshotReadsAnswer := by
  refine ⟨fun hasBatch data => ?_, fun s => ?_⟩
  · simp only [decodeT_read]
    exact ⟨rfl, rfl, rfl, rfl, rfl, rfl⟩
  · rw [← zextBit_eq, ← statusWord_eq, ← zextCount_eq, ← zextCount_eq]
    exact ⟨rfl, rfl, rfl, rfl, rfl, fun hvalid => by rw [← paramsWord_eq s.params hvalid]; rfl⟩

/-! ### Reserved accesses (R162, R163) -/

/-- Settles O37, by the decoder's catch-all cases. -/
theorem reservedAccessesDoNothing : Obligations.ReservedAccessesDoNothing := by
  refine ⟨fun hasBatch off data => ⟨fun hread => ?_, fun hwrite => ?_⟩, fun off data s => ⟨rfl, rfl⟩⟩
  · rw [decodeT_read]
    exact decodeFields_rsvRd hasBatch off hread
  · rw [decodeT_tWord]
    exact decodeFields_rsvWr hasBatch off data hwrite

end Sys2Proof.Machine
end

section
/-! The batch unit: its operations and the streaming decoder leave each other alone (R198), and the host's
commands and reads at offsets 0x10 to 0x15 (R180 to R184, R191 to R193, R195). -/

namespace Sys2Proof.Machine

/-! ### BD_PUSH with and without room (R180) -/

theorem exec_bdPush_room (data : Word) (s : State) (h : s.bdLen.toNat < s.params.maxPulses) :
    exec (.bdPush data) s = .next (s.pushEntry data) :=
  congrArg Host.Outcome.next (if_pos h)

theorem exec_bdPush_full (data : Word) (s : State) (h : s.params.maxPulses ≤ s.bdLen.toNat) :
    exec (.bdPush data) s = .next s.overflow :=
  congrArg Host.Outcome.next (if_neg (Nat.not_lt.2 h))

/-! ### The streaming decoder and the batch registers (R198) -/

/-- What is not an operation of the batch unit does the same whatever the batch registers hold. -/
theorem exec_withBatchOf (i : Instr) (s u t : State) (hi : isBatchOp i = false) (h : exec i s = .next t) :
    exec i (s.withBatchOf u) = .next (t.withBatchOf u) := by
  cases i
  case edge now level =>
    cases ha : s.armed with
    | true =>
      obtain rfl := Host.Outcome.next.inj ((exec_edge_armed now level s ha).symm.trans h)
      exact (exec_edge_armed now level (s.withBatchOf u) ha).trans
        (congrArg Host.Outcome.next (applyRow_withBatch _ (s.setLastTs now) _ _ _ _ _ _))
    | false =>
      obtain rfl := Host.Outcome.next.inj ((exec_edge_disarmed now level s ha).symm.trans h)
      exact exec_edge_disarmed now level (s.withBatchOf u) ha
  case cmdConsume d =>
    by_cases hq : s.decodeState = .eom
    · obtain rfl := Host.Outcome.next.inj ((exec_cmdConsume_eom d s hq).symm.trans h)
      exact exec_cmdConsume_eom d (s.withBatchOf u) hq
    · obtain rfl := Host.Outcome.next.inj ((exec_cmdConsume_other d s hq).symm.trans h)
      exact exec_cmdConsume_other d (s.withBatchOf u) hq
  case bdClear | bdRun | bdClearRun | bdCtrlNop | bdPush | rdBdStatus | rdBdLen | rdBdCount | rdBdDrops |
      rdBdBits => cases hi
  all_goals (cases h; rfl)

/-- What is not an operation of the batch unit leaves the batch registers. -/
theorem withBatchOf_of_exec (i : Instr) (s t : State) (hi : isBatchOp i = false) (h : exec i s = .next t) :
    t.withBatchOf s = t := by
  rcases exec_batch_cases i s t h with ⟨hbuf, hlen, hovf, hbits, hcount, hdrops⟩ | ⟨d, rfl, -⟩ |
    ⟨d, rfl, -⟩ | ⟨d, rfl, -⟩ | ⟨d, rfl, -⟩
  · rw [State.withBatchOf, ← hbuf, ← hlen, ← hovf, ← hbits, ← hcount, ← hdrops]
  all_goals cases hi

/-! ### The batch unit and everything else (R198) -/

/-- `u` with the batch registers and the response port of `s`: what an operation of the batch unit can see
or write of a state, the parameters apart. -/
def State.withBatchPortsOf (u s : State) : State := { u.withBatchOf s with rdata := s.rdata }

/-- An operation of the batch unit does the same whatever the rest of the state holds. -/
theorem exec_withBatchPortsOf (i : Instr) (s u t : State) (hi : isBatchOp i = true)
    (hp : s.params = u.params) (h : exec i s = .next t) :
    exec i (u.withBatchPortsOf s) = .next (u.withBatchPortsOf t) := by
  cases i
  case bdPush d =>
    rcases Nat.lt_or_ge s.bdLen.toNat s.params.maxPulses with hl | hl
    · obtain rfl := Host.Outcome.next.inj ((exec_bdPush_room d s hl).symm.trans h)
      exact exec_bdPush_room d (u.withBatchPortsOf s) (hp ▸ hl)
    · obtain rfl := Host.Outcome.next.inj ((exec_bdPush_full d s hl).symm.trans h)
      exact exec_bdPush_full d (u.withBatchPortsOf s) (hp ▸ hl)
  case rdBdBits k =>
    cases h
    have hword : windowWord u.params.bdMaxBits s.bdBits k.toNat =
        windowWord s.params.bdMaxBits s.bdBits k.toNat := by rw [hp]
    exact congrArg (fun v => Host.Outcome.next ((u.withBatchPortsOf s).respond v)) hword
  case bdClear | bdRun | bdClearRun | bdCtrlNop | rdBdStatus | rdBdLen | rdBdCount | rdBdDrops =>
    cases h
    rfl
  all_goals cases hi

/-- An operation of the batch unit writes the batch registers and the response port only. -/
theorem withBatchPortsOf_of_exec (i : Instr) (s t : State) (hi : isBatchOp i = true)
    (h : exec i s = .next t) : s.withBatchPortsOf t = t := by
  cases i
  case bdPush d =>
    rcases Nat.lt_or_ge s.bdLen.toNat s.params.maxPulses with hl | hl
    · obtain rfl := Host.Outcome.next.inj ((exec_bdPush_room d s hl).symm.trans h)
      rfl
    · obtain rfl := Host.Outcome.next.inj ((exec_bdPush_full d s hl).symm.trans h)
      rfl
  case bdClear | bdRun | bdClearRun | bdCtrlNop | rdBdStatus | rdBdLen | rdBdCount | rdBdDrops | rdBdBits =>
    cases h
    rfl
  all_goals cases hi

/-- Settles O32: independence and frame, for the operations outside the batch unit and for those of it. -/
theorem batchUnitIsIndependent : Obligations.BatchUnitIsIndependent :=
  ⟨fun i s u t hi h => ⟨exec_withBatchOf i s u t hi h, withBatchOf_of_exec i s t hi h⟩,
    fun i s u t hi hp h => ⟨exec_withBatchPortsOf i s u t hi hp h, withBatchPortsOf_of_exec i s t hi h⟩⟩

/-! ### BD_PUSH and the overflow flag (R180, R181, R183) -/

/-- Of all operations the two that begin with a clear are those that take BD_OVF from 1 to 0. -/
theorem bdOvf_cleared_iff (i : Instr) (s t : State) (h : exec i s = .next t) (hs : s.bdOvf = true) :
    t.bdOvf = false ↔ (∃ d, i = .bdClear d) ∨ ∃ d, i = .bdClearRun d := by
  constructor
  · intro ht
    have hne : t.bdOvf ≠ s.bdOvf := by rw [ht, hs]; decide
    rcases exec_batch_cases i s t h with ⟨-, -, hovf, -⟩ | ⟨d, -, rfl | rfl⟩ | ⟨d, hi, -⟩ | ⟨d, hi, -⟩ |
      ⟨d, -, rfl⟩
    · exact absurd hovf hne
    · exact absurd (State.pushEntry_bdOvf s d) hne
    · exact absurd ((State.overflow_bdOvf s).trans hs.symm) hne
    · exact .inl ⟨d, hi⟩
    · exact .inr ⟨d, hi⟩
    · exact absurd (State.setResult_bdOvf s _ _) hne
  · rintro (⟨d, rfl⟩ | ⟨d, rfl⟩)
    · cases h; rfl
    · cases h; rfl

/-- Settles O38: a push with and without room, and the operations that clear the flag. -/
theorem bdPushAppendsOrOverflows : Obligations.BdPushAppendsOrOverflows :=
  ⟨fun data => decodeT_tWord true true 0x11 data,
    fun data s => ⟨exec_bdPush_room data s, exec_bdPush_full data s⟩, bdOvf_cleared_iff⟩

/-! ### The commands of BD_CTRL (R181, R182, R184) -/

/-- A write to BD_CTRL decodes by its two command bits (R93). -/
theorem decodeT_bdCtrl (data : Word) : decodeT true (tWord true 0x10 data) =
    if data.getLsbD 1 then (if data.getLsbD 0 then .bdClearRun data else .bdRun data)
    else if data.getLsbD 0 then .bdClear data else .bdCtrlNop data :=
  decodeT_tWord true true 0x10 data

/-- Settles O40, by decoding with DATA[1] = 0 and the meanings of the two operations. -/
theorem bdClearAndNop : Obligations.BdClearAndNop := by
  refine ⟨fun data h1 => ?_, fun data s => ⟨rfl, rfl⟩⟩
  rw [decodeT_bdCtrl, h1]
  rfl

/-- MalformedHeader: no bits and no drops (R186, R188). -/
theorem fromPulseTrain_of_malformed (l : List Nat) (h : headerOk (repair l) = false) :
    fromPulseTrain l = ⟨[], 0⟩ := by
  simp only [fromPulseTrain, h, Bool.false_eq_true, if_false]

/-- BD_RUN on a pushed train with a malformed header (R182, R188). -/
theorem runBatch_of_malformed (s : State) (h : headerOk (repair s.train) = false) :
    s.runBatch = { s with bdBits := 0, bdCount := 0, bdDrops := 0 } := by
  rw [State.runBatch, fromPulseTrain_of_malformed s.train h]
  rfl

/-- Settles O41: the result of the pushed train, which is empty when its header is malformed. -/
theorem bdRunStoresTheResult : Obligations.BdRunStoresTheResult := by
  refine ⟨fun data h1 h0 => ?_, fun data s => ⟨rfl, fun h => ?_⟩⟩
  · rw [decodeT_bdCtrl, h1, h0]
    rfl
  · exact congrArg Host.Outcome.next (runBatch_of_malformed s h)

/-! ### The reads of the batch registers (R191 to R193, R195) -/

/-- Settles O43: each read answers the word of its register, by that word's equation. -/
theorem batchReadsAnswer : Obligations.BatchReadsAnswer := by
  refine ⟨fun data => ?_, fun s => ?_⟩
  · simp only [decodeT_read]
    exact ⟨rfl, rfl, rfl, rfl⟩
  · rw [← zextBit_eq, ← zextCount_eq, ← zextCount_eq, ← zextCount_eq]
    exact ⟨rfl, rfl, rfl, rfl⟩

end Sys2Proof.Machine
end

section
/-! Power-on reset (R270): what a read of each offset answers right after it. -/

namespace Sys2Proof.Machine

/-- A window over the zero vector shows no bit, whatever the capacity (R92, R97). -/
theorem windowWord_zero (capacity k : Nat) : windowWord capacity 0 k = 0 := by
  refine BitVec.eq_of_getLsbD_eq fun j hj => ?_
  rw [windowWord_getLsbD capacity 0 k j hj]
  simp only [BitVec.ofNat_eq_ofNat, BitVec.getLsbD_zero, Bool.and_false]

/-- No read answers from BD_BUF: the register map has no row for it (R86). -/
theorem regRead_bdBuf (s : State) (buf : List Word) (off : Offset) :
    ({ s with bdBuf := buf } : State).regRead off = s.regRead off := rfl

/-- The pushed train has BD_LEN entries, so it is empty when BD_LEN is 0, whatever BD_BUF holds (R30). -/
theorem train_of_bdLen_zero (s : State) (h : s.bdLen = 0) : s.train = [] := by
  rw [State.train, h]
  exact pulseTrain_zero s.bdBuf

/-- The register map after reset: the flag, count and time registers hold 0, the windows are over zero
vectors, and PARAMS alone depends on the parameters (R86, R270). -/
theorem regRead_resetWith (p : Params) (off : Offset) :
    (State.resetWith p).regRead off = if off = 0x06 then paramsWord p else 0 := by
  have hctrl : zextBit (State.resetWith p).armed = 0 := rfl
  have hstatus : (State.resetWith p).statusWord = 0 := by rw [statusWord_eq]; rfl
  have hbdStatus : (State.resetWith p).bdStatusWord = 0 := rfl
  have hcount : zextCount 0 = 0 := rfl
  have hparams : off.toNat = 0x06 ↔ off = 0x06 := BitVec.toNat_inj (y := 0x06)
  by_cases hoff : off = 0x06
  · subst hoff
    rfl
  · rw [if_neg hoff, State.regRead, hctrl, hstatus, hbdStatus]
    simp only [State.resetWith, hcount, windowWord_zero, hparams, hoff, if_false, ite_self]

/-- Settles O13: the reset table field by field, the register map after reset, and the empty train. -/
theorem resetHoldsTheStatedValues : Obligations.ResetHoldsTheStatedValues := by
  intro p
  refine ⟨rfl, rfl, rfl, rfl, rfl, rfl, rfl, rfl, rfl, rfl, rfl, rfl, fun off buf => ⟨fun hoff => ?_, ?_⟩⟩
  · rw [regRead_bdBuf, regRead_resetWith, if_neg hoff]
  · exact train_of_bdLen_zero _ rfl

end Sys2Proof.Machine
end

section
/-! Every word of either format is an operation's: the operation it decodes to is well-formed, and encoding
that gives the word back (R81 to R83, R100, R240). -/

namespace Sys2Proof

/-- Settles O5, by the round trip of the well-formed operations. -/
theorem decodeInvertsEncode : Obligations.DecodeInvertsEncode := decode_encode

/-- Settles O4, by decoding each of the words. -/
theorem specWordsDecode : Obligations.SpecWordsDecode := by
  unfold Obligations.SpecWordsDecode
  decide

/-! ### From a word's fields to an operation and back -/

/-- A read at any offset encodes as the word of that offset with DATA 0 (R83). -/
theorem encode_decodeFields_read (hasBatch : Bool) (off : Offset) :
    encode (decodeFields hasBatch false off 0) = .t (tWord false off 0) := by
  revert hasBatch off
  decide

/-- A write at any offset keeps its offset and the whole of its DATA (R83). -/
theorem encode_decodeFields_write (hasBatch : Bool) (off : Offset) (data : Word) :
    encode (decodeFields hasBatch true off data) = .t (tWord true off data) := by
  rw [decodeFields, if_pos rfl]
  by_cases h00 : off = 0x00
  · rw [if_pos h00, h00]; rfl
  rw [if_neg h00]
  by_cases h01 : off = 0x01
  · rw [if_pos h01, h01]
    cases data.getLsbD 0 <;> cases data.getLsbD 1 <;> rfl
  rw [if_neg h01]
  by_cases h10 : hasBatch = true ∧ off = 0x10
  · rw [if_pos h10, h10.2]
    cases data.getLsbD 0 <;> cases data.getLsbD 1 <;> rfl
  rw [if_neg h10]
  by_cases h11 : hasBatch = true ∧ off = 0x11
  · rw [if_pos h11, h11.2]; rfl
  rw [if_neg h11]
  rfl

/-- Encoding a format E word's operation gives the word back (R82). -/
theorem encode_decodeE (w : EWord) : encode (decodeE w) = .e w := by
  refine congrArg InputWord.e (BitVec.eq_of_getLsbD_eq fun i hi => ?_)
  rw [eWord_getLsbD, level_isHigh_ofBit]
  by_cases hnow : i < 32
  · rw [if_pos hnow, BitVec.getLsbD_extractLsb', Nat.zero_add, decide_eq_true hnow, Bool.true_and]
  · obtain rfl : i = 32 := by omega
    rfl

/-- Settles O6: a format T word is written by its fields, and decodes by them. -/
theorem encodeInvertsDecode : Obligations.EncodeInvertsDecode := by
  refine ⟨fun hasBatch w hw => ?_, fun hasBatch w hw => ?_, encode_decodeE⟩
  · rw [← tWord_eta w, decodeT_tWord, hw, encode_decodeFields_write]
  · rw [← tWord_eta w, decodeT_tWord, hw, tOff_tWord, decodeFields_read_data, encode_decodeFields_read]

/-! ### What decodes is well-formed -/

theorem wf_decodeFields_read (hasBatch : Bool) (off : Offset) :
    (decodeFields hasBatch false off 0).wf hasBatch = true := by
  revert hasBatch off
  decide

/-- The command bits as the two bits that decoding tests (R89, R93). -/
theorem commandBits_eq (data : Word) (b0 b1 : Bool) (h0 : data.getLsbD 0 = b0) (h1 : data.getLsbD 1 = b1) :
    commandBits data = BitVec.ofBool b1 ++ BitVec.ofBool b0 := by
  rw [commandBits_eq_iff, h0, h1]
  cases b0 <;> cases b1 <;> decide

/-- The offsets that decoding leaves to RSV_WR have no write row of their own (R100, R104). -/
theorem definedWrite_of_ne (hasBatch : Bool) (off : Offset) (h00 : off ≠ 0x00) (h01 : off ≠ 0x01)
    (h10 : ¬ (hasBatch = true ∧ off = 0x10)) (h11 : ¬ (hasBatch = true ∧ off = 0x11)) :
    definedWrite hasBatch off = false := by
  revert hasBatch off
  decide

theorem wf_decodeFields_write (hasBatch : Bool) (off : Offset) (data : Word) :
    (decodeFields hasBatch true off data).wf hasBatch = true := by
  rw [decodeFields, if_pos rfl]
  by_cases h00 : off = 0x00
  · rw [if_pos h00]; rfl
  rw [if_neg h00]
  by_cases h01 : off = 0x01
  · rw [if_pos h01]
    cases h0 : data.getLsbD 0 <;> cases h1 : data.getLsbD 1 <;>
      simp [Instr.wf, commandBits_eq data _ _ h0 h1, h0]
  rw [if_neg h01]
  by_cases h10 : hasBatch = true ∧ off = 0x10
  · rw [if_pos h10, h10.1]
    cases h0 : data.getLsbD 0 <;> cases h1 : data.getLsbD 1 <;>
      simp [Instr.wf, commandBits_eq data _ _ h0 h1]
  rw [if_neg h10]
  by_cases h11 : hasBatch = true ∧ off = 0x11
  · rw [if_pos h11, h11.1]; rfl
  rw [if_neg h11, Instr.wf, definedWrite_of_ne hasBatch off h00 h01 h10 h11]
  rfl

/-- Whatever the word, the operation satisfies its row's condition (R100, R240). -/
theorem wf_decodeT (hasBatch : Bool) (w : TWord) : (decodeT hasBatch w).wf hasBatch = true := by
  rw [← tWord_eta w, decodeT_tWord]
  cases tW w with
  | false => rw [decodeFields_read_data]; exact wf_decodeFields_read hasBatch (tOff w)
  | true => exact wf_decodeFields_write hasBatch (tOff w) (tData w)

/-- Settles O7: EDGE has no condition, and format T words decode by their fields. -/
theorem decodedOperationsAreWellFormed : Obligations.DecodedOperationsAreWellFormed := by
  intro hasBatch w
  cases w with
  | e w => rfl
  | t w => exact wf_decodeT hasBatch w

end Sys2Proof

namespace Sys2Proof.Machine

/-- With nothing to take, a step frees the response port. -/
theorem step_idle (s : State) (rest : List Arrival) (h : nextEvent s.inbox = (.idle, rest)) :
    step s = .next (s.accept rest) := by
  simp only [step, h]

/-- Settles O1, by the step of each kind of arrival. -/
theorem stepRunsTheNextInput : Obligations.StepRunsTheNextInput := by
  refine ⟨fun s w e rest h => ⟨wf_decodeT s.params.hasBatch w, ?_⟩, fun s w rest h => step_edge s w rest h,
    fun s h => ?_, fun s rest h => ?_⟩
  · rw [step_word s w e rest h]
    cases e <;> rfl
  · rw [step_idle s [] (by rw [h]; rfl), State.accept, ← h]
  · exact step_idle s rest (by rw [h]; rfl)

end Sys2Proof.Machine
end

section
/-! The operations of the decoder and the register map R86 say the same of every word of format T, whether a
host presents it whole or as a load or store of a byte-addressed host (R51, R52, R55, R84). -/

namespace Sys2Proof.Machine

/-! ### Reads and the register map (R86 to R99) -/

/-- OFF[7:6] = 01 marks the PUB_BITS window (R92). -/
theorem pubWindow_iff (off : Offset) :
    off.extractLsb' 6 2 = 0b01 ↔ 0x40 ≤ off.toNat ∧ off.toNat ≤ 0x7F := by
  revert off
  decide

/-- OFF[7:6] = 10 marks the BD_BITS window (R97). -/
theorem bdWindow_iff (off : Offset) :
    off.extractLsb' 6 2 = 0b10 ↔ 0x80 ≤ off.toNat ∧ off.toNat ≤ 0xBF := by
  revert off
  decide

theorem windowIndex_of_pubWindow (off : Offset) (h : off.extractLsb' 6 2 = 0b01) :
    (windowIndex off).toNat = off.toNat - 0x40 := by
  revert off
  decide

theorem windowIndex_of_bdWindow (off : Offset) (h : off.extractLsb' 6 2 = 0b10) :
    (windowIndex off).toNat = off.toNat - 0x80 := by
  revert off
  decide

/-- An offset is told by its number (R83). -/
theorem offset_number (off : Offset) (n : Nat) (h : n < 256) : off.toNat = n ↔ off = BitVec.ofNat 8 n := by
  rw [← BitVec.toNat_inj, BitVec.toNat_ofNat, Nat.mod_eq_of_lt h]

/-- The register map of reads with its tests in the form and the order in which `decodeFields` makes them
(R86, R104). -/
theorem regRead_eq (s : State) (off : Offset) :
    s.regRead off =
      if off = 0x00 then zextBit s.armed
      else if off = 0x02 then s.statusWord
      else if off = 0x03 then zextCount s.pubCount
      else if off = 0x04 then zextCount s.accCount
      else if off = 0x05 then s.lastTs
      else if off = 0x06 then paramsWord s.params
      else if off.extractLsb' 6 2 = 0b01 then
        windowWord s.params.maxBits s.pubBits (windowIndex off).toNat
      else if s.params.hasBatch ∧ off = 0x12 then s.bdStatusWord
      else if s.params.hasBatch ∧ off = 0x13 then zextCount s.bdLen
      else if s.params.hasBatch ∧ off = 0x14 then zextCount s.bdCount
      else if s.params.hasBatch ∧ off = 0x15 then zextCount s.bdDrops
      else if s.params.hasBatch ∧ off.extractLsb' 6 2 = 0b10 then
        windowWord s.params.bdMaxBits s.bdBits (windowIndex off).toNat
      else 0 := by
  have number (n : Nat) (h : n < 256 := by decide) : off.toNat = n ↔ off = BitVec.ofNat 8 n :=
    offset_number off n h
  simp only [State.regRead, number 0x00, number 0x02, number 0x03, number 0x04, number 0x05, number 0x06,
    number 0x12, number 0x13, number 0x14, number 0x15, BitVec.ofNat_eq_ofNat, ← pubWindow_iff,
    ← bdWindow_iff]
  by_cases hpub : off.extractLsb' 6 2 = 1#2
  · simp only [if_pos hpub, windowIndex_of_pubWindow off hpub]
  simp only [if_neg hpub]
  cases s.params.hasBatch with
  | false => simp only [if_true, Bool.false_eq_true, false_and, if_false]
  | true =>
    simp only [true_and, Bool.true_eq_false, if_false]
    by_cases hbd : off.extractLsb' 6 2 = 2#2
    · simp only [if_pos hbd, windowIndex_of_bdWindow off hbd]
    · simp only [if_neg hbd]

/-- A read operation answers the register map's value at its offset and writes nothing else (R84). -/
theorem exec_read (s : State) (off : Offset) (data : Word) :
    exec (decodeFields s.params.hasBatch false off data) s = .next (s.respond (s.regRead off)) := by
  rw [regRead_eq]
  simp only [decodeFields, apply_ite (exec · s), apply_ite s.respond, apply_ite Host.Outcome.next]
  rfl

/-! ### Writes and the register map (R86 to R99) -/

/-- The operation that DATA[1:0] selects at CMD (R89). -/
theorem exec_cmd (s : State) (data : Word) :
    exec (if data.getLsbD 0 then .cmdResetSession data
      else if data.getLsbD 1 then .cmdConsume data else .cmdNop data) s = .next (s.writeCmd data) := by
  rw [State.writeCmd]
  cases data.getLsbD 0 with
  | true => rfl
  | false =>
    cases data.getLsbD 1 with
    | false => simp only [Bool.false_eq_true, false_and, if_false]; rfl
    | true => simp only [Bool.false_eq_true, true_and, if_false, if_true]; rfl

/-- The operation that DATA[1:0] selects at BD_CTRL (R93). -/
theorem exec_bdCtrl (s : State) (data : Word) :
    exec (if data.getLsbD 1 then (if data.getLsbD 0 then .bdClearRun data else .bdRun data)
      else if data.getLsbD 0 then .bdClear data else .bdCtrlNop data) s = .next (s.writeBdCtrl data) := by
  rw [State.writeBdCtrl]
  cases data.getLsbD 0 <;> cases data.getLsbD 1 <;> rfl

/-- A write operation does what the register map says of a write of its DATA at its offset. -/
theorem exec_write (s : State) (off : Offset) (data : Word) :
    exec (decodeFields s.params.hasBatch true off data) s = .next (s.regWrite off data) := by
  have number (n : Nat) (h : n < 256 := by decide) : off.toNat = n ↔ off = BitVec.ofNat 8 n :=
    offset_number off n h
  simp only [decodeFields, if_true, apply_ite (exec · s), State.regWrite, number 0x00, number 0x01,
    number 0x10, number 0x11, BitVec.ofNat_eq_ofNat]
  by_cases h00 : off = 0#8
  · simp only [if_pos h00]; rfl
  by_cases h01 : off = 1#8
  · simp only [if_neg h00, if_pos h01, ← exec_cmd, apply_ite (exec · s)]
  simp only [if_neg h00, if_neg h01]
  cases s.params.hasBatch with
  | false => simp only [Bool.false_eq_true, false_and, if_false, if_true]; rfl
  | true =>
    simp only [true_and, Bool.true_eq_false, if_false]
    by_cases h10 : off = 16#8
    · simp only [if_pos h10, ← exec_bdCtrl, apply_ite (exec · s)]
    by_cases h11 : off = 17#8
    · simp only [if_neg h10, if_pos h11]; rfl
    · simp only [if_neg h10, if_neg h11]; rfl

/-! ### Words on the interface -/

theorem writeCmd_accept (s : State) (rest : List Arrival) (data : Word) :
    (s.accept rest).writeCmd data = (s.writeCmd data).accept rest := by
  rw [State.writeCmd, State.writeCmd, State.accept_decodeState, apply_ite (State.accept · rest),
    apply_ite (State.accept · rest)]
  rfl

theorem writeBdCtrl_accept (s : State) (rest : List Arrival) (data : Word) :
    (s.accept rest).writeBdCtrl data = (s.writeBdCtrl data).accept rest := by
  rw [State.writeBdCtrl, State.writeBdCtrl]
  cases data.getLsbD 0 <;> cases data.getLsbD 1 <;> rfl

theorem writeBdPush_accept (s : State) (rest : List Arrival) (data : Word) :
    (s.accept rest).writeBdPush data = (s.writeBdPush data).accept rest := by
  rw [State.writeBdPush, State.writeBdPush, State.accept_bdLen, State.accept_params,
    apply_ite (State.accept · rest)]
  rfl

/-- A write neither reads nor writes the inbox and the response port. -/
theorem regWrite_accept (s : State) (rest : List Arrival) (off : Offset) (data : Word) :
    (s.accept rest).regWrite off data = (s.regWrite off data).accept rest := by
  simp only [State.regWrite, writeCmd_accept, writeBdCtrl_accept, writeBdPush_accept, State.accept_params,
    apply_ite (State.accept · rest)]
  rfl

/-- What a host presents is taken as the format T word it stands for (R51). -/
theorem step_of_transaction (s : State) (h : HostInput) (w : TWord) (e : Option EWord) (rest : List Arrival)
    (hin : s.inbox = ⟨some h, e⟩ :: rest) (hw : transaction Config.irdecBase h = .ok w) :
    step s = exec (decodeT s.params.hasBatch w) (s.accept (afterHost e rest)) := by
  simp only [step, hin, nextEvent, decodeHost, hw, Except.map]

/-- The step of a read (R84). -/
theorem step_read (s : State) (h : HostInput) (off : Offset) (data : Word) (e : Option EWord)
    (rest : List Arrival) (hin : s.inbox = ⟨some h, e⟩ :: rest)
    (hw : transaction Config.irdecBase h = .ok (tWord false off data)) :
    step s = .next ((s.accept (afterHost e rest)).respond (s.regRead off)) := by
  rw [step_of_transaction s h _ e rest hin hw, decodeT_tWord]
  exact exec_read (s.accept (afterHost e rest)) off data

/-- The step of a write (R84). -/
theorem step_write (s : State) (h : HostInput) (off : Offset) (data : Word) (e : Option EWord)
    (rest : List Arrival) (hin : s.inbox = ⟨some h, e⟩ :: rest)
    (hw : transaction Config.irdecBase h = .ok (tWord true off data)) :
    step s = .next ((s.regWrite off data).accept (afterHost e rest)) := by
  rw [step_of_transaction s h _ e rest hin hw, decodeT_tWord, ← regWrite_accept]
  exact exec_write (s.accept (afterHost e rest)) off data

/-- A word is the transaction that its fields write (R81). -/
theorem transaction_word (base : Nat) (w : TWord) (W : Bool) (hw : tW w = W) :
    transaction base (.word w) = .ok (tWord W (tOff w) (tData w)) := by
  rw [← hw, tWord_eta]; rfl

/-- Settles O10: decoding by the word's fields, then the read operation at its offset. -/
theorem readWordAnswersTheRegisterMap : Obligations.ReadWordAnswersTheRegisterMap :=
  fun s w e rest hin hw => step_read s _ _ _ e rest hin (transaction_word _ w false hw)

/-- Settles O11: decoding by the word's fields, then the write operation at its offset. -/
theorem writeWordWritesTheRegisterMap : Obligations.WriteWordWritesTheRegisterMap :=
  fun s w e rest hin hw => step_write s _ _ _ e rest hin (transaction_word _ w true hw)

/-! ### The byte-addressed host (R51, R52) -/

theorem transaction_load (base k : Nat) (hk : k < 256) :
    transaction base (.load (base + 4 * k) 4) = .ok (tWord false (BitVec.ofNat 8 k) 0) := by
  rw [transaction, if_pos rfl, offsetOf_word base k hk]; rfl

theorem transaction_store (base k : Nat) (b0 b1 b2 b3 : Byte) (hk : k < 256) :
    transaction base (.store (base + 4 * k) [b0, b1, b2, b3]) =
      .ok (tWord true (BitVec.ofNat 8 k) (leWord b0 b1 b2 b3)) := by
  simp only [transaction, offsetOf_word base k hk, Except.map]

/-- Settles O18: the access is the read or the write of offset k. -/
theorem wordAccessesReachTheRegisters : Obligations.WordAccessesReachTheRegisters := by
  intro s k e rest hk
  refine ⟨fun hin => step_read s _ _ _ e rest hin (transaction_load _ k hk), fun b0 b1 b2 b3 hin => ?_⟩
  rw [← leWord_eq]
  exact step_write s _ _ _ e rest hin (transaction_store _ k b0 b1 b2 b3 hk)

/-- An access that is no transaction is refused (R51). -/
theorem step_of_access_error (s : State) (h : HostInput) (e : Option EWord) (rest : List Arrival)
    (why : AccessError) (hin : s.inbox = ⟨some h, e⟩ :: rest)
    (hw : transaction Config.irdecBase h = .error why) : step s = .refused (.access why) := by
  simp only [step, hin, nextEvent, decodeHost, hw, Except.map]

/-- An address that is no word offset's has no word offset (R51). -/
theorem offsetOf_error (base addr : Nat) (h : ∀ k < 256, addr ≠ base + 4 * k) :
    ∃ why, offsetOf base addr = .error why := by
  rw [offsetOf]
  split_ifs with hout hmod
  · exact ⟨_, rfl⟩
  · exact ⟨_, rfl⟩
  · exact absurd (by omega) (h ((addr - base) / 4) (by omega))

theorem load_error (base addr size : Nat) (h : size ≠ 4 ∨ ∀ k < 256, addr ≠ base + 4 * k) :
    ∃ why, transaction base (.load addr size) = .error why := by
  rw [transaction]
  split_ifs with hsize
  · obtain ⟨why, hwhy⟩ := offsetOf_error base addr (h.resolve_left fun hne => hne hsize)
    exact ⟨why, by rw [hwhy]; rfl⟩
  · exact ⟨_, rfl⟩

theorem store_error (base addr : Nat) (bytes : List Byte)
    (h : bytes.length ≠ 4 ∨ ∀ k < 256, addr ≠ base + 4 * k) :
    ∃ why, transaction base (.store addr bytes) = .error why := by
  simp only [transaction]
  split
  · obtain ⟨why, hwhy⟩ := offsetOf_error base addr (h.resolve_left fun hne => hne rfl)
    exact ⟨why, by rw [hwhy]; rfl⟩
  · exact ⟨_, rfl⟩

/-- Settles O19, by the two ways an access fails to be a transaction. -/
theorem otherAccessesAreRefused : Obligations.OtherAccessesAreRefused := by
  refine ⟨fun s addr size e rest hin h => ?_, fun s addr bytes e rest hin h => ?_⟩
  · obtain ⟨why, hwhy⟩ := load_error Config.irdecBase addr size h
    exact ⟨why, step_of_access_error s _ e rest why hin hwhy⟩
  · obtain ⟨why, hwhy⟩ := store_error Config.irdecBase addr bytes h
    exact ⟨why, step_of_access_error s _ e rest why hin hwhy⟩

/-- Settles O17: operations complete, and a step runs one unless its access is no transaction. -/
theorem everyInputHasAnOutcome : Obligations.EveryInputHasAnOutcome := by
  have completes (i : Instr) (s : State) : ∃ t, exec i s = .next t := by
    obtain ⟨t, ht, -⟩ := exec_completes i s
    exact ⟨t, ht⟩
  refine ⟨completes, fun s => ?_, fun s h e rest why => step_of_access_error s h e rest why⟩
  rcases nextEvent_cases s.inbox with ⟨-, hnext⟩ | ⟨rest, -, hnext⟩ | ⟨h, e, rest, hin, -⟩ | ⟨w, rest, hin, -⟩
  · exact .inl ⟨_, step_idle s _ hnext⟩
  · exact .inl ⟨_, step_idle s _ hnext⟩
  · cases ht : transaction Config.irdecBase h with
    | ok w =>
      rw [step_of_transaction s h w e rest hin ht]
      exact .inl (completes _ _)
    | error why => exact .inr ⟨h, e, rest, why, hin, ht, step_of_access_error s h e rest why hin ht⟩
  · rw [step_edge s w rest hin]
    exact .inl (completes _ _)

/-! ### Message bits as bytes (R52) -/

/-- Byte j of a register word holds its bits 8j+7 down to 8j (R52). -/
theorem leBytes_getLsbD (w : Word) (j n : Nat) (hj : j < 4) (hn : n < 8) :
    ((leBytes w).getD j 0).getLsbD n = w.getLsbD (8 * j + n) := by
  interval_cases j <;> simp [leBytes, hn]

/-- The register map over the PUB_BITS window (R92). -/
theorem regRead_pubOffset (s : State) (k : BitVec 6) :
    s.regRead (pubOffset k) = windowWord s.params.maxBits s.pubBits k.toNat := by
  have h := exec_read s (pubOffset k) 0
  rw [decodeFields_pubOffset] at h
  exact (Option.some.inj (congrArg State.rdata (Host.Outcome.next.inj h))).symm

/-- Settles O20: word i div 32 of the PUB_BITS window, then its byte, then the bit. -/
theorem messageBitsInByteOrder : Obligations.MessageBitsInByteOrder := by
  intro s i hmax hi
  have hk : (BitVec.ofNat 6 (i / 32)).toNat = i / 32 := Nat.mod_eq_of_lt (by omega)
  have hword : s.regRead (BitVec.ofNat 8 (0x40 + i / 32)) = windowWord s.params.maxBits s.pubBits (i / 32) := by
    conv_lhs => rw [← hk, ofNat_eq_pubOffset, regRead_pubOffset, hk]
  have hindex : 32 * (i / 32) + (8 * (i % 32 / 8) + i % 8) = i := by omega
  rw [hword, leBytes_getLsbD _ _ _ (by omega) (by omega), windowWord_getLsbD _ _ _ _ (by omega), hindex,
    decide_eq_true hi, Bool.true_and]

/-! ### Repetition (R55) -/

/-- A read answers a value that its own answer does not change, and writes nothing else. -/
theorem exec_read_repeats (i : Instr) (s : State) (hi : isRead i = true) :
    ∃ v, exec i s = .next { s with rdata := some v } ∧
      exec i { s with rdata := some v } = .next { s with rdata := some v } := by
  cases i
  case edge | wrCtrl | cmdResetSession | cmdConsume | cmdNop | bdClear | bdRun | bdClearRun | bdCtrlNop |
      bdPush | rsvWr => cases hi
  all_goals exact ⟨_, rfl, rfl⟩

/-- CONSUME leaves WAIT at most once, and BD_RUN keeps the train it decodes. -/
theorem exec_idempotent (i : Instr) (s t : State) (hi : isIdempotentWrite i = true)
    (h : exec i s = .next t) : exec i t = .next t := by
  cases i
  case cmdConsume data =>
    by_cases hq : s.decodeState = .eom
    · obtain rfl := Host.Outcome.next.inj ((exec_cmdConsume_eom data s hq).symm.trans h)
      exact exec_cmdConsume_other data s.resetSession DecodeState.noConfusion
    · obtain rfl := Host.Outcome.next.inj ((exec_cmdConsume_other data s hq).symm.trans h)
      exact h
  case wrCtrl | cmdResetSession | cmdNop | bdClear | bdCtrlNop | bdRun => cases h; rfl
  all_goals cases hi

/-- A push with room counts its entry, with no wrap of the counter (R10, R180). -/
theorem pushEntry_bdLen_toNat (s : State) (data : Word) (hmax : s.params.maxPulses ≤ 4096)
    (hroom : s.bdLen.toNat < s.params.maxPulses) :
    (s.pushEntry data).bdLen.toNat = s.bdLen.toNat + 1 := by
  have hone : (1 : Count).toNat = 1 := rfl
  rw [State.pushEntry_bdLen, BitVec.toNat_add, hone, Nat.mod_eq_of_lt (by omega)]

/-- Settles O12; of two pushes with room for both the second appends again. -/
theorem readsAndIdempotentWritesRepeat : Obligations.ReadsAndIdempotentWritesRepeat := by
  refine ⟨exec_read_repeats, exec_idempotent, fun data s t hmax hroom h => ?_⟩
  obtain rfl := Host.Outcome.next.inj ((exec_bdPush_room data s (by omega)).symm.trans h)
  have hfirst := pushEntry_bdLen_toNat s data hmax (by omega)
  have hroom' : (s.pushEntry data).bdLen.toNat < s.params.maxPulses := by omega
  have hsecond := pushEntry_bdLen_toNat (s.pushEntry data) data hmax hroom'
  refine ⟨_, exec_bdPush_room data _ hroom', fun heq => ?_, hsecond⟩
  rw [heq] at hsecond
  omega

end Sys2Proof.Machine
end

section
/-! The batch classifier over every train (R185 to R188), the encoder's trains through it (R189, R190), and
the same through the registers (R180 to R183). -/

namespace Sys2Proof.Machine

/-! ### FromPulseTrain by cases (R185 to R188) -/

theorem headerOk_cons_cons (l0 l1 : Nat) (rest : List Nat) :
    headerOk (l0 :: l1 :: rest) = true ↔ 8000 < l0 ∧ l0 < 10000 ∧ 5000 < l1 ∧ l1 < 7000 := by
  simp [headerOk, and_assoc]

/-- A list with a good header decodes the gaps after it. -/
theorem fromPulseTrain_of_header (l rest : List Nat) (l0 l1 : Nat) (hl : repair l = l0 :: l1 :: rest)
    (h : 8000 < l0 ∧ l0 < 10000 ∧ 5000 < l1 ∧ l1 < 7000) :
    fromPulseTrain l = decodeGaps (gapsOf rest) := by
  simp only [fromPulseTrain, hl, (headerOk_cons_cons l0 l1 rest).2 h, if_true]
  exact extractFrom_zero rest

/-- A train too short for a header (R186). -/
theorem fromPulseTrain_of_length_lt_two (l : List Nat) (h : l.length < 2) : fromPulseTrain l = ⟨[], 0⟩ := by
  refine fromPulseTrain_of_malformed l ?_
  rw [repair, if_neg (by omega), headerOk, decide_eq_false (by omega : ¬ 2 ≤ l.length)]
  rfl

/-- FromPulseTrain of a train of two pulses or more, with the repair resolved. -/
theorem fromPulseTrain_cons_cons (l0 l1 : Nat) (rest : List Nat) :
    fromPulseTrain (l0 :: l1 :: rest) =
      if 40 < (l0 :: l1 :: rest).length ∧ l0 < 1500 ∧ l1 < 1500 then decodeGaps (gapsOf (l0 :: l1 :: rest))
      else if 40 < (l0 :: l1 :: rest).length ∧ 5000 < l0 ∧ l0 < 7000 ∧ l1 < 1500 then
        decodeGaps (gapsOf (l1 :: rest))
      else if 8000 < l0 ∧ l0 < 10000 ∧ 5000 < l1 ∧ l1 < 7000 then decodeGaps (gapsOf rest)
      else ⟨[], 0⟩ := by
  have hrepair : repair (l0 :: l1 :: rest) =
      if 40 < (l0 :: l1 :: rest).length ∧ l0 < 1500 ∧ l1 < 1500 then 9000 :: 6000 :: l0 :: l1 :: rest
      else if 40 < (l0 :: l1 :: rest).length ∧ 5000 < l0 ∧ l0 < 7000 ∧ l1 < 1500 then
        9000 :: l0 :: l1 :: rest
      else l0 :: l1 :: rest := by
    by_cases hlong : 40 < (l0 :: l1 :: rest).length
    · rw [repair, if_pos hlong]
      simp only [hlong, true_and]
      rfl
    · rw [repair, if_neg hlong]
      simp only [hlong, false_and, if_false]
  by_cases hboth : 40 < (l0 :: l1 :: rest).length ∧ l0 < 1500 ∧ l1 < 1500
  · rw [if_pos hboth] at hrepair ⊢
    exact fromPulseTrain_of_header _ _ 9000 6000 hrepair (by decide)
  rw [if_neg hboth] at hrepair ⊢
  by_cases hmark : 40 < (l0 :: l1 :: rest).length ∧ 5000 < l0 ∧ l0 < 7000 ∧ l1 < 1500
  · rw [if_pos hmark] at hrepair ⊢
    exact fromPulseTrain_of_header _ _ 9000 l0 hrepair (by omega)
  rw [if_neg hmark] at hrepair ⊢
  by_cases hheader : 8000 < l0 ∧ l0 < 10000 ∧ 5000 < l1 ∧ l1 < 7000
  · rw [if_pos hheader]
    exact fromPulseTrain_of_header _ _ l0 l1 hrepair hheader
  · rw [if_neg hheader]
    refine fromPulseTrain_of_malformed _ ?_
    rwa [hrepair, ← Bool.not_eq_true, headerOk_cons_cons]

/-- Settles O44, by the two lemmas for trains with and without two pulses. -/
theorem gapsDecodeByPosition : Obligations.GapsDecodeByPosition :=
  ⟨fromPulseTrain_cons_cons, fromPulseTrain_of_length_lt_two⟩

/-! ### The size of a result (R187) -/

theorem gapsOf_length : ∀ l : List Nat, (gapsOf l).length = l.length / 2
  | [] => rfl
  | [_] => by rw [gapsOf, List.length_singleton, List.length_nil]
  | _ :: _ :: rest => by
    rw [gapsOf, List.length_cons, gapsOf_length rest, List.length_cons, List.length_cons]
    omega

/-- A gap below 900 is a 0 (R187). -/
theorem decodeGaps_short (g : Nat) (gaps : List Nat) (h : g < 900) :
    decodeGaps (g :: gaps) = ⟨false :: (decodeGaps gaps).bits, (decodeGaps gaps).drops⟩ := by
  simp [decodeGaps, h, show ¬ 2000 ≤ g by omega]

/-- A gap from 900 on and below 2000 is a 1 (R187). -/
theorem decodeGaps_long (g : Nat) (gaps : List Nat) (h : 900 ≤ g) (h' : g < 2000) :
    decodeGaps (g :: gaps) = ⟨true :: (decodeGaps gaps).bits, (decodeGaps gaps).drops⟩ := by
  simp [decodeGaps, h', show ¬ g < 900 by omega, show ¬ 2000 ≤ g by omega]

/-- A gap from 2000 on is dropped and counted (R187). -/
theorem decodeGaps_dropped (g : Nat) (gaps : List Nat) (h : 2000 ≤ g) :
    decodeGaps (g :: gaps) = ⟨(decodeGaps gaps).bits, (decodeGaps gaps).drops + 1⟩ := by
  simp [decodeGaps, h, show ¬ g < 900 by omega, show ¬ g < 2000 by omega]

/-- Every gap is one bit or one drop. -/
theorem decodeGaps_size (gaps : List Nat) :
    (decodeGaps gaps).bits.length + (decodeGaps gaps).drops = gaps.length := by
  induction gaps with
  | nil => rfl
  | cons g gaps ih =>
    rw [List.length_cons, ← ih]
    rcases Nat.lt_or_ge g 900 with h | h
    · simp only [decodeGaps_short g gaps h, List.length_cons]; omega
    rcases Nat.lt_or_ge g 2000 with h' | h'
    · simp only [decodeGaps_long g gaps h h', List.length_cons]; omega
    · simp only [decodeGaps_dropped g gaps h']; omega

/-- Settles O45: a result comes from the gaps of the train or of what is left of it after a header. -/
theorem resultIsAtMostHalfTheTrain : Obligations.ResultIsAtMostHalfTheTrain := by
  intro l
  match l with
  | [] => exact Nat.le_refl 0
  | [d] => rw [fromPulseTrain_of_length_lt_two [d] Nat.one_lt_two]; exact Nat.zero_le _
  | l0 :: l1 :: rest =>
    have hsize (gaps : List Nat) (h : gaps.length ≤ (l0 :: l1 :: rest).length) :
        (decodeGaps (gapsOf gaps)).bits.length + (decodeGaps (gapsOf gaps)).drops ≤
          (l0 :: l1 :: rest).length / 2 := by
      rw [decodeGaps_size, gapsOf_length]
      exact Nat.div_le_div_right h
    rw [fromPulseTrain_cons_cons]
    split_ifs
    · exact hsize _ (Nat.le_refl _)
    · exact hsize _ (Nat.le_succ _)
    · exact hsize _ (by simp only [List.length_cons]; omega)
    · exact Nat.zero_le _

/-! ### The encoder's trains (R189, R190, R212) -/

/-- The gaps of a message's data pulses are those of its bits; a last mark has none (R187, R210). -/
theorem decodeGaps_dataPulses (b : List Bool) (mark : Nat) :
    decodeGaps (gapsOf (dataPulses b ++ [mark])) = ⟨b, 0⟩ := by
  induction b with
  | nil => rfl
  | cons x xs ih =>
    rw [dataPulses, List.cons_append, List.cons_append, gapsOf]
    cases x with
    | false => rw [decodeGaps_short _ _ (by decide), ih]
    | true => rw [decodeGaps_long _ _ (by decide) (by decide), ih]

/-- A whole train has a header that no repair touches. -/
theorem fromPulseTrain_toPulseTrain (b : List Bool) : fromPulseTrain (toPulseTrain b) = ⟨b, 0⟩ := by
  rw [toPulseTrain, fromPulseTrain_cons_cons, if_neg (by simp [leaderMark]), if_neg (by simp [leaderMark]),
    if_pos (by decide), decodeGaps_dataPulses]

/-- Settles O46, by induction on the bits of the message. -/
theorem encoderRoundTrip : Obligations.EncoderRoundTrip := by
  intro b
  rw [fromPulseTrain_toPulseTrain]
  exact ⟨rfl, rfl⟩

/-- Without the leader: of 41 pulses or more the first two are a data mark and its gap, both short. -/
theorem fromPulseTrain_without_leader (b : List Bool) :
    fromPulseTrain (dataPulses b ++ [endMark]) = if 20 ≤ b.length then ⟨b, 0⟩ else ⟨[], 0⟩ := by
  have hlen : (dataPulses b ++ [endMark]).length = 2 * b.length + 1 := by simp [dataPulses_length]
  cases b with
  | nil => rfl
  | cons x xs =>
    have hgap : (if x then longGap else shortGap) < 1500 := by cases x <;> decide
    have hdecode := decodeGaps_dataPulses (x :: xs) endMark
    rw [dataPulses, List.cons_append, List.cons_append] at hlen hdecode ⊢
    rw [fromPulseTrain_cons_cons, hlen, hdecode]
    by_cases hlong : 20 ≤ (x :: xs).length
    · rw [if_pos ⟨by omega, by decide, hgap⟩, if_pos hlong]
    · rw [if_neg (by omega), if_neg (by omega), if_neg (by simp [dataMark]), if_neg hlong]

/-- Without the leader mark: the leader gap stands first, and a data mark follows it. -/
theorem fromPulseTrain_without_leaderMark (b : List Bool) (h : 20 ≤ b.length) :
    fromPulseTrain (leaderGap :: (dataPulses b ++ [endMark])) = ⟨b, 0⟩ := by
  have hlen : (leaderGap :: (dataPulses b ++ [endMark])).length = 2 * b.length + 2 := by
    simp [dataPulses_length]
  cases b with
  | nil => cases h
  | cons x xs =>
    have hdecode := decodeGaps_dataPulses (x :: xs) endMark
    rw [dataPulses, List.cons_append, List.cons_append] at hlen hdecode ⊢
    rw [fromPulseTrain_cons_cons, hlen, if_neg (by simp [leaderGap]),
      if_pos ⟨by omega, by decide, by decide, by decide⟩, hdecode]

/-- Settles O47, by the lemmas for a train without its leader and without its leader mark. -/
theorem truncatedTrainIsRepaired : Obligations.TruncatedTrainIsRepaired := by
  intro b
  refine ⟨fun h => ⟨?_, fromPulseTrain_without_leaderMark b h⟩, fun h => ?_⟩
  · exact (fromPulseTrain_without_leader b).trans (if_pos h)
  · exact (fromPulseTrain_without_leader b).trans (if_neg (by omega))

theorem toPulseTrain_length (b : List Bool) : (toPulseTrain b).length = 2 * b.length + 3 := by
  simp [toPulseTrain, dataPulses_length]

theorem dataPulses_sum (b : List Bool) :
    (dataPulses b).sum = 1200 * b.count false + 1800 * b.count true := by
  induction b with
  | nil => rfl
  | cons x xs ih =>
    rw [dataPulses, List.sum_cons, List.sum_cons, ih]
    cases x
    · simp [dataMark, shortGap]; omega
    · simp [dataMark, longGap]; omega

/-- Settles O51: leader and end mark last 16700, a 0 lasts 1200 and a 1 lasts 1800. -/
theorem trainLengthAndDuration : Obligations.TrainLengthAndDuration := by
  intro b
  refine ⟨toPulseTrain_length b, ?_⟩
  rw [duration, toPulseTrain, List.sum_cons, List.sum_cons, List.sum_append, dataPulses_sum, List.sum_singleton,
    leaderMark, leaderGap, endMark]
  omega

/-! ### The pushed train (R30, R180 to R183) -/

/-- A push with room appends to the train. -/
theorem pushEntry_train (s : State) (data : Word) (hmax : s.params.maxPulses ≤ 4096)
    (hroom : s.bdLen.toNat < s.params.maxPulses) :
    (s.pushEntry data).train = s.train ++ [data.toNat] := by
  rw [State.train, pushEntry_bdLen_toNat s data hmax hroom, State.pushEntry_bdBuf, pulseTrain_setEntry]
  rfl

/-- Settles O39: a push with room, its train, its length and the entries it leaves. -/
theorem pushExtendsTheTrain : Obligations.PushExtendsTheTrain := by
  intro data s hmax hroom
  refine ⟨_, exec_bdPush_room data s hroom, pushEntry_train s data hmax hroom,
    pushEntry_bdLen_toNat s data hmax hroom, fun n hn => ?_⟩
  rw [State.pushEntry_bdBuf, entry_setEntry, if_neg hn]

/-- BD_RUN after a clear finds an empty train and stores the empty result (R183). -/
theorem clearBatch_runBatch (s : State) : s.clearBatch.runBatch = s.clearBatch := by
  rw [State.runBatch, train_of_bdLen_zero s.clearBatch rfl]
  rfl

/-- Settles O42, by decoding and the run of the empty train. -/
theorem bdClearRunEqualsBdClear : Obligations.BdClearRunEqualsBdClear := by
  refine ⟨fun data h1 h0 => ?_, fun data s => ?_⟩
  · rw [decodeT_bdCtrl, h1, h0]
    rfl
  · have hrun : exec (.bdClearRun data) s = .next s.clearBatch :=
      congrArg Host.Outcome.next (clearBatch_runBatch s)
    exact ⟨hrun, hrun, _, rfl, rfl⟩

/-- The pushes of a list of pulses. -/
def pushOps (train : List Nat) : List Instr := train.map (fun d => .bdPush (BitVec.ofNat 32 d))

/-- Pushes that all have room append their pulses and change nothing outside the batch unit (R180). -/
theorem runInstrs_pushOps (train : List Nat) (s : State) (hr : s.rdata = none)
    (hsmall : ∀ d ∈ train, d < 2 ^ 32) (hmax : s.params.maxPulses ≤ 4096)
    (hroom : s.bdLen.toNat + train.length ≤ s.params.maxPulses) :
    ∃ t, runInstrs (pushOps train) s = .next t ∧ t.train = s.train ++ train ∧
      t.bdLen.toNat = s.bdLen.toNat + train.length ∧ t.bdOvf = s.bdOvf ∧ t.withBatchOf s = s := by
  induction train generalizing s with
  | nil => exact ⟨s, rfl, (List.append_nil _).symm, rfl, rfl, rfl⟩
  | cons d train ih =>
    rw [List.length_cons] at hroom
    have hquiet : ({ s with rdata := none } : State) = s := by rw [← hr]
    have hd : (BitVec.ofNat 32 d).toNat = d := Nat.mod_eq_of_lt (hsmall d List.mem_cons_self)
    have hlen := pushEntry_bdLen_toNat s (BitVec.ofNat 32 d) hmax (by omega)
    have htrain := pushEntry_train s (BitVec.ofNat 32 d) hmax (by omega)
    obtain ⟨t, hrun, htrain', hlen', hovf, hframe⟩ := ih (s.pushEntry (BitVec.ofNat 32 d)) hr
      (fun d' h => hsmall d' (List.mem_cons_of_mem d h)) hmax (by rw [hlen, State.pushEntry_params]; omega)
    refine ⟨t, ?_, ?_, ?_, hovf, ?_⟩
    · rw [← hrun, pushOps, List.map_cons, runInstrs, hquiet, exec_bdPush_room _ s (by omega)]
      rfl
    · rw [htrain', htrain, hd, List.append_assoc]
      rfl
    · rw [hlen', hlen, List.length_cons]
      omega
    · calc t.withBatchOf s
          = (t.withBatchOf (s.pushEntry (BitVec.ofNat 32 d))).withBatchOf s := rfl
        _ = (s.pushEntry (BitVec.ofNat 32 d)).withBatchOf s := by rw [hframe]
        _ = s := rfl

/-- The pulses of an encoded message are short words (R210). -/
theorem toPulseTrain_lt (b : List Bool) : ∀ d ∈ toPulseTrain b, d < 2 ^ 32 := by
  have hdata : ∀ d ∈ dataPulses b, d < 2 ^ 32 := by
    induction b with
    | nil => intro d hd; cases hd
    | cons x xs ih =>
      intro d hd
      rw [dataPulses, List.mem_cons, List.mem_cons] at hd
      rcases hd with rfl | rfl | hd
      · decide
      · cases x <;> decide
      · exact ih d hd
  intro d hd
  rw [toPulseTrain, List.mem_cons, List.mem_cons, List.mem_append, List.mem_singleton] at hd
  rcases hd with rfl | rfl | hd | rfl
  · decide
  · decide
  · exact hdata d hd
  · decide

/-- The operations of BD_CLEAR, the pushes of a train, and BD_RUN. -/
def classifyOps (train : List Nat) : List Instr := [.bdClear 1] ++ pushOps train ++ [.bdRun 2]

theorem classifyOps_length (train : List Nat) : (classifyOps train).length = train.length + 2 := by
  simp [classifyOps, pushOps]

theorem wf_of_mem_classifyOps (train : List Nat) : ∀ i ∈ classifyOps train, i.wf true = true := by
  intro i hi
  simp only [classifyOps, pushOps, List.mem_append, List.mem_singleton, List.mem_map] at hi
  rcases hi with (rfl | ⟨d, -, rfl⟩) | rfl <;> rfl

/-- Those operations classify a train that fits the buffer, and change nothing outside the batch unit. -/
theorem runInstrs_classifyOps (train : List Nat) (s : State) (hsmall : ∀ d ∈ train, d < 2 ^ 32)
    (hmax : s.params.maxPulses ≤ 4096) (hroom : train.length ≤ s.params.maxPulses) :
    ∃ t : State, runInstrs (classifyOps train) { s with inbox := [] } = .next t.runBatch ∧ t.train = train ∧
      t.bdLen.toNat = train.length ∧ t.bdOvf = false ∧ t.withBatchOf s = s.quiet := by
  obtain ⟨t, hrun, htrain, hlen, hovf, hframe⟩ := runInstrs_pushOps train s.quiet.clearBatch rfl hsmall hmax
    ((Nat.zero_add _).trans_le hroom)
  have hquiet : ({ t with rdata := none } : State) = t := by
    have hport : t.rdata = none := congrArg State.rdata hframe
    rw [← hport]
  refine ⟨t, ?_, ?_, hlen.trans (Nat.zero_add _), hovf, ?_⟩
  · have hpushed : runInstrs ([.bdClear 1] ++ pushOps train) { s with inbox := [] } = .next t := hrun
    rw [classifyOps, runInstrs_append _ _ _ t hpushed, runInstrs, hquiet]
    rfl
  · rw [htrain, train_of_bdLen_zero s.quiet.clearBatch rfl, List.nil_append]
  · calc t.withBatchOf s
        = (t.withBatchOf s.quiet.clearBatch).withBatchOf s := rfl
      _ = s.quiet := by rw [hframe]; rfl

/-- Settles O48: the words apply in order (R57), and the classified train is the encoded message's. -/
theorem registersDecodeThePushedMessage : Obligations.RegistersDecodeThePushedMessage := by
  intro s b hbatch hmax hroom
  have hlength : (classifyOps (toPulseTrain b)).length = 2 * b.length + 5 := by
    rw [classifyOps_length, toPulseTrain_length]
  obtain ⟨t, hrun, htrain, hlen, hovf, hframe⟩ := runInstrs_classifyOps (toPulseTrain b) s
    (toPulseTrain_lt b) hmax (by rw [toPulseTrain_length]; exact hroom)
  have hresult : t.runBatch = t.setResult b 0 := by
    rw [State.runBatch, htrain, fromPulseTrain_toPulseTrain]
  have hcount : (BitVec.ofNat 16 b.length).toNat = b.length := Nat.mod_eq_of_lt (by omega)
  refine ⟨t.setResult b 0, ?_, rfl, hcount, rfl, ?_, hovf, hframe⟩
  · rw [hresult] at hrun
    rw [← hlength]
    exact (inputsApplyInOrder _ s (by rw [hbatch]; exact wf_of_mem_classifyOps _)).trans hrun
  · rw [State.setResult_bdLen, hlen, toPulseTrain_length]

end Sys2Proof.Machine
end

section
/-! The transition table as a relation (R112, R130), the edges that abort (R122, R125), and edges at a
disarmed receiver (R59, R110, R243). -/

namespace Sys2Proof.Machine

/-! ### One row for every edge (R112, R130) -/

theorem edgeRow_reserved7 (e : Nat) (level : Level) : edgeRow .reserved7 e level = .row10 := by
  simp [edgeRow]

/-- Outside the leader mark window, or falling: what the abort range of WAIT and EOM says (R113, R130). -/
theorem not_leaderMark_iff (e : Nat) (level : Level) :
    ¬ (6000 < e ∧ e < 12000 ∧ level = .high) ↔ level = .low ∨ e ≤ 6000 ∨ 12000 ≤ e := by
  cases level with
  | low => simp
  | high => simp; omega

/-- The row that the decoder takes is one whose condition holds. -/
theorem rowHolds_edgeRow (q : DecodeState) (e : Nat) (level : Level) :
    rowHolds (edgeRow q e level) q e level := by
  cases q with
  | wait | eom =>
    rw [edgeRow_wait_or_eom _ e level (by decide)]
    split_ifs with h
    · exact ⟨by decide, h⟩
    · exact (not_leaderMark_iff e level).1 h
  | lag =>
    rw [edgeRow_lag]
    split_ifs with h
    · exact ⟨rfl, h⟩
    · show e ≤ 2500 ∨ 7500 ≤ e
      omega
  | lead =>
    rw [edgeRow_lead]
    split_ifs with h
    · exact ⟨rfl, h⟩
    · show e ≤ 200 ∨ 800 ≤ e
      omega
  | dmas =>
    rw [edgeRow_dmas]
    split_ifs with h h'
    · exact ⟨rfl, h⟩
    · exact ⟨rfl, h'⟩
    · show e ≤ 200 ∨ 2000 ≤ e
      omega
  | dls =>
    rw [edgeRow_dls]
    split_ifs with h h'
    · exact ⟨rfl, h⟩
    · exact ⟨rfl, h'⟩
    · show e ≤ 200 ∨ 1800 ≤ e
      omega
  | dss =>
    rw [edgeRow_dss]
    split_ifs with h h'
    · exact ⟨rfl, h⟩
    · exact ⟨rfl, h'⟩
    · show e ≤ 200 ∨ 1800 ≤ e
      omega
  | reserved7 =>
    rw [edgeRow_reserved7]
    trivial

/-- A row whose condition holds is the one the decoder takes. -/
theorem edgeRow_of_rowHolds (r : TableRow) (q : DecodeState) (e : Nat) (level : Level)
    (h : rowHolds r q e level) : edgeRow q e level = r := by
  cases r with
  | row1 =>
    obtain ⟨hq, hwindow⟩ := h
    rw [edgeRow_wait_or_eom q e level hq, if_pos hwindow]
  | row2 => obtain ⟨rfl, h⟩ := h; rw [edgeRow_lag, if_pos h]
  | row3 => obtain ⟨rfl, h⟩ := h; rw [edgeRow_lead, if_pos h]
  | row4 => obtain ⟨rfl, h⟩ := h; rw [edgeRow_dmas, if_pos h]
  | row5 => obtain ⟨rfl, h⟩ := h; rw [edgeRow_dmas, if_neg (by omega), if_pos h]
  | row6 => obtain ⟨rfl, h⟩ := h; rw [edgeRow_dls, if_pos h]
  | row7 => obtain ⟨rfl, h⟩ := h; rw [edgeRow_dls, if_neg (by omega), if_pos h]
  | row8 => obtain ⟨rfl, h⟩ := h; rw [edgeRow_dss, if_pos h]
  | row9 => obtain ⟨rfl, h⟩ := h; rw [edgeRow_dss, if_neg (by omega), if_pos h]
  | row10 =>
    cases q with
    | wait | eom =>
      rw [edgeRow_wait_or_eom _ e level (by decide), if_neg ((not_leaderMark_iff e level).2 h)]
    | lag =>
      change e ≤ 2500 ∨ 7500 ≤ e at h
      rw [edgeRow_lag, if_neg (by omega)]
    | lead =>
      change e ≤ 200 ∨ 800 ≤ e at h
      rw [edgeRow_lead, if_neg (by omega)]
    | dmas =>
      change e ≤ 200 ∨ 2000 ≤ e at h
      rw [edgeRow_dmas, if_neg (by omega), if_neg (by omega)]
    | dls =>
      change e ≤ 200 ∨ 1800 ≤ e at h
      rw [edgeRow_dls, if_neg (by omega), if_neg (by omega)]
    | dss =>
      change e ≤ 200 ∨ 1800 ≤ e at h
      rw [edgeRow_dss, if_neg (by omega), if_neg (by omega)]
    | reserved7 => exact edgeRow_reserved7 e level

/-- Settles O25: the row taken holds, and every row that holds is taken. -/
theorem oneRowForEveryEdge : Obligations.OneRowForEveryEdge := by
  intro q e level r
  constructor
  · intro h
    exact (edgeRow_of_rowHolds r q e level h).symm
  · rintro rfl
    exact rowHolds_edgeRow q e level

/-! ### Edges that abort (R122, R125), and LEVEL (R123) -/

/-- An armed edge outside the windows of its state. -/
theorem exec_edge_abort (s : State) (e : Nat) (level : Level) (ha : s.armed = true) (he : e < 2 ^ 32)
    (h : rowHolds .row10 s.decodeState e level) :
    exec (.edge (s.nowAfter e) level) s = .next (s.setLastTs (s.nowAfter e)).abort := by
  rw [exec_edge_nowAfter s e level ha he, edgeRow_of_rowHolds .row10 _ _ _ h]
  rfl

/-- Settles O24, by the abort of an edge for which row 10 holds. -/
theorem otherEdgesAbort : Obligations.OtherEdgesAbort := exec_edge_abort

/-- The row of an edge outside WAIT and EOM, where row 1 is out of the question. -/
theorem edgeRow_level (q : DecodeState) (e : Nat) (hwait : q ≠ .wait) (heom : q ≠ .eom) (level : Level) :
    edgeRow q e level = edgeRow q e .low := by
  have hrow1 : ¬ (q = .wait ∨ q = .eom) := fun h => h.elim hwait heom
  simp only [edgeRow, hrow1, false_and, if_false]

/-- Settles O26: armed, both edges take the same row; disarmed, both are lost. -/
theorem levelIsReadOnlyForTheLeader : Obligations.LevelIsReadOnlyForTheLeader := by
  intro s now hwait heom
  cases ha : s.armed with
  | true =>
    rw [exec_edge_armed now .high s ha, exec_edge_armed now .low s ha, decodeStep,
      State.setLastTs_decodeState, edgeRow_level _ _ hwait heom .high]
    rfl
  | false => rw [exec_edge_disarmed now .high s ha, exec_edge_disarmed now .low s ha]

/-- The times of two edges one after the other (R111). -/
theorem nowAfter_add (s t : State) (e g : Nat) (h : t.lastTs = s.nowAfter e) :
    t.nowAfter g = s.nowAfter (e + g) := by
  rw [State.nowAfter, h, State.nowAfter, State.nowAfter, BitVec.ofNat_add, BitVec.add_assoc]

/-- The first operation of a list, when it is known where it leads. -/
theorem runInstrs_cons (i : Instr) (is : List Instr) (s t : State)
    (h : exec i { s with rdata := none } = .next t) :
    runInstrs (i :: is) s = runInstrs is t := by
  simp only [runInstrs, h]

/-- Settles O27: the leader mark aborts to WAIT, and the leader gap, a falling edge, aborts there. -/
theorem leaderInsideMessageIsLost : Obligations.LeaderInsideMessageIsLost := by
  intro s e g ha hq hlo hhi hglo hghi
  have hmark : rowHolds .row10 s.decodeState e .high := by
    rcases hq with ⟨hq, h⟩ | hq | hq | hq | hq <;> rw [hq]
    · exact .inr h
    all_goals exact .inr (by omega)
  have hfirst := exec_edge_abort { s with rdata := none } e .high ha (by omega) hmark
  have hsecond := exec_edge_abort { (s.setLastTs (s.nowAfter e)).abort with rdata := none } g .low ha
    (by omega) (.inl rfl)
  rw [nowAfter_add s _ e g rfl] at hsecond
  exact (runInstrs_cons _ _ s _ hfirst).trans (runInstrs_cons _ _ _ _ hsecond)

/-! ### Edges at a disarmed receiver (R59, R110, R243) -/

/-- Every list of operations runs to the state that `applyAll` gives (R240). -/
theorem runInstrs_eq_applyAll (is : List Instr) (s : State) : runInstrs is s = .next (applyAll is s) := by
  induction is generalizing s with
  | nil => rfl
  | cons i is ih =>
    obtain ⟨t, ht, -⟩ := exec_completes i { s with rdata := none }
    rw [runInstrs_cons i is s t ht, ih t, applyAll, applyAll, List.foldl_cons, applyOp_next i s t ht]

/-- The port is free before an operation, whatever it held (R84). -/
theorem applyOp_port (i : Instr) (s : State) : applyOp i { s with rdata := none } = applyOp i s := by
  obtain ⟨t, ht, -⟩ := exec_completes i { s with rdata := none }
  rw [applyOp_next i s t ht, applyOp_next i { s with rdata := none } t ht]

/-- What the port holds before a list of operations can be seen at most on the port after it. -/
theorem applyAll_port (is : List Instr) (s : State) :
    ({ applyAll is { s with rdata := none } with rdata := none } : State) =
      { applyAll is s with rdata := none } := by
  cases is with
  | nil => rfl
  | cons i is => simp only [applyAll, List.foldl_cons, applyOp_port]

/-- A disarmed edge frees the port and does nothing else (R110). -/
theorem applyOp_edge_disarmed (now : Word) (level : Level) (s : State) (h : s.armed = false) :
    applyOp (.edge now level) s = { s with rdata := none } :=
  applyOp_next _ _ _ (exec_edge_disarmed now level { s with rdata := none } h)

end Sys2Proof.Machine
end

section
/-! What one operation and one step can do to the state, said once as a relation (`exec_effect`,
`step_effect`), and the rules that follow: who writes what (R22 to R32, R165), and disarmed windows (R59). -/

namespace Sys2Proof.Machine

/-! ### The effects of the operations -/

/-- The effects an operation can have, each with the operations that have it. -/
inductive Effect (s : State) : Instr → State → Prop where
  /-- An edge at a disarmed receiver, a CONSUME outside EndOfMessage, or one of the three that do nothing. -/
  | unchanged (i : Instr) (hreset : ∀ d, i ≠ .cmdResetSession d)
      (hconsume : ∀ d, i = .cmdConsume d → s.decodeState ≠ .eom)
      (hedge : ∀ now level, i = .edge now level → s.armed = false) : Effect s i s
  | read (i : Instr) (v : Word) (hread : isRead i = true) : Effect s i (s.respond v)
  | armedEdge (now : Word) (level : Level) (harmed : s.armed = true) :
      Effect s (.edge now level)
        (applyRow (edgeRow s.decodeState (elapsed now s.lastTs) level) (s.setLastTs now))
  | writeArm (d : Word) : Effect s (.wrCtrl d) (s.setArm (d.getLsbD 0))
  | reset (d : Word) : Effect s (.cmdResetSession d) s.resetSession
  | consume (d : Word) (heom : s.decodeState = .eom) : Effect s (.cmdConsume d) s.resetSession
  | push (d : Word) (hroom : s.bdLen.toNat < s.params.maxPulses) : Effect s (.bdPush d) (s.pushEntry d)
  | overflow (d : Word) (hfull : s.params.maxPulses ≤ s.bdLen.toNat) : Effect s (.bdPush d) s.overflow
  | clear (d : Word) : Effect s (.bdClear d) s.clearBatch
  | clearRun (d : Word) : Effect s (.bdClearRun d) s.clearBatch
  | run (d : Word) : Effect s (.bdRun d) s.runBatch

/-- Every operation has one of these effects. -/
theorem exec_effect (i : Instr) (s t : State) (h : exec i s = .next t) : Effect s i t := by
  cases i
  case edge now level =>
    cases ha : s.armed with
    | true =>
      obtain rfl := Host.Outcome.next.inj ((exec_edge_armed now level s ha).symm.trans h)
      exact .armedEdge now level ha
    | false =>
      obtain rfl := Host.Outcome.next.inj ((exec_edge_disarmed now level s ha).symm.trans h)
      exact .unchanged _ nofun nofun fun _ _ _ => ha
  case cmdConsume d =>
    by_cases hq : s.decodeState = .eom
    · obtain rfl := Host.Outcome.next.inj ((exec_cmdConsume_eom d s hq).symm.trans h)
      exact .consume d hq
    · obtain rfl := Host.Outcome.next.inj ((exec_cmdConsume_other d s hq).symm.trans h)
      exact .unchanged _ nofun (fun _ _ => hq) nofun
  case bdPush d =>
    rcases Nat.lt_or_ge s.bdLen.toNat s.params.maxPulses with hl | hl
    · obtain rfl := Host.Outcome.next.inj ((exec_bdPush_room d s hl).symm.trans h)
      exact .push d hl
    · obtain rfl := Host.Outcome.next.inj ((exec_bdPush_full d s hl).symm.trans h)
      exact .overflow d hl
  case bdClearRun d =>
    obtain rfl := Host.Outcome.next.inj h
    rw [clearBatch_runBatch]
    exact .clearRun d
  case wrCtrl d => cases h; exact .writeArm d
  case cmdResetSession d => cases h; exact .reset d
  case bdClear d => cases h; exact .clear d
  case bdRun d => cases h; exact .run d
  case cmdNop | bdCtrlNop | rsvWr => cases h; exact .unchanged _ nofun nofun nofun
  all_goals (cases h; exact .read _ _ rfl)

/-- The next event is the operation: an edge that is it, or a host transaction that decodes to it. -/
def State.takes (s : State) (i : Instr) : Prop :=
  (∃ w rest, nextEvent s.inbox = (.edge w, rest) ∧ decodeE w = i) ∨ s.hostOpNext i

/-- A step takes nothing, or it takes an operation and does what that does. -/
theorem step_takes (s t : State) (h : step s = .next t) :
    (∃ rest, t = s.accept rest) ∨ ∃ i rest, s.takes i ∧ exec i (s.accept rest) = .next t := by
  rcases step_cases s with ⟨rest, -, hstep⟩ | ⟨w, rest, hnext, hstep⟩ | ⟨hin, rest, i, hnext, hop, hstep⟩ |
    ⟨hin, rest, why, -, -, hstep⟩
  · exact .inl ⟨rest, Host.Outcome.next.inj (h.symm.trans hstep)⟩
  · exact .inr ⟨_, rest, .inl ⟨w, rest, hnext, rfl⟩, hstep.symm.trans h⟩
  · exact .inr ⟨i, rest, .inr ⟨hin, rest, hnext, hop⟩, hstep.symm.trans h⟩
  · cases hstep.symm.trans h

/-- Whatever a step changes, but for the inbox and the port, the operation it takes changes. -/
theorem writer_of_step {α : Type} (f : State → α) (s t : State) (hf : ∀ rest, f (s.accept rest) = f s)
    (h : step s = .next t) (hne : f t ≠ f s) :
    ∃ i rest, s.takes i ∧ exec i (s.accept rest) = .next t ∧ f t ≠ f (s.accept rest) := by
  rcases step_takes s t h with ⟨rest, rfl⟩ | ⟨i, rest, htakes, hexec⟩
  · exact absurd (hf rest) hne
  · exact ⟨i, rest, htakes, hexec, by rwa [hf rest]⟩

/-- The operations of host transactions are those of format T words (R80). -/
theorem decodeHost_eq_ok (base : Nat) (hasBatch : Bool) (h : HostInput) (i : Instr)
    (hop : decodeHost base hasBatch h = .ok i) : ∃ w, i = decodeT hasBatch w := by
  rw [decodeHost] at hop
  cases ht : transaction base h with
  | ok w => rw [ht] at hop; exact ⟨w, (Except.ok.inj hop).symm⟩
  | error why => rw [ht] at hop; cases hop

/-- An edge that is taken comes from the edge source (R80). -/
theorem edgeNext_of_takes (s : State) (now : Word) (level : Level) (h : s.takes (.edge now level)) :
    ∃ w rest, nextEvent s.inbox = (.edge w, rest) := by
  rcases h with ⟨w, rest, hnext, -⟩ | ⟨hin, rest, -, hop⟩
  · exact ⟨w, rest, hnext⟩
  · obtain ⟨w, hw⟩ := decodeHost_eq_ok _ _ _ _ hop
    exact absurd hw.symm (decodeT_ne_edge _ _ _ _)

/-- Anything else that is taken comes from the host (R80). -/
theorem hostOpNext_of_takes (s : State) (i : Instr) (h : s.takes i) (hi : isEdge i = false) : s.hostOpNext i := by
  rcases h with ⟨w, rest, -, rfl⟩ | h
  · cases hi
  · exact h

/-! ### Who writes what (R22 to R32, R165) -/

theorem applyRow_armed (r : TableRow) (s : State) : (applyRow r s).armed = s.armed := by
  obtain ⟨_, _, _, _, _, h⟩ := applyRow_frame r s
  rw [h]

/-- LAST_TS is written by armed edges only (R25). -/
theorem armedEdge_of_lastTs_ne (i : Instr) (s t : State) (h : Effect s i t) (hne : t.lastTs ≠ s.lastTs) :
    s.armed = true ∧ ∃ now level, i = .edge now level := by
  cases h with
  | armedEdge now level ha => exact ⟨ha, now, level, rfl⟩
  | _ => exact absurd rfl hne

/-- ARM is written by WR_CTRL only (R29). -/
theorem wrCtrl_of_armed_ne (i : Instr) (s t : State) (h : Effect s i t) (hne : t.armed ≠ s.armed) :
    ∃ d, i = .wrCtrl d ∧ t.armed = d.getLsbD 0 := by
  cases h with
  | armedEdge now level ha => exact absurd (applyRow_armed _ _) hne
  | writeArm d => exact ⟨d, rfl, rfl⟩
  | _ => exact absurd rfl hne

/-- The session is written by armed edges, RESET_SESSION and CONSUME (R22, R165). -/
theorem writer_of_session_ne (i : Instr) (s t : State) (h : Effect s i t) (hne : t.session ≠ s.session) :
    (s.armed = true ∧ ∃ now level, i = .edge now level) ∨ (∃ d, i = .cmdResetSession d) ∨
      ∃ d, i = .cmdConsume d := by
  cases h with
  | armedEdge now level ha => exact .inl ⟨ha, now, level, rfl⟩
  | reset d => exact .inr (.inl ⟨d, rfl⟩)
  | consume d heom => exact .inr (.inr ⟨d, rfl⟩)
  | _ => exact absurd rfl hne

/-- An edge that is taken by an armed receiver. -/
theorem armedEdgeNext_of_takes (s : State) (i : Instr) (h : s.takes i) (ha : s.armed = true)
    (hi : ∃ now level, i = .edge now level) : s.armedEdgeNext := by
  obtain ⟨now, level, rfl⟩ := hi
  exact ⟨ha, edgeNext_of_takes s now level h⟩

section

variable {s t : State} (hstep : step s = .next t)
include hstep

theorem sessionWriter_of_step (hne : t.session ≠ s.session) :
    s.armedEdgeNext ∨ (∃ d, s.hostOpNext (.cmdResetSession d)) ∨ ∃ d, s.hostOpNext (.cmdConsume d) := by
  obtain ⟨i, rest, htakes, hexec, hne⟩ := writer_of_step State.session s t (fun _ => rfl) hstep hne
  rcases writer_of_session_ne i _ t (exec_effect _ _ _ hexec) hne with ⟨ha, hi⟩ | ⟨d, rfl⟩ | ⟨d, rfl⟩
  · exact .inl (armedEdgeNext_of_takes s i htakes ha hi)
  · exact .inr (.inl ⟨d, hostOpNext_of_takes s _ htakes rfl⟩)
  · exact .inr (.inr ⟨d, hostOpNext_of_takes s _ htakes rfl⟩)

theorem lastTsWriter_of_step (hne : t.lastTs ≠ s.lastTs) : s.armedEdgeNext := by
  obtain ⟨i, rest, htakes, hexec, hne⟩ := writer_of_step State.lastTs s t (fun _ => rfl) hstep hne
  obtain ⟨ha, hi⟩ := armedEdge_of_lastTs_ne i _ t (exec_effect _ _ _ hexec) hne
  exact armedEdgeNext_of_takes s i htakes ha hi

theorem armWriter_of_step (hne : t.armed ≠ s.armed) : ∃ d, s.hostOpNext (.wrCtrl d) := by
  obtain ⟨i, rest, htakes, hexec, hne⟩ := writer_of_step State.armed s t (fun _ => rfl) hstep hne
  obtain ⟨d, rfl, -⟩ := wrCtrl_of_armed_ne i _ t (exec_effect _ _ _ hexec) hne
  exact ⟨d, hostOpNext_of_takes s _ htakes rfl⟩

theorem bufferWriter_of_step (hne : t.bdBuf ≠ s.bdBuf) : ∃ d, s.hostOpNext (.bdPush d) := by
  obtain ⟨i, rest, htakes, hexec, hne⟩ := writer_of_step State.bdBuf s t (fun _ => rfl) hstep hne
  rcases exec_batch_cases i _ t hexec with ⟨hbuf, -⟩ | ⟨d, rfl, -⟩ | ⟨d, -, rfl⟩ | ⟨d, -, rfl⟩ | ⟨d, -, rfl⟩
  · exact absurd hbuf hne
  · exact ⟨d, hostOpNext_of_takes s _ htakes rfl⟩
  all_goals exact absurd rfl hne

theorem lengthWriter_of_step (hne : t.bdLen ≠ s.bdLen) :
    (∃ d, s.hostOpNext (.bdPush d)) ∨ (∃ d, s.hostOpNext (.bdClear d)) ∨
      ∃ d, s.hostOpNext (.bdClearRun d) := by
  obtain ⟨i, rest, htakes, hexec, hne⟩ := writer_of_step State.bdLen s t (fun _ => rfl) hstep hne
  rcases exec_batch_cases i _ t hexec with ⟨-, hlen, -⟩ | ⟨d, rfl, -⟩ | ⟨d, rfl, -⟩ | ⟨d, rfl, -⟩ |
    ⟨d, -, rfl⟩
  · exact absurd hlen hne
  · exact .inl ⟨d, hostOpNext_of_takes s _ htakes rfl⟩
  · exact .inr (.inl ⟨d, hostOpNext_of_takes s _ htakes rfl⟩)
  · exact .inr (.inr ⟨d, hostOpNext_of_takes s _ htakes rfl⟩)
  · exact absurd rfl hne

theorem overflowSetter_of_step (hs : s.bdOvf = false) (ht : t.bdOvf = true) :
    ∃ d, s.hostOpNext (.bdPush d) := by
  obtain ⟨i, rest, htakes, hexec, hne⟩ := writer_of_step State.bdOvf s t (fun _ => rfl) hstep
    (by rw [hs, ht]; decide)
  rcases exec_batch_cases i _ t hexec with ⟨-, -, hovf, -⟩ | ⟨d, rfl, -⟩ | ⟨d, -, rfl⟩ | ⟨d, -, rfl⟩ |
    ⟨d, -, rfl⟩
  · exact absurd hovf hne
  · exact ⟨d, hostOpNext_of_takes s _ htakes rfl⟩
  · cases ht
  · cases ht
  · exact absurd rfl hne

theorem overflowClearer_of_step (hs : s.bdOvf = true) (ht : t.bdOvf = false) :
    (∃ d, s.hostOpNext (.bdClear d)) ∨ ∃ d, s.hostOpNext (.bdClearRun d) := by
  obtain ⟨i, rest, htakes, hexec, -⟩ := writer_of_step State.bdOvf s t (fun _ => rfl) hstep
    (by rw [hs, ht]; decide)
  rcases (bdOvf_cleared_iff i _ t hexec hs).1 ht with ⟨d, rfl⟩ | ⟨d, rfl⟩
  · exact .inl ⟨d, hostOpNext_of_takes s _ htakes rfl⟩
  · exact .inr ⟨d, hostOpNext_of_takes s _ htakes rfl⟩

theorem resultWriter_of_step (hne : ¬ (t.bdBits = s.bdBits ∧ t.bdCount = s.bdCount ∧ t.bdDrops = s.bdDrops)) :
    (∃ d, s.hostOpNext (.bdRun d)) ∨ (∃ d, s.hostOpNext (.bdClear d)) ∨
      ∃ d, s.hostOpNext (.bdClearRun d) := by
  obtain ⟨i, rest, htakes, hexec, hne⟩ := writer_of_step (fun s => (s.bdBits, s.bdCount, s.bdDrops)) s t
    (fun _ => rfl) hstep (by simpa only [ne_eq, Prod.mk.injEq] using hne)
  rcases exec_batch_cases i _ t hexec with ⟨-, -, -, hbits, hcount, hdrops⟩ | ⟨d, -, rfl | rfl⟩ |
    ⟨d, rfl, -⟩ | ⟨d, rfl, -⟩ | ⟨d, rfl, -⟩
  · exact absurd (by rw [hbits, hcount, hdrops]) hne
  · exact absurd rfl hne
  · exact absurd rfl hne
  · exact .inr (.inl ⟨d, hostOpNext_of_takes s _ htakes rfl⟩)
  · exact .inr (.inr ⟨d, hostOpNext_of_takes s _ htakes rfl⟩)
  · exact .inl ⟨d, hostOpNext_of_takes s _ htakes rfl⟩

end

/-- Settles O30, register by register. -/
theorem registersChangeOnlyByTheirWriters : Obligations.RegistersChangeOnlyByTheirWriters :=
  fun _ _ hstep => ⟨sessionWriter_of_step hstep, lastTsWriter_of_step hstep, armWriter_of_step hstep,
    bufferWriter_of_step hstep, lengthWriter_of_step hstep, overflowSetter_of_step hstep,
    overflowClearer_of_step hstep, resultWriter_of_step hstep⟩

/-! ### EndOfMessage and the published slot (R24, R28, R63, R126) -/

theorem step_edgeNext (s : State) (w : EWord) (rest : List Arrival) (h : nextEvent s.inbox = (.edge w, rest)) :
    step s = exec (decodeE w) (s.accept rest) := by
  simp only [step, h]

theorem step_hostOpNext (s : State) (i : Instr) (h : s.hostOpNext i) :
    ∃ rest, step s = exec i (s.accept rest) := by
  obtain ⟨hin, rest, hnext, hop⟩ := h
  exact ⟨rest, by simp only [step, hnext, hop]⟩

/-- From EndOfMessage an edge starts a leader or aborts (R113, R122). -/
theorem applyRow_eom_ne_eom (e : Nat) (level : Level) (s : State) :
    (applyRow (edgeRow .eom e level) s).decodeState ≠ .eom := by
  rw [edgeRow_wait_or_eom .eom e level (.inr rfl)]
  split_ifs <;> exact DecodeState.noConfusion

/-- Settles O28: the session does not change but by those three, and each of them leaves EndOfMessage. -/
theorem endOfMessageLastsUntil : Obligations.EndOfMessageLastsUntil := by
  intro s t hstep heom
  constructor
  · intro hleft
    have hne : t.session ≠ s.session := fun h => hleft ((congrArg Session.decodeState h).trans heom)
    exact sessionWriter_of_step hstep hne
  · rintro (⟨ha, w, rest, hnext⟩ | ⟨d, hop⟩ | ⟨d, hop⟩)
    · have hedge := (step_edgeNext s w rest hnext).trans (exec_edge_armed _ _ (s.accept rest) ha)
      obtain rfl := Host.Outcome.next.inj (hstep.symm.trans hedge)
      rw [decodeStep, State.setLastTs_decodeState, State.accept_decodeState, heom]
      exact applyRow_eom_ne_eom _ _ _
    · obtain ⟨rest, hreset⟩ := step_hostOpNext s _ hop
      obtain rfl := Host.Outcome.next.inj (hstep.symm.trans hreset)
      exact DecodeState.noConfusion
    · obtain ⟨rest, hconsume⟩ := step_hostOpNext s _ hop
      rw [exec_cmdConsume_eom d (s.accept rest) heom] at hconsume
      obtain rfl := Host.Outcome.next.inj (hstep.symm.trans hconsume)
      exact DecodeState.noConfusion

/-- A row leaves the published slot alone, or it is row 7 or 9 and publishes (R28, R127). -/
theorem applyRow_publishes (r : TableRow) (s : State) :
    ((applyRow r s).pubBits = s.pubBits ∧ (applyRow r s).pubCount = s.pubCount) ∨
      ((r = .row7 ∨ r = .row9) ∧ ∃ b, applyRow r s = (s.append b).publish.goto .eom) := by
  cases r
  case row6 | row8 =>
    rw [applyRow]
    rcases appendThenMark_cases s _ with ⟨-, h⟩ | ⟨-, h⟩ <;> rw [h] <;> exact .inl ⟨rfl, rfl⟩
  case row7 | row9 =>
    rw [applyRow]
    rcases appendThenEnd_cases s _ with ⟨-, h⟩ | ⟨-, h⟩ <;> rw [h]
    · exact .inl ⟨rfl, rfl⟩
    · exact .inr ⟨by decide, _, rfl⟩
  all_goals exact .inl ⟨rfl, rfl⟩

/-- Rows 7 and 9 ask for a data space and the end mark window (R119, R121). -/
theorem dataSpace_of_edgeRow (q : DecodeState) (e : Nat) (level : Level)
    (h : edgeRow q e level = .row7 ∨ edgeRow q e level = .row9) :
    (q = .dls ∨ q = .dss) ∧ 800 ≤ e ∧ e < 1800 := by
  have hrow := rowHolds_edgeRow q e level
  rcases h with h | h <;> rw [h] at hrow
  · exact ⟨.inl hrow.1, hrow.2⟩
  · exact ⟨.inr hrow.1, hrow.2⟩

/-- Settles O29: of all effects only an armed edge's can reach the published slot, by row 7 or 9. -/
theorem publishedSlotChangesOnlyAtPublish : Obligations.PublishedSlotChangesOnlyAtPublish := by
  intro s t hstep hne
  obtain ⟨i, rest, htakes, hexec, hne⟩ := writer_of_step (fun s => (s.pubBits, s.pubCount)) s t
    (fun _ => rfl) hstep (by simpa only [ne_eq, Prod.mk.injEq] using hne)
  have heffect := exec_effect _ _ _ hexec
  cases heffect with
  | armedEdge now level ha =>
    rcases applyRow_publishes (edgeRow (s.accept rest).decodeState (elapsed now (s.accept rest).lastTs) level)
      ((s.accept rest).setLastTs now) with ⟨hbits, hcount⟩ | ⟨hrow, b, happly⟩
    · exact absurd (Prod.ext hbits hcount) hne
    · obtain ⟨hq, hlo, hhi⟩ := dataSpace_of_edgeRow _ _ _ hrow
      obtain ⟨w, rest', hnext⟩ := edgeNext_of_takes s now level htakes
      rw [happly]
      exact ⟨w, rest', hnext, ha, hq, rfl, hlo, hhi, rfl, rfl, rfl⟩
  | _ => exact absurd rfl hne

/-! ### Disarmed windows (R59, R243) -/

/-- An operation that does not arm leaves a disarmed receiver disarmed. -/
theorem applyOp_disarmed (i : Instr) (s : State) (hs : s.armed = false)
    (hi : ∀ d, i = .wrCtrl d → d.getLsbD 0 = false) : (applyOp i s).armed = false := by
  obtain ⟨t, ht, -⟩ := exec_completes i { s with rdata := none }
  rw [applyOp_next i s t ht]
  by_contra hne
  obtain ⟨d, rfl, harm⟩ := wrCtrl_of_armed_ne i _ t (exec_effect _ _ _ ht) (by rwa [hs])
  exact hne (harm.trans (hi d rfl))

/-- At a disarmed receiver that nothing arms, operations lead where they do without their edges. -/
theorem applyAll_without_edges (is : List Instr) (s : State) (hs : s.armed = false)
    (hw : ∀ d, Instr.wrCtrl d ∈ is → d.getLsbD 0 = false) :
    ({ applyAll is s with rdata := none } : State) =
      { applyAll (is.filter (fun i => !isEdge i)) s with rdata := none } := by
  induction is generalizing s with
  | nil => rfl
  | cons i is ih =>
    have hrest : ∀ d, Instr.wrCtrl d ∈ is → d.getLsbD 0 = false := fun d h => hw d (List.mem_cons_of_mem i h)
    cases hi : isEdge i with
    | true =>
      obtain ⟨now, level, rfl⟩ : ∃ now level, i = .edge now level := by
        cases i
        case edge now level => exact ⟨now, level, rfl⟩
        all_goals cases hi
      rw [List.filter_cons_of_neg (by simp [hi]), ← ih s hs hrest, ← applyAll_port is s,
        ← applyOp_edge_disarmed now level s hs]
      rfl
    | false =>
      rw [List.filter_cons_of_pos (by simp [hi])]
      refine ih (applyOp i s) (applyOp_disarmed i s hs fun d h => ?_) hrest
      exact hw d (h ▸ List.mem_cons_self)

/-- Settles O31, by induction on the operations: each edge among them is lost. -/
theorem disarmedWindowIgnoresEdges : Obligations.DisarmedWindowIgnoresEdges := by
  intro is s hs hw
  exact ⟨_, _, runInstrs_eq_applyAll is s, runInstrs_eq_applyAll _ s, applyAll_without_edges is s hs hw⟩

end Sys2Proof.Machine
end

section
/-! The invariants of 10_state.md: they hold at reset and every step keeps them. -/

namespace Sys2Proof.Machine

/-! ### At reset -/

/-- The empty Bitstring is packed as 0 (R18). -/
theorem zero_packed : (0 : BitReg).toNat < 2 ^ (0 : Count).toNat := by
  rw [← pack_nil]
  exact pack_toNat_lt []

/-- Valid parameters make the reset state meet the invariants: every other clause is about zeros. -/
theorem inv_resetWith (p : Params) (h : p.Valid) : (State.resetWith p).Inv where
  params_valid := h
  state_named := DecodeState.noConfusion
  acc_bounded := Nat.zero_le _
  acc_packed := zero_packed
  acc_clear := fun _ => rfl
  pub_bounded := Nat.zero_le _
  pub_packed := zero_packed
  eom_published := nofun
  len_bounded := Nat.zero_le _
  len_written := Nat.zero_le _
  buf_bounded := Nat.zero_le _
  result_bounded := Nat.zero_le _
  result_packed := zero_packed

/-- Settles O14, by the reset state of any valid parameters, those of State.reset among them. -/
theorem invariantHoldsAtReset : Obligations.InvariantHoldsAtReset := by
  refine ⟨fun p h => ⟨inv_resetWith p h, fun _ => ⟨rfl, rfl, rfl, rfl, rfl, rfl⟩⟩, rfl,
    inv_resetWith Params.default (by decide), ?_⟩
  rw [State.reset, regRead_resetWith]
  rfl

/-! ### The operations on the session -/

theorem inv_accept (s : State) (rest : List Arrival) (h : s.Inv) : (s.accept rest).Inv := { h with }

theorem inv_respond (s : State) (v : Word) (h : s.Inv) : (s.respond v).Inv := { h with }

theorem inv_setArm (s : State) (b : Bool) (h : s.Inv) : (s.setArm b).Inv := { h with }

theorem inv_setLastTs (s : State) (now : Word) (h : s.Inv) : (s.setLastTs now).Inv := { h with }

/-- Going on inside a message: the accumulator stays, and is still empty where it must be. -/
theorem inv_goto (s : State) (q : DecodeState) (h : s.Inv) (hnamed : q ≠ .reserved7) (heom : q ≠ .eom)
    (hclear : q = .wait ∨ q = .lag ∨ q = .lead → s.accCount = 0) : (s.goto q).Inv :=
  { h with state_named := hnamed, acc_clear := hclear, eom_published := fun hq => absurd hq heom }

/-- A cleared accumulator is allowed in every state but EndOfMessage. -/
theorem inv_clearAcc_goto (s : State) (q : DecodeState) (h : s.Inv) (hnamed : q ≠ .reserved7)
    (heom : q ≠ .eom) : (s.clearAcc.goto q).Inv :=
  { h with
    state_named := hnamed
    acc_bounded := Nat.zero_le _
    acc_packed := zero_packed
    acc_clear := fun _ => rfl
    eom_published := fun hq => absurd hq heom }

theorem inv_abort (s : State) (h : s.Inv) : s.abort.Inv :=
  inv_clearAcc_goto s .wait h DecodeState.noConfusion DecodeState.noConfusion

/-- An append with room counts one bit more, with no wrap of the counter (R10, R127). -/
theorem append_accCount_toNat (s : State) (b : Bool) (h : s.Inv) (hroom : s.accCount.toNat ≠ s.params.maxBits) :
    (s.append b).accCount.toNat = s.accCount.toNat + 1 ∧ s.accCount.toNat + 1 ≤ s.params.maxBits := by
  have hone : (1 : Count).toNat = 1 := rfl
  have hbound := h.acc_bounded
  obtain ⟨-, hmax, -⟩ := h.params_valid
  rw [State.append_accCount, BitVec.toNat_add, hone, Nat.mod_eq_of_lt (by omega)]
  exact ⟨rfl, by omega⟩

theorem append_packed (s : State) (b : Bool) (h : s.Inv) (hroom : s.accCount.toNat ≠ s.params.maxBits) :
    (s.append b).accBits.toNat < 2 ^ (s.append b).accCount.toNat := by
  rw [(append_accCount_toNat s b h hroom).1]
  exact setBit_toNat_lt _ _ b h.acc_packed

theorem inv_appendThenMark (s : State) (b : Bool) (h : s.Inv) : (s.appendThenMark b).Inv := by
  rcases appendThenMark_cases s b with ⟨-, heq⟩ | ⟨hroom, heq⟩ <;> rw [heq]
  · exact inv_abort s h
  · obtain ⟨hcount, hbound⟩ := append_accCount_toNat s b h hroom
    exact { h with
      state_named := DecodeState.noConfusion
      acc_bounded := hcount.trans_le hbound
      acc_packed := append_packed s b h hroom
      acc_clear := nofun
      eom_published := nofun }

theorem inv_appendThenEnd (s : State) (b : Bool) (h : s.Inv) : (s.appendThenEnd b).Inv := by
  rcases appendThenEnd_cases s b with ⟨-, heq⟩ | ⟨hroom, heq⟩ <;> rw [heq]
  · exact inv_abort s h
  · obtain ⟨hcount, hbound⟩ := append_accCount_toNat s b h hroom
    have hpos : (s.append b).accCount ≠ 0 := fun h0 => by
      rw [h0] at hcount
      exact absurd hcount.symm (Nat.succ_ne_zero _)
    exact { h with
      state_named := DecodeState.noConfusion
      acc_bounded := hcount.trans_le hbound
      acc_packed := append_packed s b h hroom
      acc_clear := nofun
      pub_bounded := hcount.trans_le hbound
      pub_packed := append_packed s b h hroom
      eom_published := fun _ => ⟨rfl, rfl, hpos⟩ }

/-- A row whose condition holds keeps the invariants. -/
theorem inv_applyRow (r : TableRow) (s : State) (e : Nat) (level : Level) (h : s.Inv)
    (hrow : rowHolds r s.decodeState e level) : (applyRow r s).Inv := by
  cases r with
  | row1 => exact inv_clearAcc_goto s .lag h DecodeState.noConfusion DecodeState.noConfusion
  | row2 =>
    have hempty : s.accCount = 0 := h.acc_clear (.inr (.inl hrow.1))
    exact inv_goto s .lead h DecodeState.noConfusion DecodeState.noConfusion fun _ => hempty
  | row3 => exact inv_goto s .dmas h DecodeState.noConfusion DecodeState.noConfusion nofun
  | row4 => exact inv_goto s .dss h DecodeState.noConfusion DecodeState.noConfusion nofun
  | row5 => exact inv_goto s .dls h DecodeState.noConfusion DecodeState.noConfusion nofun
  | row6 => exact inv_appendThenMark s true h
  | row7 => exact inv_appendThenEnd s true h
  | row8 => exact inv_appendThenMark s false h
  | row9 => exact inv_appendThenEnd s false h
  | row10 => exact inv_abort s h

/-! ### The operations of the batch unit -/

theorem inv_pushEntry (s : State) (d : Word) (h : s.Inv) (hroom : s.bdLen.toNat < s.params.maxPulses) :
    (s.pushEntry d).Inv := by
  obtain ⟨-, -, -, hmax⟩ := h.params_valid
  have hlen := pushEntry_bdLen_toNat s d hmax hroom
  have hbuf := h.buf_bounded
  have hlength : (s.pushEntry d).bdBuf.length = max s.bdBuf.length (s.bdLen.toNat + 1) := setEntry_length ..
  exact { h with
    len_bounded := hlen.trans_le hroom
    len_written := by rw [hlen, hlength]; exact Nat.le_max_right _ _
    buf_bounded := by rw [hlength]; exact Nat.max_le.2 ⟨hbuf, hroom⟩ }

theorem inv_overflow (s : State) (h : s.Inv) : s.overflow.Inv := { h with }

theorem inv_clearBatch (s : State) (h : s.Inv) : s.clearBatch.Inv :=
  { h with
    len_bounded := Nat.zero_le _
    len_written := Nat.zero_le _
    result_bounded := Nat.zero_le _
    result_packed := zero_packed }

/-- A result of a train within the buffer fits the result registers (R187). -/
theorem inv_runBatch (s : State) (h : s.Inv) : s.runBatch.Inv := by
  have hsize := resultIsAtMostHalfTheTrain s.train
  have hlen := h.len_bounded
  obtain ⟨-, -, -, hmax⟩ := h.params_valid
  rw [State.train, pulseTrain_length] at hsize
  have hcount : s.runBatch.bdCount.toNat = (fromPulseTrain s.train).bits.length :=
    Nat.mod_eq_of_lt (by rw [State.train]; omega)
  have hdrops : s.runBatch.bdDrops.toNat = (fromPulseTrain s.train).drops :=
    Nat.mod_eq_of_lt (by rw [State.train]; omega)
  have hhalf : s.bdLen.toNat / 2 ≤ s.params.bdMaxBits := Nat.div_le_div_right hlen
  exact { h with
    result_bounded := by rw [hcount, hdrops]; exact hsize.trans hhalf
    result_packed := by rw [hcount]; exact pack_toNat_lt _ }

/-! ### Every step -/

/-- Every operation keeps the invariants. -/
theorem inv_of_effect (i : Instr) (s t : State) (h : s.Inv) (heffect : Effect s i t) : t.Inv := by
  cases heffect with
  | unchanged => exact h
  | read _ v => exact inv_respond s v h
  | armedEdge now level =>
    exact inv_applyRow _ _ _ _ (inv_setLastTs s now h) (rowHolds_edgeRow s.decodeState _ level)
  | writeArm d => exact inv_setArm s _ h
  | reset | consume => exact inv_abort s h
  | push d hroom => exact inv_pushEntry s d h hroom
  | overflow => exact inv_overflow s h
  | clear | clearRun => exact inv_clearBatch s h
  | run => exact inv_runBatch s h

/-- Settles O15: accepting an arrival keeps the invariants, and so does every operation. -/
theorem stepKeepsTheInvariant : Obligations.StepKeepsTheInvariant := by
  intro s t h hstep
  rcases step_takes s t hstep with ⟨rest, rfl⟩ | ⟨i, rest, -, hexec⟩
  · exact inv_accept s rest h
  · exact inv_of_effect i _ t (inv_accept s rest h) (exec_effect i _ t hexec)

/-- Without the batch unit no operation of it is well-formed (R104). -/
theorem isBatchOp_of_wf (i : Instr) (h : i.wf false = true) : isBatchOp i = false := by
  cases i
  case bdClear | bdRun | bdClearRun | bdCtrlNop | bdPush | rdBdStatus | rdBdLen | rdBdCount | rdBdDrops |
      rdBdBits => cases h
  all_goals rfl

/-- Nothing that a step takes is an operation of an absent batch unit. -/
theorem isBatchOp_of_takes (s : State) (i : Instr) (hbatch : s.params.hasBatch = false) (h : s.takes i) :
    isBatchOp i = false := by
  rcases h with ⟨w, rest, -, rfl⟩ | ⟨hin, rest, -, hop⟩
  · rfl
  · rw [hbatch] at hop
    obtain ⟨w, rfl⟩ := decodeHost_eq_ok _ _ _ _ hop
    exact isBatchOp_of_wf _ (wf_decodeT false w)

/-- Settles O16: what is taken leaves the parameters, and without the batch unit its registers too. -/
theorem stepKeepsAbsentBatchUnitAtReset : Obligations.StepKeepsAbsentBatchUnitAtReset := by
  intro s t hstep
  rcases step_takes s t hstep with ⟨rest, rfl⟩ | ⟨i, rest, htakes, hexec⟩
  · exact ⟨rfl, id⟩
  · obtain ⟨t', ht', -, hparams⟩ := exec_completes i (s.accept rest)
    obtain rfl : t = t' := Host.Outcome.next.inj (hexec.symm.trans ht')
    refine ⟨hparams, fun hinv hbatch => ?_⟩
    have hs : s.params.hasBatch = false := by rw [← hbatch, hparams]; rfl
    have hframe := withBatchOf_of_exec i _ t (isBatchOp_of_takes s i hs htakes) hexec
    rw [← hframe]
    exact hinv hs

end Sys2Proof.Machine
end

section
/-! Whole messages fed to an armed decoder (R126 to R128, R131, R213): pulse by pulse over the states of the
transition table. -/

namespace Sys2Proof.Machine

/-! ### Pulses inside a message -/

/-- `s` at time `t`, in decode state `q`, with the bits `p` received since the leader. -/
def State.receiving (s : State) (q : DecodeState) (t : Nat) (p : List Bool) : State :=
  { s with
    decodeState := q, lastTs := BitVec.ofNat 32 t, accBits := pack p,
    accCount := BitVec.ofNat 16 p.length, rdata := none }

/-- The gap of a bit (R210). -/
def gapOf (b : Bool) : Nat := if b then longGap else shortGap

/-- The decode state after a bit's gap (R116, R117). -/
def spaceState (b : Bool) : DecodeState := if b then .dls else .dss

theorem dataPulses_cons (b : Bool) (bs : List Bool) :
    dataPulses (b :: bs) = dataMark :: gapOf b :: dataPulses bs := rfl

theorem dataPulses_le (bs : List Bool) : ∀ d ∈ dataPulses bs ++ [endMark], d ≤ 6000 := by
  induction bs with
  | nil => decide
  | cons x xs ih =>
    intro d hd
    rw [dataPulses_cons, List.cons_append, List.cons_append, List.mem_cons, List.mem_cons] at hd
    rcases hd with rfl | rfl | hd
    · decide
    · cases x <;> decide
    · exact ih d hd

theorem receiving_accCount_toNat (s : State) (q : DecodeState) (t : Nat) (p : List Bool) (h : p.length < 2048) :
    (s.receiving q t p).accCount.toNat = p.length :=
  Nat.mod_eq_of_lt (by omega)

/-- An append puts the bit at the end of what has been received (R127). -/
theorem receiving_append (s : State) (q : DecodeState) (t : Nat) (p : List Bool) (b : Bool)
    (h : p.length < 2048) : (s.receiving q t p).append b = s.receiving q t (p ++ [b]) := by
  have hbits : setBit (pack p) (BitVec.ofNat 16 p.length).toNat b = pack (p ++ [b]) := by
    rw [BitVec.toNat_ofNat, Nat.mod_eq_of_lt (by omega), setBit_pack p b h]
  have hcount : BitVec.ofNat 16 p.length + 1 = BitVec.ofNat 16 (p ++ [b]).length := by
    rw [List.length_append, BitVec.ofNat_add]; rfl
  simp only [State.append, State.receiving, hbits, hcount]

/-- An abort forgets what has been received (R122). -/
theorem receiving_abort (s : State) (q : DecodeState) (t : Nat) (p : List Bool) :
    (s.receiving q t p).abort = s.receiving .wait t [] := rfl

section

variable (s : State) (ha : s.armed = true)
include ha

/-- The edge that ends a pulse of length `d` takes the row for `d` (R110, R111). -/
theorem runInstrs_receiving (q : DecodeState) (t d : Nat) (level : Level) (p : List Bool) (is : List Instr)
    (hd : d < 2 ^ 32) :
    runInstrs (.edge (BitVec.ofNat 32 (t + d)) level :: is) (s.receiving q t p) =
      runInstrs is (applyRow (edgeRow q d level) (s.receiving q (t + d) p)) :=
  runInstrs_edge (s.receiving q t p) t d level is _ ha rfl hd rfl

/-- A bit's gap (R116, R117). -/
theorem runInstrs_gap (t : Nat) (p : List Bool) (b : Bool) (ds : List Nat) :
    runInstrs (feedFrom t 1 (gapOf b :: ds)) (s.receiving .dmas t p) =
      runInstrs (feedFrom (t + gapOf b) 0 ds) (s.receiving (spaceState b) (t + gapOf b) p) := by
  rw [feedFrom_gap, runInstrs_receiving s ha _ _ _ _ _ _ (by cases b <;> decide)]
  cases b <;> rfl

/-- A data mark with room for the bit before it (R118, R120, R127). -/
theorem runInstrs_mark (t : Nat) (p : List Bool) (b : Bool) (ds : List Nat) (hp : p.length < 2048)
    (hroom : p.length ≠ s.params.maxBits) :
    runInstrs (feedFrom t 0 (dataMark :: ds)) (s.receiving (spaceState b) t p) =
      runInstrs (feedFrom (t + dataMark) 1 ds) (s.receiving .dmas (t + dataMark) (p ++ [b])) := by
  have hcount := receiving_accCount_toNat s (spaceState b) (t + dataMark) p hp
  have hrow : applyRow (edgeRow (spaceState b) dataMark .high) (s.receiving (spaceState b) (t + dataMark) p) =
      (s.receiving (spaceState b) (t + dataMark) p).appendThenMark b := by cases b <;> rfl
  rw [feedFrom_mark, runInstrs_receiving s ha _ _ _ _ _ _ (by decide), hrow, State.appendThenMark,
    if_neg (by rw [hcount]; exact hroom), receiving_append s _ _ p b hp]
  rfl

/-- The end mark with room for the bit before it (R119, R121, R127). -/
theorem runInstrs_end (t : Nat) (p : List Bool) (b : Bool) (hp : p.length < 2048)
    (hroom : p.length ≠ s.params.maxBits) :
    runInstrs (feedFrom t 0 [endMark]) (s.receiving (spaceState b) t p) =
      .next (s.receiving .eom (t + endMark) (p ++ [b])).publish := by
  have hcount := receiving_accCount_toNat s (spaceState b) (t + endMark) p hp
  have hrow : applyRow (edgeRow (spaceState b) endMark .high) (s.receiving (spaceState b) (t + endMark) p) =
      (s.receiving (spaceState b) (t + endMark) p).appendThenEnd b := by cases b <;> rfl
  rw [feedFrom_mark, runInstrs_receiving s ha _ _ _ _ _ _ (by decide), hrow, State.appendThenEnd,
    if_neg (by rw [hcount]; exact hroom), receiving_append s _ _ p b hp]
  rfl

/-- A data mark or the end mark with a full accumulator (R128). -/
theorem runInstrs_full (t d : Nat) (p : List Bool) (b : Bool) (ds : List Nat) (hp : p.length < 2048)
    (hfull : p.length = s.params.maxBits) (hd : d = dataMark ∨ d = endMark) :
    runInstrs (feedFrom t 0 (d :: ds)) (s.receiving (spaceState b) t p) =
      runInstrs (feedFrom (t + d) 1 ds) (s.receiving .wait (t + d) []) := by
  have hcount := receiving_accCount_toNat s (spaceState b) (t + d) p hp
  have hsmall : d < 2 ^ 32 := by rcases hd with rfl | rfl <;> decide
  have hrow : applyRow (edgeRow (spaceState b) d .high) (s.receiving (spaceState b) (t + d) p) = _ :=
    applyRow_dataSpace_full_or_append (s.receiving (spaceState b) (t + d) p) _ d .high b rfl
  rw [feedFrom_mark, runInstrs_receiving s ha _ _ _ _ _ _ hsmall, hrow,
    if_pos (.inr (.inr (hcount.trans hfull))), receiving_abort]

/-- In WAIT pulses too short for a leader mark abort one after another (R113, R122). -/
theorem runInstrs_short (t i : Nat) (ds : List Nat) (hds : ∀ d ∈ ds, d ≤ 6000) :
    runInstrs (feedFrom t i ds) (s.receiving .wait t []) = .next (s.receiving .wait (t + ds.sum) []) := by
  induction ds generalizing t i with
  | nil => rfl
  | cons d ds ih =>
    have hd := hds d List.mem_cons_self
    have habort (level : Level) : edgeRow .wait d level = .row10 :=
      edgeRow_of_rowHolds .row10 .wait d level (.inr (.inl hd))
    rw [feedFrom, runInstrs_receiving s ha _ _ _ _ _ _ (by omega), habort, List.sum_cons, ← Nat.add_assoc]
    exact ih (t + d) (i + 1) fun d' h => hds d' (List.mem_cons_of_mem d h)

/-- The leader and the first data mark, from WAIT or EndOfMessage, whatever LAST_TS holds: the edge that
starts the leader mark falls and aborts (R113 to R115, R122, R278). -/
theorem runInstrs_leader (t0 : Nat) (ds : List Nat) (hq : s.decodeState = .wait ∨ s.decodeState = .eom) :
    runInstrs (feed t0 (leaderMark :: leaderGap :: dataMark :: ds)) s =
      runInstrs (feedFrom (t0 + leaderMark + leaderGap + dataMark) 1 ds)
        (s.receiving .dmas (t0 + leaderMark + leaderGap + dataMark) []) := by
  have hstart : exec (.edge (BitVec.ofNat 32 t0) .low) { s with rdata := none } =
      .next (s.receiving .wait t0 []) := by
    have habort (e : Nat) : edgeRow s.decodeState e .low = .row10 :=
      edgeRow_of_rowHolds .row10 _ e .low (by rcases hq with hq | hq <;> (rw [hq]; exact .inl rfl))
    rw [exec_edge_armed _ _ { s with rdata := none } ha]
    exact congrArg (fun r => Host.Outcome.next (applyRow r _)) (habort _)
  rw [feed, runInstrs_cons _ _ s _ hstart, feedFrom_mark, runInstrs_receiving s ha _ _ _ _ _ _ (by decide),
    feedFrom_gap]
  exact (runInstrs_receiving s ha .lag _ leaderGap .low [] _ (by decide)).trans
    (runInstrs_receiving s ha .lead _ dataMark .high [] _ (by decide))

/-! ### Messages that fit and messages that do not (R128, R131) -/

/-- The rest of a message that fits, from its first gap: every bit is appended, the last one published. -/
theorem runInstrs_message (hmax : s.params.maxBits ≤ 2046) (t : Nat) (p : List Bool) (b : Bool) (bs : List Bool)
    (hfits : p.length + 1 + bs.length ≤ s.params.maxBits) :
    runInstrs (feedFrom t 1 (gapOf b :: (dataPulses bs ++ [endMark]))) (s.receiving .dmas t p) =
      .next (s.receiving .eom (t + (gapOf b :: (dataPulses bs ++ [endMark])).sum) (p ++ b :: bs)).publish := by
  induction bs generalizing t p b with
  | nil =>
    rw [List.length_nil] at hfits
    rw [runInstrs_gap s ha, dataPulses, List.nil_append, runInstrs_end s ha _ p b (by omega) (by omega),
      List.sum_cons, List.sum_singleton, Nat.add_assoc]
  | cons x xs ih =>
    rw [List.length_cons] at hfits
    have hsum : t + gapOf b + dataMark + (gapOf x :: (dataPulses xs ++ [endMark])).sum =
        t + (gapOf b :: (dataPulses (x :: xs) ++ [endMark])).sum := by
      simp only [dataPulses_cons, List.cons_append, List.sum_cons]
      omega
    rw [runInstrs_gap s ha, dataPulses_cons, List.cons_append, List.cons_append,
      runInstrs_mark s ha _ p b _ (by omega) (by omega),
      ih _ (p ++ [b]) x (by rw [List.length_append, List.length_singleton]; omega), hsum, List.append_assoc]
    rfl

/-- The rest of a message that does not fit, from a gap on: the bit that finds the accumulator full aborts,
and what is left of the train aborts from WAIT. -/
theorem runInstrs_overlong (hmax : s.params.maxBits ≤ 2046) (t : Nat) (p : List Bool) (b : Bool)
    (bs : List Bool) (hp : p.length ≤ s.params.maxBits) (hlong : s.params.maxBits < p.length + 1 + bs.length) :
    runInstrs (feedFrom t 1 (gapOf b :: (dataPulses bs ++ [endMark]))) (s.receiving .dmas t p) =
      .next (s.receiving .wait (t + (gapOf b :: (dataPulses bs ++ [endMark])).sum) []) := by
  induction bs generalizing t p b with
  | nil =>
    rw [List.length_nil] at hlong
    rw [runInstrs_gap s ha, dataPulses, List.nil_append,
      runInstrs_full s ha _ _ p b _ (by omega) (by omega) (.inr rfl), List.sum_cons, List.sum_singleton,
      Nat.add_assoc]
    rfl
  | cons x xs ih =>
    rw [List.length_cons] at hlong
    have hshort := dataPulses_le (x :: xs)
    rw [runInstrs_gap s ha]
    rw [dataPulses_cons, List.cons_append, List.cons_append] at hshort ⊢
    have hsum : t + gapOf b + dataMark + (gapOf x :: (dataPulses xs ++ [endMark])).sum =
        t + (gapOf b :: dataMark :: gapOf x :: (dataPulses xs ++ [endMark])).sum := by
      simp only [List.sum_cons]
      omega
    rw [← hsum]
    by_cases hfull : p.length = s.params.maxBits
    · rw [runInstrs_full s ha _ _ p b _ (by omega) hfull (.inl rfl)]
      exact runInstrs_short s ha _ 1 _ fun d hd => hshort d (List.mem_cons_of_mem _ hd)
    · rw [runInstrs_mark s ha _ p b _ (by omega) hfull]
      exact ih _ (p ++ [b]) x (by rw [List.length_append, List.length_singleton]; omega)
        (by rw [List.length_append, List.length_singleton]; omega)

/-- A whole train from the first gap on: its time is what is left of its duration. -/
theorem runInstrs_feed_cons (t0 : Nat) (b : Bool) (bs : List Bool) (u : Nat → State)
    (hq : s.decodeState = .wait ∨ s.decodeState = .eom)
    (hbody : ∀ t, runInstrs (feedFrom t 1 (gapOf b :: (dataPulses bs ++ [endMark]))) (s.receiving .dmas t []) =
      .next (u (t + (gapOf b :: (dataPulses bs ++ [endMark])).sum))) :
    runInstrs (feed t0 (toPulseTrain (b :: bs))) s = .next (u (t0 + duration (toPulseTrain (b :: bs)))) := by
  have hsum : t0 + leaderMark + leaderGap + dataMark + (gapOf b :: (dataPulses bs ++ [endMark])).sum =
      t0 + duration (toPulseTrain (b :: bs)) := by
    simp only [duration, toPulseTrain, dataPulses_cons, List.cons_append, List.sum_cons]
    omega
  rw [toPulseTrain, dataPulses_cons, List.cons_append, List.cons_append, runInstrs_leader s ha t0 _ hq, hbody,
    hsum]
  rfl

/-- A fed message that fits is received and published (R131). -/
theorem runInstrs_feed_message (t0 : Nat) (b : List Bool) (hvalid : s.params.Valid)
    (hq : s.decodeState = .wait ∨ s.decodeState = .eom) (hb : 1 ≤ b.length) (hfits : b.length ≤ s.params.maxBits) :
    runInstrs (feed t0 (toPulseTrain b)) s =
      .next (s.receiving .eom (t0 + duration (toPulseTrain b)) b).publish := by
  obtain ⟨-, hmax, -⟩ := hvalid
  cases b with
  | nil => cases hb
  | cons b bs =>
    rw [List.length_cons] at hfits
    exact runInstrs_feed_cons s ha t0 b bs (fun t => (s.receiving .eom t (b :: bs)).publish) hq
      fun t => runInstrs_message s ha hmax t [] b bs (by rw [List.length_nil]; omega)

/-- A fed message that does not fit leaves the decoder in WAIT (R128). -/
theorem runInstrs_feed_overlong (t0 : Nat) (b : List Bool) (hvalid : s.params.Valid)
    (hq : s.decodeState = .wait ∨ s.decodeState = .eom) (hlong : s.params.maxBits < b.length) :
    runInstrs (feed t0 (toPulseTrain b)) s = .next (s.receiving .wait (t0 + duration (toPulseTrain b)) []) := by
  obtain ⟨-, hmax, -⟩ := hvalid
  cases b with
  | nil => cases hlong
  | cons b bs =>
    rw [List.length_cons] at hlong
    exact runInstrs_feed_cons s ha t0 b bs (fun t => s.receiving .wait t []) hq
      fun t => runInstrs_overlong s ha hmax t [] b bs (Nat.zero_le _) (by rw [List.length_nil]; omega)

end

/-! ### The same as words on the edge interface -/

theorem wf_of_mem_feedFrom (hasBatch : Bool) (t k : Nat) (train : List Nat) :
    ∀ i ∈ feedFrom t k train, i.wf hasBatch = true := by
  induction train generalizing t k with
  | nil => intro i hi; cases hi
  | cons d ds ih =>
    intro i hi
    rw [feedFrom, List.mem_cons] at hi
    rcases hi with rfl | hi
    · rfl
    · exact ih _ _ i hi

/-- The words of a fed train run as its edges, one for every pulse and one before them (R57, R213). -/
theorem run_feed (s : State) (b : List Bool) (t0 : Nat) :
    core.run (2 * b.length + 4) (s.withInputs (feed t0 (toPulseTrain b))) =
      runInstrs (feed t0 (toPulseTrain b)) { s with inbox := [] } := by
  have hlength : (feed t0 (toPulseTrain b)).length = 2 * b.length + 4 := by
    rw [feed, List.length_cons, feedFrom_length, toPulseTrain_length]
  rw [← hlength]
  refine inputsApplyInOrder _ s fun i hi => ?_
  rw [feed, List.mem_cons] at hi
  rcases hi with rfl | hi
  · rfl
  · exact wf_of_mem_feedFrom _ _ _ _ i hi

/-- Settles O49, by the run of a message that fits. -/
theorem fedMessageIsPublished : Obligations.FedMessageIsPublished := by
  intro s b t0 hvalid ha hq hb hfits
  exact (run_feed s b t0).trans (runInstrs_feed_message { s with inbox := [] } ha t0 b hvalid hq hb hfits)

/-- Settles O50, by the run of a message that does not fit. -/
theorem overlongMessageIsRejected : Obligations.OverlongMessageIsRejected := by
  intro s b t0 hvalid ha hq hlong
  exact (run_feed s b t0).trans (runInstrs_feed_overlong { s with inbox := [] } ha t0 b hvalid hq hlong)

end Sys2Proof.Machine
end

section
/-! The encoder on symbols (R211), and what the host's procedures do whatever the script: the calls of the
transmitter, the end of every loop, and the edges that make no difference (R220 to R223, R225, R227). -/

namespace Sys2Proof.Machine

/-! ### Symbols (R211) -/

theorem bitOf_eq_none_iff (c : Char) : bitOf c = none ↔ c ≠ '0' ∧ c ≠ '1' := by
  rw [bitOf]
  split_ifs with h0 h1 <;> simp [*]

/-- Symbol i is the first that is neither 0 nor 1. -/
def FirstInvalid (cs : List Char) (i : Nat) : Prop :=
  (∃ c, cs[i]? = some c ∧ c ≠ '0' ∧ c ≠ '1') ∧ ∀ j < i, cs[j]? = some '0' ∨ cs[j]? = some '1'

theorem not_firstInvalid_nil (i : Nat) : ¬ FirstInvalid [] i := by
  rintro ⟨⟨c, hc, -⟩, -⟩
  cases hc

theorem firstInvalid_cons_zero (c : Char) (cs : List Char) : FirstInvalid (c :: cs) 0 ↔ bitOf c = none := by
  simp [FirstInvalid, bitOf_eq_none_iff]

theorem firstInvalid_cons_succ (c : Char) (cs : List Char) (i : Nat) :
    FirstInvalid (c :: cs) (i + 1) ↔ bitOf c ≠ none ∧ FirstInvalid cs i := by
  rw [ne_eq, bitOf_eq_none_iff, not_and_or, not_not, not_not]
  constructor
  · rintro ⟨hbad, hgood⟩
    exact ⟨by simpa using hgood 0 (Nat.succ_pos i), hbad, fun j hj => hgood (j + 1) (Nat.succ_lt_succ hj)⟩
  · rintro ⟨hc, hbad, hgood⟩
    refine ⟨hbad, fun j hj => ?_⟩
    cases j with
    | zero => simpa using hc
    | succ j => exact hgood j (Nat.lt_of_succ_lt_succ hj)

theorem map_eq_error_iff {α β ε : Type} (f : α → β) (x : Except ε α) (e : ε) :
    x.map f = .error e ↔ x = .error e := by
  cases x <;> simp [Except.map]

/-- The index reported is that of the first invalid symbol, counted from the first symbol's (R211). -/
theorem parseBits_eq_error_iff (k : Nat) (cs : List Char) (n : Nat) :
    parseBits k cs = .error ⟨n⟩ ↔ ∃ i, n = k + i ∧ FirstInvalid cs i := by
  induction cs generalizing k with
  | nil => exact iff_of_false nofun fun ⟨i, _, h⟩ => not_firstInvalid_nil i h
  | cons c cs ih =>
    cases hc : bitOf c with
    | none =>
      have hparse : parseBits k (c :: cs) = .error ⟨k⟩ := by simp only [parseBits, hc]
      rw [hparse]
      constructor
      · intro h
        cases h
        exact ⟨0, rfl, (firstInvalid_cons_zero c cs).2 hc⟩
      · rintro ⟨_ | i, rfl, h⟩
        · rfl
        · exact absurd hc ((firstInvalid_cons_succ c cs i).1 h).1
    | some b =>
      have hparse : parseBits k (c :: cs) = (parseBits (k + 1) cs).map (b :: ·) := by
        simp only [parseBits, hc]
      have hsome : bitOf c ≠ none := by rw [hc]; exact Option.some_ne_none b
      rw [hparse, map_eq_error_iff, ih]
      constructor
      · rintro ⟨i, rfl, h⟩
        exact ⟨i + 1, by omega, (firstInvalid_cons_succ c cs i).2 ⟨hsome, h⟩⟩
      · rintro ⟨_ | i, rfl, h⟩
        · exact absurd ((firstInvalid_cons_zero c cs).1 h) hsome
        · exact ⟨i, by omega, ((firstInvalid_cons_succ c cs i).1 h).2⟩

theorem parseBits_symbols (k : Nat) (b : List Bool) :
    parseBits k (b.map (fun x => if x then '1' else '0')) = .ok b := by
  induction b generalizing k with
  | nil => rfl
  | cons x xs ih => cases x <;> simp [parseBits, bitOf, ih, Except.map]

/-- Settles O52, by the parsing of the symbols from index 0 on. -/
theorem invalidSymbolIsReported : Obligations.InvalidSymbolIsReported := by
  refine ⟨fun b => by rw [encodeSymbols, parseBits_symbols]; rfl, fun cs i => ?_⟩
  rw [encodeSymbols, map_eq_error_iff, parseBits_eq_error_iff]
  constructor
  · rintro ⟨j, hj, h⟩
    obtain rfl : i = j := by omega
    exact h
  · intro h
    exact ⟨i, (Nat.zero_add i).symm, h⟩

/-! ### Attempts (R221 to R223) -/

/-- The three ways an attempt ends, by the transmitter calls it has made. -/
theorem attempt_calls (time : HostTiming) (message : List Char) (a : AttemptScript) (s : State)
    (r : AttemptResult) (h : attempt time message a s = some r) :
    (∃ e, encodeSymbols message = .error e ∧ r.outcome = .invalidMessage e ∧ r.calls = []) ∨
    (∃ train, encodeSymbols message = .ok train ∧ r.outcome = .transmissionFailure ∧
      r.calls = [⟨train, .failure⟩]) ∨
    (∃ train, encodeSymbols message = .ok train ∧ (r.outcome = .replied ∨ r.outcome = .receiveTimeout) ∧
      r.calls = [⟨train, .success⟩]) := by
  rcases attempt_cases time message a s with ⟨e, he, ha⟩ | ⟨train, he, -, ha⟩ | ⟨train, he, -, ha⟩
  · obtain rfl := Option.some.inj (ha.symm.trans h)
    exact .inl ⟨e, he, rfl, rfl⟩
  · obtain rfl := Option.some.inj (ha.symm.trans h)
    exact .inr (.inl ⟨train, he, rfl, rfl⟩)
  · obtain ⟨p, -, rfl⟩ := Option.map_eq_some_iff.1 (ha.symm.trans h)
    refine .inr (.inr ⟨train, he, ?_, rfl⟩)
    cases p.1
    · exact .inr rfl
    · exact .inl rfl

/-- An attempt that times out has made one call, and that succeeded (R223). -/
theorem calls_of_receiveTimeout (time : HostTiming) (message : List Char) (a : AttemptScript) (s : State)
    (r : AttemptResult) (train : List Nat) (h : attempt time message a s = some r)
    (ho : r.outcome = .receiveTimeout) (htrain : encodeSymbols message = .ok train) :
    r.calls = [⟨train, .success⟩] := by
  rcases attempt_calls time message a s r h with ⟨e, -, he, -⟩ | ⟨_, -, he, -⟩ | ⟨train', hok, -, hcalls⟩
  · cases ho.symm.trans he
  · cases ho.symm.trans he
  · obtain rfl := Except.ok.inj (htrain.symm.trans hok)
    exact hcalls

/-- An attempt uses of the state that it finds only what DISARM and RESET_SESSION leave of it (R222). -/
theorem attempt_of_ready (time : HostTiming) (message : List Char) (a : AttemptScript) (s : State) :
    attempt time message a s =
      attempt time message { a with before := [] } (s.afterEdges a.before).readyToSend := rfl

/-- Settles O56: DISARM and RESET_SESSION leave nothing of STATE, the accumulator and ARM. -/
theorem attemptsAreIndependent : Obligations.AttemptsAreIndependent := by
  intro time message a s
  refine ⟨rfl, fun q acc count armed hbefore => ?_⟩
  rw [attempt_of_ready, attempt_of_ready time message a s, hbefore]
  rfl

/-- Edges during the transmission reach a disarmed receiver (R227). -/
theorem attempt_without_echo (time : HostTiming) (message : List Char) (a : AttemptScript) (s : State) :
    attempt time message { a with transmission := { a.transmission with echo := [] } } s =
      attempt time message a s := by
  have hlost : (s.afterEdges a.before).readyToSend.afterEdges a.transmission.echo =
      (s.afterEdges a.before).readyToSend.afterEdges [] := afterEdges_disarmed _ _ rfl rfl
  have hready : applyAll [disarmOp, resetSessionOp] (s.afterEdges a.before) =
      (s.afterEdges a.before).readyToSend := rfl
  simp only [attempt, transmit, hready, hlost]

/-! ### send_and_await (R221, R223) -/

/-- Settles O55, by induction on the script: attempt by attempt the echo makes no difference. -/
theorem echoWhileTransmittingIsIgnored : Obligations.EchoWhileTransmittingIsIgnored := by
  intro time retries message script s
  induction script generalizing retries s with
  | nil => rfl
  | cons a rest ih =>
    rw [List.map_cons, sendAndAwait, sendAndAwait, attempt_without_echo]
    cases attempt time message a s with
    | none => rfl
    | some r =>
      by_cases ho : r.outcome = .receiveTimeout
      · simp only [if_pos ho]
        cases retries with
        | zero => rfl
        | succ n =>
          have hview : (fun q : SendResult => (q.outcome, q.calls, q.state)) ∘ SendResult.precededBy r.calls =
              (fun v => (v.1, r.calls ++ v.2.1, v.2.2)) ∘ fun q => (q.outcome, q.calls, q.state) := rfl
          simp only [Option.map_map, hview]
          simp only [← Option.map_map, ih n r.state]
      · simp only [if_neg ho]
        rfl

/-- Settles O57: the edges of the transmission are lost between DISARM and ARM. -/
theorem transmitOnlyOnlyArms : Obligations.TransmitOnlyOnlyArms := by
  intro pulses x s
  have hlost : (applyOp disarmOp s).afterEdges x.echo = applyOp disarmOp s := afterEdges_disarmed _ _ rfl rfl
  rw [transmitOnly, transmit, hlost]
  rfl

end Sys2Proof.Machine
end

section
/-! The calls that send_and_await makes of the transmitter, and the end of its loops (R221, R223). -/

namespace Sys2Proof.Machine

/-! ### At most retries + 1 calls, and none after a failure (R221, R223) -/

/-- What the calls of a result of `send_and_await` are, with the given number of retries. -/
structure SendResult.WithinRetries (message : List Char) (retries : Nat) (r : SendResult) : Prop where
  bounded : r.calls.length ≤ retries + 1
  encoded : ∀ c ∈ r.calls, encodeSymbols message = .ok c.pulses
  succeeded : ∀ c ∈ r.calls.dropLast, c.answer = .success
  failed : (∃ c ∈ r.calls, c.answer = .failure) → r.ok = false

/-- The last attempt by itself. -/
theorem withinRetries_of_attempt (time : HostTiming) (message : List Char) (retries : Nat) (a : AttemptScript)
    (rest : List AttemptScript) (s : State) (r : AttemptResult) (h : attempt time message a s = some r) :
    SendResult.WithinRetries message retries ⟨r.outcome, r.calls, r.state, rest⟩ := by
  rcases attempt_calls time message a s r h with ⟨e, -, ho, hcalls⟩ | ⟨train, htrain, ho, hcalls⟩ |
    ⟨train, htrain, -, hcalls⟩ <;> rw [hcalls]
  · exact ⟨Nat.zero_le _, nofun, nofun, nofun⟩
  · refine ⟨Nat.le_add_left _ _, ?_, nofun, fun _ => ?_⟩
    · rintro c hc
      obtain rfl := List.mem_singleton.1 hc
      exact htrain
    · rw [SendResult.ok, ho]
      rfl
  · refine ⟨Nat.le_add_left _ _, ?_, nofun, ?_⟩
    · rintro c hc
      obtain rfl := List.mem_singleton.1 hc
      exact htrain
    · rintro ⟨c, hc, hfail⟩
      obtain rfl := List.mem_singleton.1 hc
      cases hfail

/-- One more attempt before them, which timed out after a call that succeeded. -/
theorem withinRetries_precededBy (message : List Char) (n : Nat) (train : List Nat) (q : SendResult)
    (htrain : encodeSymbols message = .ok train) (h : q.WithinRetries message n) :
    (q.precededBy [⟨train, .success⟩]).WithinRetries message (n + 1) where
  bounded := Nat.succ_le_succ h.bounded
  encoded c hc := by
    rcases List.mem_cons.1 hc with rfl | hc
    · exact htrain
    · exact h.encoded c hc
  succeeded c hc := by
    have hcalls : (q.precededBy [⟨train, .success⟩]).calls = ⟨train, .success⟩ :: q.calls := rfl
    rw [hcalls] at hc
    cases hq : q.calls with
    | nil => rw [hq] at hc; cases hc
    | cons c' calls =>
      rw [hq, List.dropLast_cons_cons, ← hq] at hc
      rcases List.mem_cons.1 hc with rfl | hc
      · rfl
      · exact h.succeeded c hc
  failed := by
    rintro ⟨c, hc, hfail⟩
    rcases List.mem_cons.1 hc with rfl | hc
    · cases hfail
    · exact h.failed ⟨c, hc, hfail⟩

/-- Whatever the script, by induction over its attempts. -/
theorem sendAndAwait_withinRetries (time : HostTiming) (message : List Char) (retries : Nat)
    (script : List AttemptScript) (s : State) (r : SendResult)
    (h : sendAndAwait time message retries script s = some r) : r.WithinRetries message retries := by
  induction script generalizing retries s r with
  | nil => rw [sendAndAwait] at h; cases h
  | cons a rest ih =>
    rcases sendAndAwait_cons time message retries a rest s with ⟨-, hnone⟩ | ⟨p, hp, ⟨-, hlast⟩ |
      ⟨-, -, hlast⟩ | ⟨n, ho, rfl, hnext⟩⟩
    · cases hnone.symm.trans h
    · obtain rfl := Option.some.inj (hlast.symm.trans h)
      exact withinRetries_of_attempt time message retries a rest s p hp
    · obtain rfl := Option.some.inj (hlast.symm.trans h)
      exact withinRetries_of_attempt time message retries a rest s p hp
    · obtain ⟨q, hq, rfl⟩ := Option.map_eq_some_iff.1 (hnext.symm.trans h)
      rcases attempt_calls time message a s p hp with ⟨e, -, he, -⟩ | ⟨_, -, he, -⟩ | ⟨train, htrain, -, hcalls⟩
      · cases ho.symm.trans he
      · cases ho.symm.trans he
      · rw [hcalls]
        exact withinRetries_precededBy message n train q htrain (ih n p.state q hq)

/-! ### Attempts that time out (R221, R223) -/

theorem silentAttempts_cons (time : HostTiming) (message : List Char) (a : AttemptScript)
    (rest : List AttemptScript) (s u : State) (h : silentAttempts time message (a :: rest) s = some u) :
    ∃ r, attempt time message a s = some r ∧ r.outcome = .receiveTimeout ∧
      silentAttempts time message rest r.state = some u := by
  rw [silentAttempts] at h
  cases ha : attempt time message a s with
  | none => rw [ha] at h; cases h
  | some r =>
    rw [ha] at h
    by_cases ho : r.outcome = .receiveTimeout
    · exact ⟨r, rfl, ho, by simpa only [if_pos ho] using h⟩
    · simp only [if_neg ho] at h
      cases h

/-- Results of the calls, each of which succeeded. -/
def successes (n : Nat) (train : List Nat) : List TransmitCall := List.replicate n ⟨train, .success⟩

theorem precededBy_successes (n : Nat) (train : List Nat) (q : SendResult) :
    (q.precededBy (successes n train)).precededBy [⟨train, .success⟩] = q.precededBy (successes (n + 1) train) :=
  rfl

/-- After attempts that time out, with retries left, `send_and_await` goes on from where they leave it. -/
theorem sendAndAwait_after_silent (time : HostTiming) (message : List Char) (train : List Nat) (n : Nat)
    (silent rest : List AttemptScript) (s u : State) (htrain : encodeSymbols message = .ok train)
    (h : silentAttempts time message silent s = some u) :
    sendAndAwait time message (silent.length + n) (silent ++ rest) s =
      (sendAndAwait time message n rest u).map (SendResult.precededBy (successes silent.length train)) := by
  induction silent generalizing s with
  | nil =>
    obtain rfl := Option.some.inj h
    have hid : SendResult.precededBy (successes 0 train) = id := rfl
    rw [List.length_nil, hid, Option.map_id, Nat.zero_add]
    rfl
  | cons a silent ih =>
    obtain ⟨r, ha, ho, hsilent⟩ := silentAttempts_cons time message a silent s u h
    have hcalls := calls_of_receiveTimeout time message a s r train ha ho htrain
    have hcomp : SendResult.precededBy [⟨train, .success⟩] ∘
        SendResult.precededBy (successes silent.length train) =
          SendResult.precededBy (successes (silent.length + 1) train) :=
      funext (precededBy_successes silent.length train)
    rw [List.length_cons, List.cons_append, Nat.add_right_comm, sendAndAwait, ha]
    simp only [if_pos ho]
    rw [hcalls, ih r.state hsilent, Option.map_map, hcomp]

/-- One attempt more than the retries, all of which time out (R223). -/
theorem sendAndAwait_exhausted (time : HostTiming) (message : List Char) (train : List Nat) (retries : Nat)
    (silent rest : List AttemptScript) (s u : State) (htrain : encodeSymbols message = .ok train)
    (h : silentAttempts time message silent s = some u) (hlen : silent.length = retries + 1) :
    sendAndAwait time message retries (silent ++ rest) s =
      some ⟨.receiveTimeout, successes (retries + 1) train, u, rest⟩ := by
  induction silent generalizing retries s with
  | nil => cases hlen
  | cons a silent ih =>
    obtain ⟨r, ha, ho, hsilent⟩ := silentAttempts_cons time message a silent s u h
    have hcalls := calls_of_receiveTimeout time message a s r train ha ho htrain
    rw [List.cons_append, sendAndAwait, ha]
    simp only [if_pos ho]
    cases retries with
    | zero =>
      obtain rfl : silent = [] := List.eq_nil_of_length_eq_zero (Nat.succ.inj hlen)
      obtain rfl := Option.some.inj hsilent
      rw [hcalls, ho]
      rfl
    | succ n =>
      simp only [ih n r.state hsilent (Nat.succ.inj hlen), hcalls]
      rfl

/-- Settles O53, by the calls within the retries and by the attempts that time out. -/
theorem sendTransmitsAtMostRetriesPlusOne : Obligations.SendTransmitsAtMostRetriesPlusOne := by
  intro time retries message s
  refine ⟨fun script r h => ?_, fun train silent rest t htrain hsilent => ⟨fun a hle hfail => ?_, fun hlen => ?_⟩,
    fun err a rest herr => ?_⟩
  · have hr := sendAndAwait_withinRetries time message retries script s r h
    exact ⟨hr.bounded, hr.encoded, hr.succeeded, hr.failed⟩
  · obtain ⟨n, rfl⟩ := Nat.exists_eq_add_of_le hle
    have hattempt : attempt time message a t =
        some ⟨.transmissionFailure, [⟨train, .failure⟩], (t.afterEdges a.before).readyToSend⟩ := by
      rcases attempt_cases time message a t with ⟨e, he, -⟩ | ⟨train', he, -, ha⟩ | ⟨_, -, hok, -⟩
      · cases htrain.symm.trans he
      · obtain rfl := Except.ok.inj (htrain.symm.trans he)
        exact ha
      · cases hfail.symm.trans hok
    have hfailed : sendAndAwait time message n (a :: rest) t =
        some ⟨.transmissionFailure, [⟨train, .failure⟩], (t.afterEdges a.before).readyToSend, rest⟩ := by
      rw [sendAndAwait, hattempt]
      rfl
    rw [sendAndAwait_after_silent time message train n silent _ s t htrain hsilent, hfailed]
    exact ⟨_, rfl, rfl, rfl⟩
  · exact ⟨_, sendAndAwait_exhausted time message train retries silent rest s t htrain hsilent hlen, rfl, rfl⟩
  · rcases attempt_cases time message a s with ⟨e, -, ha⟩ | ⟨train, he, -⟩ | ⟨train, he, -⟩
    · refine ⟨⟨.invalidMessage e, [], (s.afterEdges a.before).readyToSend, rest⟩, ?_, rfl, rfl⟩
      rw [sendAndAwait, ha]
      rfl
    · cases herr.symm.trans he
    · cases herr.symm.trans he

/-! ### The polls of an attempt (R221) -/

/-- The state after the edges and the poll of one slot. -/
def State.afterSlot (s : State) (slot : PollSlot) : State :=
  (poll (s.afterEdges slot.before)).1.afterEdges slot.after

/-- One round of the loop (R221 step 4). -/
theorem awaitReply_cons (time : HostTiming) (clock : Nat) (slot : PollSlot) (rest : List PollSlot) (s : State) :
    awaitReply time clock (slot :: rest) s =
      if (s.afterEdges slot.before).decodeState = .eom then some (true, applyOp consumeOp (s.afterSlot slot))
      else if time.timeoutMs ≤ clock + slot.delay then some (false, s.afterSlot slot)
      else awaitReply time (clock + slot.delay + time.pollMs) rest (s.afterSlot slot) := by
  simp only [awaitReply, State.afterSlot, poll_eq, decide_eq_true_eq]

/-- Polls that go on until the sleeps reach the timeout end the loop. -/
theorem awaitReply_ends (time : HostTiming) (clock : Nat) (polls : List PollSlot) (s : State)
    (hne : polls ≠ []) (h : time.timeoutMs + time.pollMs ≤ clock + polls.length * time.pollMs) :
    ∃ p, awaitReply time clock polls s = some p := by
  induction polls generalizing clock s with
  | nil => exact absurd rfl hne
  | cons slot rest ih =>
    rw [List.length_cons, Nat.succ_mul] at h
    rw [awaitReply_cons]
    split_ifs with heom hout
    · exact ⟨_, rfl⟩
    · exact ⟨_, rfl⟩
    · refine ih _ _ (fun hrest => hout ?_) (by omega)
      rw [hrest, List.length_nil, Nat.zero_mul] at h
      omega

/-- A poll with no edge around it leaves all but the port. -/
theorem afterSlot_quiet (s : State) (slot : PollSlot) (h : slot.before = [] ∧ slot.after = []) :
    s.afterSlot slot = { s with rdata := some s.statusWord } := by
  rw [State.afterSlot, h.1, h.2, afterEdges_nil, afterEdges_nil, poll_eq]

/-- Without an edge, polls outside EndOfMessage see no message. -/
theorem awaitReply_quiet (time : HostTiming) (clock : Nat) (polls : List PollSlot) (s : State)
    (p : Bool × State) (hquiet : ∀ slot ∈ polls, slot.before = [] ∧ slot.after = [])
    (hs : s.decodeState ≠ .eom) (h : awaitReply time clock polls s = some p) : p.1 = false := by
  induction polls generalizing clock s with
  | nil => cases h
  | cons slot rest ih =>
    have hslot := hquiet slot List.mem_cons_self
    rw [awaitReply_cons, hslot.1, afterEdges_nil, if_neg hs, afterSlot_quiet s slot hslot] at h
    split_ifs at h
    · obtain rfl := Option.some.inj h
      rfl
    · exact ih _ { s with rdata := some s.statusWord } (fun slot' h' => hquiet slot' (List.mem_cons_of_mem slot h'))
        hs h

/-! ### The end of send_and_await (R221) -/

theorem attempt_ends (time : HostTiming) (message : List Char) (a : AttemptScript) (s : State)
    (h : outlastTimeout time a.polls) : ∃ r, attempt time message a s = some r := by
  obtain ⟨hne, hlong⟩ := h
  rcases attempt_cases time message a s with ⟨e, -, ha⟩ | ⟨train, -, -, ha⟩ | ⟨train, -, -, ha⟩
  · exact ⟨_, ha⟩
  · exact ⟨_, ha⟩
  · obtain ⟨p, hp⟩ := awaitReply_ends time 0 a.polls { (s.afterEdges a.before).readyToSend with armed := true }
      hne (by rwa [Nat.zero_add])
    rw [hp] at ha
    exact ⟨_, ha⟩

/-- With no edge during the polls an attempt whose transmission succeeds times out. -/
theorem attempt_times_out (time : HostTiming) (message : List Char) (train : List Nat) (a : AttemptScript)
    (s : State) (htrain : encodeSymbols message = .ok train) (h : outlastTimeout time a.polls)
    (hok : a.transmission.answer = .success) (hquiet : ∀ slot ∈ a.polls, slot.before = [] ∧ slot.after = []) :
    ∃ r, attempt time message a s = some r ∧ r.outcome = .receiveTimeout := by
  obtain ⟨r, hr⟩ := attempt_ends time message a s h
  refine ⟨r, hr, ?_⟩
  rcases attempt_cases time message a s with ⟨e, he, -⟩ | ⟨_, -, hfail, -⟩ | ⟨train', -, -, ha⟩
  · cases htrain.symm.trans he
  · cases hok.symm.trans hfail
  · obtain ⟨p, hp, rfl⟩ := Option.map_eq_some_iff.1 (ha.symm.trans hr)
    have hfalse := awaitReply_quiet time 0 a.polls _ p hquiet (by exact DecodeState.noConfusion) hp
    simp only [hfalse]
    rfl

theorem sendAndAwait_ends (time : HostTiming) (message : List Char) (retries : Nat)
    (script : List AttemptScript) (s : State) (hlen : retries + 1 ≤ script.length)
    (h : ∀ a ∈ script, outlastTimeout time a.polls) :
    ∃ r, sendAndAwait time message retries script s = some r := by
  induction script generalizing retries s with
  | nil => cases hlen
  | cons a rest ih =>
    obtain ⟨r, hr⟩ := attempt_ends time message a s (h a List.mem_cons_self)
    rcases sendAndAwait_cons time message retries a rest s with ⟨hnone, -⟩ | ⟨p, -, ⟨-, hlast⟩ | ⟨-, -, hlast⟩ |
      ⟨n, -, rfl, hnext⟩⟩
    · cases hr.symm.trans hnone
    · exact ⟨_, hlast⟩
    · exact ⟨_, hlast⟩
    · obtain ⟨q, hq⟩ := ih n p.state (Nat.le_of_succ_le_succ hlen)
        fun a' h' => h a' (List.mem_cons_of_mem a h')
      rw [hq] at hnext
      exact ⟨_, hnext⟩

/-- Attempts with no edge during their polls time out, all of them. -/
theorem silentAttempts_of_quiet (time : HostTiming) (message : List Char) (train : List Nat)
    (script : List AttemptScript) (s : State) (htrain : encodeSymbols message = .ok train)
    (h : ∀ a ∈ script, outlastTimeout time a.polls)
    (hquiet : ∀ a ∈ script, a.transmission.answer = .success ∧
      ∀ slot ∈ a.polls, slot.before = [] ∧ slot.after = []) :
    ∃ u, silentAttempts time message script s = some u := by
  induction script generalizing s with
  | nil => exact ⟨s, rfl⟩
  | cons a rest ih =>
    obtain ⟨hok, hslots⟩ := hquiet a List.mem_cons_self
    obtain ⟨r, hr, ho⟩ := attempt_times_out time message train a s htrain (h a List.mem_cons_self) hok hslots
    obtain ⟨u, hu⟩ := ih r.state (fun a' h' => h a' (List.mem_cons_of_mem a h'))
      fun a' h' => hquiet a' (List.mem_cons_of_mem a h')
    refine ⟨u, ?_⟩
    simp only [silentAttempts, hr, if_pos ho]
    exact hu

/-- Settles O54: without edges the first retries + 1 attempts time out, and no retry is left. -/
theorem sendAlwaysEnds : Obligations.SendAlwaysEnds := by
  intro time retries message script s hlen h
  refine ⟨sendAndAwait_ends time message retries script s hlen h, fun train htrain hquiet => ?_⟩
  obtain ⟨u, hu⟩ := silentAttempts_of_quiet time message train (script.take (retries + 1)) s htrain
    (fun a ha => h a (List.mem_of_mem_take ha)) fun a ha => hquiet a (List.mem_of_mem_take ha)
  have hresult := sendAndAwait_exhausted time message train retries (script.take (retries + 1))
    (script.drop (retries + 1)) s u htrain hu (List.length_take_of_le hlen)
  rw [List.take_append_drop] at hresult
  exact ⟨_, hresult, rfl, rfl⟩

end Sys2Proof.Machine
end

section
/-! A reply during send_and_await (R131, R164, R221), and the exchange of several messages (R224, R226). -/

namespace Sys2Proof.Machine

/-! ### What edges and procedures keep -/

/-- Edges write neither ARM nor the parameters (R110). -/
theorem applyOp_edge_keeps (now : Word) (level : Level) (s : State) :
    (applyOp (.edge now level) s).armed = s.armed ∧ (applyOp (.edge now level) s).params = s.params := by
  obtain ⟨t, ht, -, hparams⟩ := exec_completes (.edge now level) { s with rdata := none }
  rw [applyOp_next _ s t ht]
  refine ⟨?_, hparams⟩
  by_contra hne
  obtain ⟨d, hd, -⟩ := wrCtrl_of_armed_ne _ _ t (exec_effect _ _ _ ht) hne
  cases hd

theorem afterEdges_keeps (edges : List (Word × Level)) (s : State) :
    (s.afterEdges edges).armed = s.armed ∧ (s.afterEdges edges).params = s.params := by
  induction edges generalizing s with
  | nil => exact ⟨rfl, rfl⟩
  | cons p edges ih =>
    obtain ⟨harmed, hparams⟩ := ih (applyOp (.edge p.1 p.2) s)
    obtain ⟨harmed', hparams'⟩ := applyOp_edge_keeps p.1 p.2 s
    exact ⟨harmed.trans harmed', hparams.trans hparams'⟩

theorem applyOp_consume_keeps (s : State) :
    (applyOp consumeOp s).armed = s.armed ∧ (applyOp consumeOp s).params = s.params ∧
      (applyOp consumeOp s).pubBits = s.pubBits ∧ (applyOp consumeOp s).pubCount = s.pubCount := by
  by_cases h : s.decodeState = .eom
  · rw [applyOp_consume_eom s h]; exact ⟨rfl, rfl, rfl, rfl⟩
  · rw [applyOp_consume_other s h]; exact ⟨rfl, rfl, rfl, rfl⟩

theorem afterSlot_keeps (s : State) (slot : PollSlot) :
    (s.afterSlot slot).armed = s.armed ∧ (s.afterSlot slot).params = s.params := by
  obtain ⟨harmed, hparams⟩ := afterEdges_keeps slot.before s
  obtain ⟨harmed', hparams'⟩ := afterEdges_keeps slot.after (poll (s.afterEdges slot.before)).1
  rw [poll_eq] at harmed' hparams'
  rw [State.afterSlot, poll_eq]
  exact ⟨harmed'.trans harmed, hparams'.trans hparams⟩

theorem awaitReply_params (time : HostTiming) (clock : Nat) (polls : List PollSlot) (s : State)
    (p : Bool × State) (h : awaitReply time clock polls s = some p) : p.2.params = s.params := by
  induction polls generalizing clock s with
  | nil => cases h
  | cons slot rest ih =>
    have hslot := (afterSlot_keeps s slot).2
    rw [awaitReply_cons] at h
    split_ifs at h
    · obtain rfl := Option.some.inj h
      exact (applyOp_consume_keeps _).2.1.trans hslot
    · obtain rfl := Option.some.inj h
      exact hslot
    · exact (ih _ _ h).trans hslot

theorem attempt_params (time : HostTiming) (message : List Char) (a : AttemptScript) (s : State)
    (r : AttemptResult) (h : attempt time message a s = some r) : r.state.params = s.params := by
  have hbefore := (afterEdges_keeps a.before s).2
  rcases attempt_cases time message a s with ⟨e, -, ha⟩ | ⟨train, -, -, ha⟩ | ⟨train, -, -, ha⟩
  · obtain rfl := Option.some.inj (ha.symm.trans h)
    exact hbefore
  · obtain rfl := Option.some.inj (ha.symm.trans h)
    exact hbefore
  · obtain ⟨p, hp, rfl⟩ := Option.map_eq_some_iff.1 (ha.symm.trans h)
    exact (awaitReply_params time 0 a.polls _ p hp).trans hbefore

theorem silentAttempts_params (time : HostTiming) (message : List Char) (silent : List AttemptScript)
    (s u : State) (h : silentAttempts time message silent s = some u) : u.params = s.params := by
  induction silent generalizing s with
  | nil => obtain rfl := Option.some.inj h; rfl
  | cons a silent ih =>
    obtain ⟨r, ha, -, hsilent⟩ := silentAttempts_cons time message a silent s u h
    exact (ih r.state hsilent).trans (attempt_params time message a s r ha)

/-! ### How far a message has come (R112) -/

/-- The number of edges a message takes at least from Waiting to the decode state. -/
def DecodeState.depth : DecodeState → Nat
  | .wait => 0
  | .eom => 0
  | .reserved7 => 0
  | .lag => 1
  | .lead => 2
  | .dmas => 3
  | .dls => 4
  | .dss => 4

/-- A row whose condition holds goes at most one deeper. -/
theorem applyRow_depth (r : TableRow) (s : State) (e : Nat) (level : Level)
    (h : rowHolds r s.decodeState e level) :
    (applyRow r s).decodeState.depth ≤ s.decodeState.depth + 1 := by
  cases r with
  | row1 | row10 => exact Nat.le_add_left _ _
  | row2 | row3 | row4 | row5 =>
    obtain ⟨hq, -⟩ := h
    rw [hq]
    exact Nat.le_refl _
  | row6 | row8 =>
    obtain ⟨hq, -⟩ := h
    rw [hq, applyRow]
    rcases appendThenMark_cases s _ with ⟨-, heq⟩ | ⟨-, heq⟩ <;> rw [heq]
    · exact Nat.zero_le _
    · exact Nat.le_add_right 3 2
  | row7 | row9 =>
    rw [applyRow]
    rcases appendThenEnd_cases s _ with ⟨-, heq⟩ | ⟨-, heq⟩ <;> rw [heq] <;> exact Nat.zero_le _

/-- One edge goes at most one deeper, and publishes only from the depth of a data space (R126). -/
theorem applyOp_edge_depth (now : Word) (level : Level) (s : State) :
    (applyOp (.edge now level) s).decodeState.depth ≤ s.decodeState.depth + 1 ∧
      (s.decodeState.depth < 4 →
        (applyOp (.edge now level) s).pubBits = s.pubBits ∧
          (applyOp (.edge now level) s).pubCount = s.pubCount) := by
  cases ha : s.armed with
  | false =>
    rw [applyOp_edge_disarmed now level s ha]
    exact ⟨Nat.le_succ _, fun _ => ⟨rfl, rfl⟩⟩
  | true =>
    have hexec := exec_edge_armed now level { s with rdata := none } ha
    rw [applyOp_next _ s _ hexec]
    refine ⟨applyRow_depth _ _ _ level (rowHolds_edgeRow s.decodeState _ level), fun hdepth => ?_⟩
    rcases applyRow_publishes (edgeRow s.decodeState (elapsed now s.lastTs) level)
      (({ s with rdata := none } : State).setLastTs now) with hkeeps | ⟨hrow, -⟩
    · exact hkeeps
    · obtain ⟨hq | hq, -⟩ := dataSpace_of_edgeRow _ _ _ hrow
      · rw [hq] at hdepth; exact absurd hdepth (by decide)
      · rw [hq] at hdepth; exact absurd hdepth (by decide)

/-- Fewer edges than it takes to publish leave the published slot. -/
theorem afterEdges_keeps_pub (edges : List (Word × Level)) (s : State)
    (h : s.decodeState.depth + edges.length ≤ 4) :
    (s.afterEdges edges).pubBits = s.pubBits ∧ (s.afterEdges edges).pubCount = s.pubCount := by
  induction edges generalizing s with
  | nil => exact ⟨rfl, rfl⟩
  | cons p edges ih =>
    rw [List.length_cons] at h
    obtain ⟨hdepth, hpub⟩ := applyOp_edge_depth p.1 p.2 s
    obtain ⟨hbits, hcount⟩ := ih (applyOp (.edge p.1 p.2) s) (by omega)
    obtain ⟨hbits', hcount'⟩ := hpub (by omega)
    exact ⟨hbits.trans hbits', hcount.trans hcount'⟩

/-! ### A reply (R131, R164, R221) -/

/-- A poll with no edge around it. -/
def quietSlot (delay : Nat) : PollSlot := ⟨[], [], delay⟩

/-- Polls with no edge around them, before the timeout, lead to the next one in the same state. -/
theorem awaitReply_after_quiet (time : HostTiming) (clock : Nat) (delays : List Nat) (rest : List PollSlot)
    (s : State) (hs : s.decodeState ≠ .eom)
    (h : delays = [] ∨ clock + delays.sum + delays.length * time.pollMs < time.timeoutMs + time.pollMs) :
    ∃ clock' v, awaitReply time clock (delays.map quietSlot ++ rest) s =
      awaitReply time clock' rest { s with rdata := v } := by
  induction delays generalizing clock s with
  | nil => exact ⟨clock, s.rdata, rfl⟩
  | cons d delays ih =>
    have hlt := h.resolve_left (List.cons_ne_nil d delays)
    rw [List.sum_cons, List.length_cons, Nat.succ_mul] at hlt
    have hin : ¬ time.timeoutMs ≤ clock + d := by omega
    obtain ⟨clock', v, hnext⟩ := ih (clock + d + time.pollMs) { s with rdata := some s.statusWord } hs
      (.inr (by omega))
    refine ⟨clock', v, ?_⟩
    rw [List.map_cons, List.cons_append, awaitReply_cons, afterSlot_quiet s (quietSlot d) ⟨rfl, rfl⟩]
    exact (if_neg hs).trans ((if_neg hin).trans hnext)

/-- A whole message fed before a poll is seen by it, in a state that received the message (R131). -/
theorem afterEdges_reply (s : State) (reply : List (Word × Level)) (b : List Bool) (t0 : Nat)
    (hvalid : s.params.Valid) (ha : s.armed = true) (hq : s.decodeState = .wait) (hb : 1 ≤ b.length)
    (hfits : b.length ≤ s.params.maxBits) (hreply : edgeOps reply = feed t0 (toPulseTrain b)) :
    s.afterEdges reply = (s.receiving .eom (t0 + duration (toPulseTrain b)) b).publish := by
  have hrun := runInstrs_edgeOps reply s
  rw [hreply, runInstrs_feed_message s ha t0 b hvalid (.inl hq) hb hfits] at hrun
  exact (Host.Outcome.next.inj hrun).symm

/-- What a reply that `send_and_await` has consumed leaves, given the edges between its poll and CONSUME. -/
structure State.Consumed (t : State) (b : List Bool) (late : List (Word × Level)) : Prop where
  armed : t.armed = true
  cleared : late = [] → t.decodeState = .wait ∧ t.accCount = 0
  published : late.length ≤ 4 → t.pubBits = pack b ∧ t.pubCount = BitVec.ofNat 16 b.length

/-- The slot of a reply, then CONSUME. -/
theorem consumed_afterSlot (s : State) (slot : PollSlot) (b : List Bool) (t : Nat) (ha : s.armed = true)
    (h : s.afterEdges slot.before = (s.receiving .eom t b).publish) :
    (applyOp consumeOp (s.afterSlot slot)).Consumed b slot.after := by
  obtain ⟨harmed, -, hbits, hcount⟩ := applyOp_consume_keeps (s.afterSlot slot)
  refine ⟨harmed.trans ((afterSlot_keeps s slot).1.trans ha), fun hlate => ?_, fun hlate => ?_⟩
  · have heom : (s.afterSlot slot).decodeState = .eom := by
      rw [State.afterSlot, hlate, h, poll_eq]
      rfl
    rw [applyOp_consume_eom _ heom]
    exact ⟨rfl, rfl⟩
  · rw [hbits, hcount, State.afterSlot, h, poll_eq]
    exact afterEdges_keeps_pub slot.after _ (by exact (Nat.zero_add _).trans_le hlate)

/-- An attempt that is answered after polls that see nothing. -/
theorem attempt_replied (time : HostTiming) (message : List Char) (train : List Nat)
    (before echo reply late : List (Word × Level)) (delays : List Nat) (delay : Nat) (polls : List PollSlot)
    (s : State) (b : List Bool) (t0 : Nat) (hvalid : s.params.Valid)
    (htrain : encodeSymbols message = .ok train) (hb : 1 ≤ b.length) (hfits : b.length ≤ s.params.maxBits)
    (hreply : edgeOps reply = feed t0 (toPulseTrain b))
    (hdelays : delays = [] ∨ delays.sum + delays.length * time.pollMs < time.timeoutMs + time.pollMs) :
    ∃ t : State, attempt time message ⟨before, ⟨echo, .success⟩,
        delays.map quietSlot ++ ⟨reply, late, delay⟩ :: polls⟩ s =
        some ⟨.replied, [⟨train, .success⟩], t⟩ ∧ t.Consumed b late := by
  obtain ⟨-, hparams⟩ := afterEdges_keeps before s
  have hdelays' : delays = [] ∨
      0 + delays.sum + delays.length * time.pollMs < time.timeoutMs + time.pollMs := by
    rwa [Nat.zero_add]
  rcases attempt_cases time message ⟨before, ⟨echo, .success⟩,
      delays.map quietSlot ++ ⟨reply, late, delay⟩ :: polls⟩ s with
    ⟨e, he, -⟩ | ⟨_, -, hfail, -⟩ | ⟨train', he, -, ha⟩
  · cases htrain.symm.trans he
  · cases hfail
  · obtain rfl := Except.ok.inj (htrain.symm.trans he)
    obtain ⟨clock, v, hpolls⟩ := awaitReply_after_quiet time 0 delays (⟨reply, late, delay⟩ :: polls)
      { (s.afterEdges before).readyToSend with armed := true } DecodeState.noConfusion hdelays'
    have hreceived := afterEdges_reply
      { (s.afterEdges before).readyToSend with armed := true, rdata := v } reply b t0
      (by rw [← hparams] at hvalid; exact hvalid) rfl rfl hb (by rw [← hparams] at hfits; exact hfits) hreply
    have hseen := awaitReply_cons time clock ⟨reply, late, delay⟩ polls
      { (s.afterEdges before).readyToSend with armed := true, rdata := v }
    rw [if_pos (by rw [hreceived]; rfl)] at hseen
    rw [hpolls, hseen] at ha
    exact ⟨_, ha, consumed_afterSlot _ ⟨reply, late, delay⟩ b _ rfl hreceived⟩

/-- An attempt that is answered is the last. -/
theorem sendAndAwait_of_replied (time : HostTiming) (message : List Char) (retries : Nat) (a : AttemptScript)
    (rest : List AttemptScript) (s t : State) (calls : List TransmitCall)
    (h : attempt time message a s = some ⟨.replied, calls, t⟩) :
    sendAndAwait time message retries (a :: rest) s = some ⟨.replied, calls, t, rest⟩ := by
  rw [sendAndAwait, h]
  rfl

/-- A reply after attempts that time out, with retries left. -/
theorem sendAndAwait_replied_after_silent (time : HostTiming) (message : List Char) (train : List Nat)
    (retries : Nat) (silent : List AttemptScript) (a : AttemptScript) (rest : List AttemptScript) (s u t : State)
    (htrain : encodeSymbols message = .ok train) (hsilent : silentAttempts time message silent s = some u)
    (hle : silent.length ≤ retries)
    (h : attempt time message a u = some ⟨.replied, [⟨train, .success⟩], t⟩) :
    sendAndAwait time message retries (silent ++ a :: rest) s =
      some ⟨.replied, successes (silent.length + 1) train, t, rest⟩ := by
  obtain ⟨n, rfl⟩ := Nat.exists_eq_add_of_le hle
  rw [sendAndAwait_after_silent time message train n silent _ s u htrain hsilent,
    sendAndAwait_of_replied time message n a rest u t _ h, successes, successes, List.replicate_succ']
  rfl

/-- Settles O58, by the answered attempt after those that time out. -/
theorem replyCompletesSend : Obligations.ReplyCompletesSend := by
  intro time retries message train silent rest before echo reply late delays delay polls s u b t0 hvalid htrain
    hb hfits hreply hsilent hle hdelays
  have hparams := silentAttempts_params time message silent s u hsilent
  obtain ⟨t, hattempt, ht⟩ := attempt_replied time message train before echo reply late delays delay polls u b t0
    (by rwa [hparams]) htrain hb (by rwa [hparams]) hreply hdelays
  exact ⟨t, sendAndAwait_replied_after_silent time message train retries silent _ rest s u t htrain hsilent hle
    hattempt, ht.armed, ht.cleared, ht.published⟩

/-! ### The steps of an exchange (R224) -/

theorem exchangeSteps_cons_ok (time : HostTiming) (retries : Nat) (m : List Char) (ms : List (List Char))
    (script : List AttemptScript) (s : State) (q : SendResult)
    (h : sendAndAwait time m retries script s = some q) (hok : q.ok = true) :
    exchangeSteps time retries (m :: ms) script s =
      (exchangeSteps time 1 ms q.rest q.state).map (fun r => { r with calls := q.calls :: r.calls }) := by
  simp only [exchangeSteps, h, hok, if_true]

theorem exchangeSteps_cons_of_tail (time : HostTiming) (retries : Nat) (m : List Char) (ms : List (List Char))
    (script : List AttemptScript) (s : State) (q : SendResult) (r : ExchangeResult)
    (h : sendAndAwait time m retries script s = some q) (hok : q.ok = true)
    (htail : exchangeSteps time 1 ms q.rest q.state = some r) :
    exchangeSteps time retries (m :: ms) script s = some { r with calls := q.calls :: r.calls } := by
  rw [exchangeSteps_cons_ok time retries m ms script s q h hok, htail]
  rfl

theorem exchangeSteps_cons_failed (time : HostTiming) (retries : Nat) (m : List Char) (ms : List (List Char))
    (script : List AttemptScript) (s : State) (q : SendResult)
    (h : sendAndAwait time m retries script s = some q) (hok : q.ok = false) :
    exchangeSteps time retries (m :: ms) script s = some ⟨false, [q.calls], q.state⟩ := by
  simp only [exchangeSteps, h, hok, Bool.false_eq_true, if_false]

theorem exchangeSteps_cons_none (time : HostTiming) (retries : Nat) (m : List Char) (ms : List (List Char))
    (script : List AttemptScript) (s : State) (h : sendAndAwait time m retries script s = none) :
    exchangeSteps time retries (m :: ms) script s = none := by
  simp only [exchangeSteps, h]

/-- Results of `send_and_await`, one for each message in order, each begun where the one before it ended and
the first where `p` did; all but the last report true. -/
def ChainOf (time : HostTiming) (retries : Nat) (messages : List (List Char)) (start : SendResult)
    (rs : List SendResult) : Prop :=
  ∀ (i : Nat) (p q : SendResult), (start :: rs)[i]? = some p → rs[i]? = some q →
    (∃ m, messages[i]? = some m ∧
      sendAndAwait time m (if i = 0 then retries else 1) p.rest p.state = some q) ∧
    (i + 1 < rs.length → q.ok = true)

/-- What an exchange reports of the results of its steps. -/
structure ExchangeResult.ReportOf (messages : List (List Char)) (start : SendResult) (rs : List SendResult)
    (r : ExchangeResult) : Prop where
  calls : r.calls = rs.map (fun q => q.calls)
  state : (rs.map (fun q => q.state)).getLastD start.state = r.state
  completed : r.ok = true → rs.length = messages.length ∧ ∀ q ∈ rs, q.ok = true
  failed : r.ok = false → ∃ q, rs.getLast? = some q ∧ q.ok = false

theorem chainOf_nil (time : HostTiming) (retries : Nat) (messages : List (List Char)) (start : SendResult) :
    ChainOf time retries messages start [] := by
  intro i p q _ hq
  rw [List.getElem?_nil] at hq
  cases hq

theorem chainOf_cons_iff (time : HostTiming) (retries : Nat) (messages : List (List Char)) (start q : SendResult)
    (rs : List SendResult) :
    ChainOf time retries messages start (q :: rs) ↔
      ∃ m ms, messages = m :: ms ∧ sendAndAwait time m retries start.rest start.state = some q ∧
        (rs ≠ [] → q.ok = true) ∧ ChainOf time 1 ms q rs := by
  constructor
  · intro h
    obtain ⟨⟨m, hm, hsend⟩, hok⟩ := h 0 start q rfl rfl
    obtain ⟨ms, rfl⟩ : ∃ ms, messages = m :: ms := by
      cases messages with
      | nil => cases hm
      | cons m' ms => exact ⟨ms, by rw [Option.some.inj hm]⟩
    refine ⟨m, ms, rfl, hsend, fun hne => hok ?_, fun i p q' hp hq' => ?_⟩
    · exact Nat.succ_lt_succ (List.length_pos_iff.2 hne)
    · obtain ⟨⟨m', hm', hsend'⟩, hok'⟩ := h (i + 1) p q' hp hq'
      refine ⟨⟨m', hm', ?_⟩, fun hlt => hok' (Nat.succ_lt_succ hlt)⟩
      rw [if_neg (Nat.succ_ne_zero i)] at hsend'
      rwa [ite_self]
  · rintro ⟨m, ms, rfl, hsend, hok, hrest⟩ i p q' hp hq'
    cases i with
    | zero =>
      obtain rfl := Option.some.inj hp
      obtain rfl := Option.some.inj hq'
      exact ⟨⟨m, rfl, hsend⟩, fun hlt => hok (List.length_pos_iff.1 (Nat.lt_of_succ_lt_succ hlt))⟩
    | succ i =>
      obtain ⟨⟨m', hm', hsend'⟩, hok'⟩ := hrest i p q' hp hq'
      rw [ite_self] at hsend'
      refine ⟨⟨m', hm', ?_⟩, fun hlt => hok' (Nat.lt_of_succ_lt_succ hlt)⟩
      rwa [if_neg (Nat.succ_ne_zero i)]

/-- A result of the steps has a chain of results behind it. -/
theorem exists_chainOf_of_exchangeSteps (time : HostTiming) (retries : Nat) (messages : List (List Char))
    (start : SendResult) (r : ExchangeResult)
    (h : exchangeSteps time retries messages start.rest start.state = some r) :
    ∃ rs, ChainOf time retries messages start rs ∧ r.ReportOf messages start rs := by
  induction messages generalizing retries start r with
  | nil =>
    obtain rfl := Option.some.inj h
    refine ⟨[], chainOf_nil time retries [] start, rfl, rfl, fun _ => ⟨rfl, ?_⟩, Bool.noConfusion⟩
    exact List.forall_mem_nil _
  | cons m ms ih =>
    cases hsend : sendAndAwait time m retries start.rest start.state with
    | none => rw [exchangeSteps_cons_none time retries m ms _ _ hsend] at h; cases h
    | some q =>
      cases hok : q.ok with
      | false =>
        rw [exchangeSteps_cons_failed time retries m ms _ _ q hsend hok] at h
        obtain rfl := Option.some.inj h
        refine ⟨[q], (chainOf_cons_iff ..).2 ⟨m, ms, rfl, hsend, fun hne => absurd rfl hne,
          chainOf_nil time 1 ms q⟩, rfl, rfl, Bool.noConfusion, fun _ => ⟨q, rfl, hok⟩⟩
      | true =>
        rw [exchangeSteps_cons_ok time retries m ms _ _ q hsend hok] at h
        obtain ⟨r', hr', rfl⟩ := Option.map_eq_some_iff.1 h
        obtain ⟨rs, hchain, hreport⟩ := ih 1 q r' hr'
        refine ⟨q :: rs, (chainOf_cons_iff ..).2 ⟨m, ms, rfl, hsend, fun _ => hok, hchain⟩, ?_, ?_, ?_, ?_⟩
        · exact congrArg (q.calls :: ·) hreport.calls
        · rw [List.map_cons, List.getLastD_cons]
          exact hreport.state
        · intro hr
          obtain ⟨hlen, hall⟩ := hreport.completed hr
          exact ⟨congrArg (· + 1) hlen, List.forall_mem_cons.2 ⟨hok, hall⟩⟩
        · intro hr
          obtain ⟨q', hlast, hq'⟩ := hreport.failed hr
          exact ⟨q', by rw [List.getLast?_cons, hlast]; rfl, hq'⟩

/-- A chain of results that an exchange could report is that of its steps. -/
theorem exchangeSteps_of_chainOf (time : HostTiming) (retries : Nat) (messages : List (List Char))
    (start : SendResult) (rs : List SendResult) (r : ExchangeResult)
    (hchain : ChainOf time retries messages start rs) (hreport : r.ReportOf messages start rs) :
    exchangeSteps time retries messages start.rest start.state = some r := by
  have heta : r = ⟨r.ok, r.calls, r.state⟩ := rfl
  induction messages generalizing retries start rs r with
  | nil =>
    cases rs with
    | nil =>
      have hok : r.ok = true := by
        by_contra hne
        obtain ⟨q, hq, -⟩ := hreport.failed (Bool.eq_false_iff.2 hne)
        cases hq
      rw [heta, hok, hreport.calls, ← hreport.state]
      rfl
    | cons q rs =>
      obtain ⟨m, ms, hnil, -⟩ := (chainOf_cons_iff ..).1 hchain
      cases hnil
  | cons m ms ih =>
    cases rs with
    | nil =>
      cases hok : r.ok with
      | false =>
        obtain ⟨q, hq, -⟩ := hreport.failed hok
        cases hq
      | true =>
        obtain ⟨hlen, -⟩ := hreport.completed hok
        cases hlen
    | cons q rs =>
      obtain ⟨_, _, hms, hsend, hnotLast, hrest⟩ := (chainOf_cons_iff ..).1 hchain
      cases hms
      cases hq : q.ok with
      | false =>
        obtain rfl : rs = [] := by
          by_contra hne
          cases hq.symm.trans (hnotLast hne)
        have hok : r.ok = false := by
          by_contra hne
          obtain ⟨-, hall⟩ := hreport.completed (Bool.not_eq_false _ ▸ hne)
          cases hq.symm.trans (hall q List.mem_cons_self)
        rw [exchangeSteps_cons_failed time retries m ms _ _ q hsend hq, heta, hok, hreport.calls,
          ← hreport.state]
        rfl
      | true =>
        have hreport' : ExchangeResult.ReportOf ms q rs { r with calls := rs.map (fun q => q.calls) } := by
          refine ⟨rfl, ?_, fun hok => ?_, fun hok => ?_⟩
          · rw [← hreport.state, List.map_cons, List.getLastD_cons]
          · obtain ⟨hlen, hall⟩ := hreport.completed hok
            exact ⟨Nat.succ.inj hlen, (List.forall_mem_cons.1 hall).2⟩
          · obtain ⟨q', hlast, hq'⟩ := hreport.failed hok
            rw [List.getLast?_cons, Option.some_inj] at hlast
            cases hrs : rs.getLast? with
            | none =>
              rw [hrs] at hlast
              obtain rfl : q = q' := hlast
              cases hq.symm.trans hq'
            | some q'' =>
              rw [hrs] at hlast
              obtain rfl : q'' = q' := hlast
              exact ⟨q'', rfl, hq'⟩
        rw [exchangeSteps_cons_of_tail time retries m ms _ _ q _ hsend hq (ih 1 q rs _ hrest hreport' rfl)]
        exact congrArg some (by rw [heta, hreport.calls]; rfl)

/-- Steps of an exchange are those of a chain. -/
theorem exchangeSteps_iff (time : HostTiming) (retries : Nat) (messages : List (List Char)) (start : SendResult)
    (r : ExchangeResult) :
    exchangeSteps time retries messages start.rest start.state = some r ↔
      ∃ rs, ChainOf time retries messages start rs ∧ r.ReportOf messages start rs :=
  ⟨exists_chainOf_of_exchangeSteps time retries messages start r,
    fun ⟨rs, hchain, hreport⟩ => exchangeSteps_of_chainOf time retries messages start rs r hchain hreport⟩

/-- Result i of a chain is that of message i. -/
theorem send_of_chainOf (time : HostTiming) (retries : Nat) (messages : List (List Char)) (start q : SendResult)
    (rs : List SendResult) (h : ChainOf time retries messages start rs) (i : Nat) (hq : rs[i]? = some q) :
    (∃ m, messages[i]? = some m ∧ q.WithinRetries m (if i = 0 then retries else 1)) ∧
      (i + 1 < rs.length → q.ok = true) := by
  obtain ⟨hi, -⟩ := List.getElem?_eq_some_iff.1 hq
  have hlt : i < (start :: rs).length := Nat.lt_succ_of_lt hi
  have hp : (start :: rs)[i]? = some (start :: rs)[i] := List.getElem?_eq_getElem hlt
  obtain ⟨⟨m, hm, hsend⟩, hok⟩ := h i _ q hp hq
  exact ⟨⟨m, hm, sendAndAwait_withinRetries _ _ _ _ _ q hsend⟩, hok⟩

theorem length_le_of_chainOf (time : HostTiming) (retries : Nat) (messages : List (List Char))
    (start : SendResult) (rs : List SendResult) (h : ChainOf time retries messages start rs) :
    rs.length ≤ messages.length := by
  by_contra hlt
  have hq : rs[messages.length]? = some (rs[messages.length]'(by omega)) := List.getElem?_eq_getElem (by omega)
  obtain ⟨⟨m, hm, -⟩, -⟩ := send_of_chainOf time retries messages start _ rs h messages.length hq
  rw [List.getElem?_eq_none (Nat.le_refl _)] at hm
  cases hm

/-- A true result has no failed call. -/
theorem success_of_withinRetries (message : List Char) (retries : Nat) (q : SendResult)
    (h : q.WithinRetries message retries) (hok : q.ok = true) : ∀ c ∈ q.calls, c.answer = .success := by
  intro c hc
  cases hanswer : c.answer with
  | success => rfl
  | failure => cases hok.symm.trans (h.failed ⟨c, hc, hanswer⟩)

/-- Settles O59, by the chain behind the steps and the calls of each of its results. -/
theorem exchangeRunsItsStepsInOrder : Obligations.ExchangeRunsItsStepsInOrder := by
  intro time script s
  have hsteps (messages : List (List Char)) (r : ExchangeResult) :=
    exchangeSteps_iff time 2 messages ⟨.replied, [], { s with armed := false, rdata := none }, script⟩ r
  refine ⟨rfl, fun messages r => (hsteps messages r).trans ?_, fun messages r h => ?_⟩
  · constructor
    · rintro ⟨rs, hchain, hreport⟩
      exact ⟨rs, hchain, hreport.calls, hreport.state, hreport.completed, hreport.failed⟩
    · rintro ⟨rs, hchain, hcalls, hstate, hcompleted, hfailed⟩
      exact ⟨rs, hchain, hcalls, hstate, hcompleted, hfailed⟩
  · obtain ⟨rs, hchain, hreport⟩ := (hsteps messages r).1 h
    have hlen : r.calls.length = rs.length := by rw [hreport.calls, List.length_map]
    refine ⟨fun hok => hlen.trans (hreport.completed hok).1, fun hok => ?_, ?_, fun i step hstep => ?_⟩
    · obtain ⟨q, hq, -⟩ := hreport.failed hok
      rw [hlen]
      exact List.length_pos_iff.2 fun hnil => by rw [hnil] at hq; cases hq
    · exact hlen.trans_le (length_le_of_chainOf time 2 messages _ rs hchain)
    · rw [hreport.calls, List.getElem?_map] at hstep
      obtain ⟨q, hq, rfl⟩ := Option.map_eq_some_iff.1 hstep
      obtain ⟨⟨m, hm, hwithin⟩, hnotLast⟩ := send_of_chainOf time 2 messages _ q rs hchain i hq
      refine ⟨?_, fun c hc => ⟨m, hm, hwithin.encoded c hc⟩, fun hor => ?_⟩
      · refine hwithin.bounded.trans_eq ?_
        split_ifs <;> rfl
      · refine success_of_withinRetries m _ q hwithin ?_
        rcases hor with hlt | hok
        · exact hnotLast (hlen ▸ hlt)
        · exact (hreport.completed hok).2 q (List.mem_of_getElem? hq)

/-! ### Two exchanges (R226) -/

/-- Settles O60: each step by the lemma for its attempts, each begun with the parameters of the first. -/
theorem exchangeTransmissionCounts : Obligations.ExchangeTransmissionCounts := by
  intro time m1 m2 m3 train1 train2 b1 b2 t1 t2 before1 before2 echo1 echo2 reply1 reply2 late1 late2 delay1
    delay2 polls1 polls2 rest s hvalid htrain1 htrain2 hb1 hfits1 hb2 hfits2 hreply1 hreply2
  have answered1 (u : State) (hu : u.params = s.params) :=
    attempt_replied time m1 train1 before1 echo1 reply1 late1 [] delay1 polls1 u b1 t1 (by rwa [hu]) htrain1 hb1
      (by rwa [hu]) hreply1 (.inl rfl)
  have answered2 (u : State) (hu : u.params = s.params) :=
    attempt_replied time m2 train2 before2 echo2 reply2 late2 [] delay2 polls2 u b2 t2 (by rwa [hu]) htrain2 hb2
      (by rwa [hu]) hreply2 (.inl rfl)
  refine ⟨fun silent u hsilent => ?_, ?_⟩
  · have hu : u.params = s.params := silentAttempts_params time m1 [silent] (applyOp disarmOp s) u hsilent
    obtain ⟨v, hattempt1, -⟩ := answered1 u hu
    have hv : v.params = s.params := (attempt_params time m1 _ u _ hattempt1).trans hu
    obtain ⟨w, hattempt2, -⟩ := answered2 v hv
    have hsend1 := sendAndAwait_replied_after_silent time m1 train1 2 [silent] _
      (⟨before2, ⟨echo2, .success⟩, ⟨reply2, late2, delay2⟩ :: polls2⟩ :: rest) (applyOp disarmOp s) u v htrain1
      hsilent (Nat.le_succ 1) hattempt1
    have hsend2 := sendAndAwait_of_replied time m2 1 _ rest v w _ hattempt2
    have hstep2 := exchangeSteps_cons_of_tail time 1 m2 [] _ v _ _ hsend2 rfl rfl
    exact ⟨_, exchangeSteps_cons_of_tail time 2 m1 [m2] _ (applyOp disarmOp s) _ _ hsend1 rfl hstep2, rfl, rfl⟩
  · obtain ⟨v, hattempt1, -⟩ := answered1 (applyOp disarmOp s) rfl
    refine ⟨_, hattempt1, rfl, fun silent silent' u hsilent => ?_⟩
    have hsend1 := sendAndAwait_of_replied time m1 2 _ (silent :: silent' :: rest) _ v _ hattempt1
    have hsend2 := sendAndAwait_exhausted time m2 train2 1 [silent, silent'] rest v u htrain2 hsilent rfl
    have hstep2 := exchangeSteps_cons_failed time 1 m2 [m3] _ v _ hsend2 rfl
    exact ⟨_, exchangeSteps_cons_of_tail time 2 m1 [m2, m3] _ (applyOp disarmOp s) _ _ hsend1 rfl hstep2, rfl, rfl⟩

end Sys2Proof.Machine
end
